-- ==== Sys2Proof/Word.lean ====
section
/-! DEFINITION. The words of the machine: the widths of 00_scope.md R5 and the element formats of the
two structured buffer spaces (10_state.md R33, R34). -/

namespace Sys2Proof

/-- A control or status register, and a command word (10_state.md R40, R41; LEN_W = 32). -/
abbrev Word := BitVec 32

/-- One element of PAY or IMG (20_memory.md R60). -/
abbrev Byte := BitVec 8

/-- A symbol value, SYM_W = 21 (00_scope.md R5). -/
abbrev Sym := BitVec 21

/-- A frequency count, COUNT_W = 64 (00_scope.md R5). -/
abbrev Count := BitVec 64

/-- A node weight, WEIGHT_W = 85 (00_scope.md R5). -/
abbrev Weight := BitVec 85

/-- A node index, IDX_W = 22 (00_scope.md R5). -/
abbrev NodeIdx := BitVec 22

/-- A bit string, first bit first (00_scope.md R8). -/
abbrev Bits := List Bool

/-- The frequency table FT as a map in one canonical form: entries in strictly ascending symbol order,
so that equal maps are equal lists (10_state.md R30). -/
abbrev Table := List (Sym × Count)

/-- One element of NODE (00_scope.md R10, 10_state.md R33). -/
inductive TreeNode where
  | leaf (sym : Sym) (weight : Weight)
  | internal (weight : Weight) (left right : NodeIdx)
  deriving DecidableEq, Repr, Inhabited

/-- One element of CT, the triple (sym, len, code) of 10_state.md R34. -/
structure CodeEntry where
  sym  : Sym
  len  : Nat
  code : Bits
  deriving DecidableEq, Repr, Inhabited

end Sys2Proof
end

