-- ==== Sys2Proof/Config.lean ====
section
/-! DEFINITION. What an instance fixes (the OPEN capacities of 00_scope.md R5) and the free values: the
element contents the spec leaves unspecified (93_implementation_defined.md U1, U2). -/

namespace Sys2Proof

/-- The OPEN parameters of an instance (00_scope.md R5), which the registers P_MAX_SYMS .. P_MAX_IMG read
(10_state.md R55). They are arguments of the model and no field of its state (R59, R20). -/
structure Params where
  maxSyms : Word
  maxIn   : Word
  maxOut  : Word
  maxPay  : Word
  maxImg  : Word
  deriving DecidableEq, Repr

/-- The one instance that `exec` and `step` run: the largest R5 allows. DESIGN CHOICE, log 3: R5 leaves the values
OPEN and R6 lets a model instantiate them with any in their range. Every operation that consults a capacity takes
the parameters as an argument, and the statements speak of every `p : Params`; no rule depends on these. -/
def Config.params : Params where
  maxSyms := 1112064#32
  maxIn   := 0xFFFFFFFF#32
  maxOut  := 0xFFFFFFFF#32
  maxPay  := 0xFFFFFFFF#32
  maxImg  := 0xFFFFFFFF#32

/-! Free values, one constant per memory, without a body: applied to the memory's draw counter and to
the element's index (log 4). A claim about them holds whatever they are. -/

opaque Config.freeNode (draw idx : Nat) : TreeNode
opaque Config.freeCt (draw idx : Nat) : CodeEntry
opaque Config.freeSin (draw idx : Nat) : Sym
opaque Config.freeSout (draw idx : Nat) : Sym
opaque Config.freePay (draw idx : Nat) : Byte
opaque Config.freeImg (draw idx : Nat) : Byte

end Sys2Proof
end

