-- ==== Sys2Proof/Syntax.lean ====
section
/-! DEFINITION. The eight commands of 30_encoding.md R82. No command has an operand (R81). -/

namespace Sys2Proof

/-- One constructor per row of spec/opcode_table.json. -/
inductive Instr where
  /-- Control command: success indication only (R180). -/
  | nop
  /-- The tree builder (R100). -/
  | build
  /-- The code assigner (R120). -/
  | assign
  /-- The bit packer (R130). -/
  | encode
  /-- The header codec, writing (R146). -/
  | wrhdr
  /-- The header codec, reading (R147). -/
  | rdhdr
  /-- The bit unpacker (R170). -/
  | decode
  /-- Control command: back to the reset state (R181). -/
  | clr
  deriving DecidableEq, Repr

end Sys2Proof
end

