-- ==== Sys2Proof/WellFormed.lean ====
section
/-! DEFINITION. Well-formedness: of a command word (30_encoding.md R80, R83), of an instruction, and of
the instance's parameters (00_scope.md R5). -/

namespace Sys2Proof

/-- R80: bits 31:4 of a command word are zero. -/
def zeroFieldOk (w : Word) : Bool := w.extractLsb' 4 28 == 0#28

/-- R82, R83: opcodes 0x0 to 0x7 are commands, 0x8 to 0xF are reserved. -/
def opcodeOk (w : Word) : Bool := decide ((w.extractLsb' 0 4).toNat < 8)

/-- A word is one of the eight commands. -/
def cmdWordOk (w : Word) : Bool := zeroFieldOk w && opcodeOk w

/-- R81: a command has no register field, immediate, address or mode bit, so there is nothing an
instruction could hold that would make it ill-formed. -/
def Instr.wf : Instr → Bool
  | .nop | .build | .assign | .encode | .wrhdr | .rdhdr | .decode | .clr => true

/-- R5: MAX_SYMS is in 2 .. 1,112,064. -/
def Params.symsOk (p : Params) : Bool := decide (2 ≤ p.maxSyms.toNat) && decide (p.maxSyms.toNat ≤ 1112064)

/-- R5: MAX_IMG is at least 32. -/
def Params.imgOk (p : Params) : Bool := decide (32 ≤ p.maxImg.toNat)

/-- R5: the ranges of the OPEN parameters; MAX_IN, MAX_OUT and MAX_PAY take every 32-bit value. -/
def Params.wf (p : Params) : Bool := p.symsOk && p.imgOk

end Sys2Proof
end

