-- ==== Sys2Proof/Decode.lean ====
section
/-! DEFINITION. Decoding of command words, total on all 2^32 words (30_encoding.md R89), and the encoder
of R82. A command word is written to CMD whole; how its bytes travel on a bus is the OPEN parameter
HOST_MAP (20_memory.md R62), so no byte order enters here (log 8). -/

namespace Sys2Proof

/-- Why a word is no command (R83). Both are the one failure IllegalCommand (60_exceptions.md R199). -/
inductive Illegal where
  /-- bits 31:4 are not all zero -/
  | nonzeroField
  /-- opcode in 0x8 .. 0xF -/
  | reservedOpcode (op : BitVec 4)
  deriving DecidableEq, Repr

/-- R89: the low four bits, when the `zero` field is zero. -/
def decodeOpcode (op : BitVec 4) : Except Illegal Instr :=
  match op.toNat with
  | 0 => .ok .nop
  | 1 => .ok .build
  | 2 => .ok .assign
  | 3 => .ok .encode
  | 4 => .ok .wrhdr
  | 5 => .ok .rdhdr
  | 6 => .ok .decode
  | 7 => .ok .clr
  | _ => .error (.reservedOpcode op)

/-- R89: the whole word. -/
def decodeWord (w : Word) : Except Illegal Instr :=
  if w.extractLsb' 4 28 = 0#28 then decodeOpcode (w.extractLsb' 0 4) else .error .nonzeroField

/-- The opcode column of R82. -/
def Instr.opcode : Instr → BitVec 4
  | .nop    => 0x0#4
  | .build  => 0x1#4
  | .assign => 0x2#4
  | .encode => 0x3#4
  | .wrhdr  => 0x4#4
  | .rdhdr  => 0x5#4
  | .decode => 0x6#4
  | .clr    => 0x7#4

/-- The command word of an instruction: 28 zero bits, then the opcode (R80). -/
def encodeWord (i : Instr) : Word := 0#28 ++ i.opcode

/-- The word of `nbits` bits of value `w` as the table numbers it, as a CMD word (one 32-bit word; bits
above `nbits` are zero; a value that does not fit 32 bits is no command). -/
def tableWord (nbits w : Nat) : Option Word :=
  if w % 2 ^ nbits < 2 ^ 32 then some (BitVec.ofNat 32 (w % 2 ^ nbits)) else none

/-- What the decoder reads from an instruction whose bits are `w`. -/
def decodeTableWord (nbits w : Nat) : Option Instr :=
  match tableWord nbits w with
  | none => none
  | some word =>
    match decodeWord word with
    | .ok i => some i
    | .error _ => none

end Sys2Proof
end

