-- ==== Sys2Proof/Machine/State.lean ====
section
/-! DEFINITION. The state of one engine instance (10_state.md R20), its reset value (R58), the events of
the host port (20_memory.md R64), and the reasons a step can stop. -/

namespace Sys2Proof.Machine

/-- The values of ERR: 0 = success and the ten error codes (60_exceptions.md R191). Codes 11 to 15 are
never produced (93_implementation_defined.md U7), so there is no constructor for them. -/
inductive ResultCode where
  | success
  | emptyAlphabet
  | degenerateAlphabet
  | unknownSymbol
  | invalidHeader
  | invalidHeaderValue
  | ioFailure
  | corruptPayload
  | illegalCommand
  | sequence
  | capacity
  deriving DecidableEq, Repr

/-- A typed failure of a command (60_exceptions.md R190, R191), with the one payload the spec gives:
the offending symbol of UnknownSymbol. A failure is no stop of the machine: it is a next state
(`raise` in Machine/Ops.lean). -/
inductive Failure where
  | emptyAlphabet
  | degenerateAlphabet
  | unknownSymbol (s : Sym)
  | invalidHeader
  | invalidHeaderValue
  | ioFailure
  | corruptPayload
  | illegalCommand
  | sequence
  | capacity
  deriving DecidableEq, Repr

/-- The six buffer spaces addressed by an element index (20_memory.md R60). -/
inductive Space where
  | node
  | ct
  | sin
  | sout
  | pay
  | img
  deriving DecidableEq, Repr

/-- One event at the engine's port: a host access (20_memory.md R64, 10_state.md R31) or the platform's
reset (70_reset_and_hazards.md R220). Indices, symbols, counts and element values are numbers of any
size, since the host may present one that does not fit; a register value is one 32-bit word. -/
inductive PortEvent where
  | readCsr (n : Nat)
  | writeCsr (n : Nat) (v : Word)
  | ftSet (s c : Nat)
  | ftDel (s : Nat)
  | ftGet (s : Nat)
  | read (sp : Space) (i : Nat)
  | write (sp : Space) (i v : Nat)
  | reset
  deriving DecidableEq, Repr

/-- What the latest host read returned. -/
inductive Response where
  /-- no read has been performed since reset -/
  | none
  | csr (v : Word)
  /-- FTGet: presence bit and count -/
  | ft (present : Bool) (c : Count)
  /-- the 130-bit element of NODE -/
  | node (v : BitVec 130)
  | ct (e : CodeEntry)
  | sym (v : Sym)
  | byte (v : Byte)
  deriving DecidableEq, Repr

/-- A buffer space: the elements that hold a value the spec fixes, as (index, value) pairs in strictly
rising order, and which draw of free values all other elements take (log 4). -/
structure Memory (α : Type) where
  cells : List (Nat × α)
  epoch : Nat
  deriving DecidableEq, Repr

/-- A memory with no element of a known value. -/
def Memory.unwritten (α : Type) : Memory α := ⟨[], 0⟩

/-- The state (10_state.md R20). `input`, `resp` and the memories' `epoch` are the model's own (logs 1, 2
and 4); everything else is the spec's. The implementation parameters are no field (R59): they are the argument
`p : Params` of the operations. -/
structure State where
  /-- STATUS bits 0 to 5 (R42) -/
  done      : Bool
  error     : Bool
  treeValid : Bool
  ctValid   : Bool
  busy      : Bool
  hosterr   : Bool
  /-- ERR (R43) -/
  err       : ResultCode
  /-- ERRINFO (R44) -/
  errinfo   : Sym
  /-- PAD (R45) -/
  pad       : BitVec 3
  /-- FT_LEN .. HDR_LEN (R46 to R51) -/
  ftLen     : Word
  sinLen    : Word
  payLen    : Word
  imgLen    : Word
  soutLen   : Word
  hdrLen    : Word
  /-- NODE_CNT, ROOT, CT_LEN (R52 to R54) -/
  nodeCnt   : NodeIdx
  root      : NodeIdx
  ctLen     : Word
  /-- the frequency table (R30) -/
  ft        : Table
  /-- the buffer spaces (R33 to R39) -/
  node      : Memory TreeNode
  ct        : Memory CodeEntry
  sin       : Memory Sym
  sout      : Memory Sym
  pay       : Memory Byte
  img       : Memory Byte
  /-- the input of the next step: the event presented at the port, if there is one (the model's own). The
  host's program is no part of the state (R59, R22). -/
  input     : Option PortEvent
  /-- what the latest host read returned (the model's own) -/
  resp      : Response
  deriving DecidableEq, Repr

/-- The machine right after reset (R58), the same on every instance. -/
def State.reset : State where
  done := false
  error := false
  treeValid := false
  ctValid := false
  busy := false
  hosterr := false
  err := .success
  errinfo := 0#21
  pad := 0#3
  ftLen := 0#32
  sinLen := 0#32
  payLen := 0#32
  imgLen := 0#32
  soutLen := 0#32
  hdrLen := 0#32
  nodeCnt := 0#22
  root := 0#22
  ctLen := 0#32
  ft := []
  node := Memory.unwritten TreeNode
  ct := Memory.unwritten CodeEntry
  sin := Memory.unwritten Sym
  sout := Memory.unwritten Sym
  pay := Memory.unwritten Byte
  img := Memory.unwritten Byte
  input := none
  resp := .none

/-- Reasons for which the machine stops with a fault: there is none. "Nothing in this hardware is
undefined behaviour in the sense that anything may happen: every host action has a stated total outcome"
(93_implementation_defined.md). A command's failure is a next state (60_exceptions.md R203). -/
inductive Fault
  deriving DecidableEq, Repr

/-- Reasons for which the model gives no meaning. -/
inductive Refusal where
  /-- raised by `exec` for an instruction without a meaning; no arm raises it any more. Safe: it stops. -/
  | notModelled (mnemonic : String)
  deriving DecidableEq, Repr

end Sys2Proof.Machine
end

