-- ==== Sys2Proof/Machine/Ops.lean ====
section
/-! DEFINITION. The shared operations: element memories, the frequency table, tree nodes, bit order, and
how a command ends (60_exceptions.md R202, R203). -/

namespace Sys2Proof.Machine

/-! ## Element memories (20_memory.md R60, R74) -/

/-- The value listed for index `i`, if there is one. -/
def lookupCell {α : Type} : List (Nat × α) → Nat → Option α
  | [], _ => none
  | (a, v) :: cs, i => if a = i then some v else lookupCell cs i

/-- The list with index `i` holding `v`, in rising order. -/
def insertCell {α : Type} : List (Nat × α) → Nat → α → List (Nat × α)
  | [], i, v => [(i, v)]
  | (a, w) :: cs, i, v =>
    if i < a then (i, v) :: (a, w) :: cs
    else if a = i then (i, v) :: cs
    else (a, w) :: insertCell cs i v

/-- The elements of a list as cells at `k`, `k + 1`, … -/
def numbered {α : Type} : Nat → List α → List (Nat × α)
  | _, [] => []
  | k, v :: vs => (k, v) :: numbered (k + 1) vs

/-- The element at `i` where its value is fixed: `none` for one the spec leaves unspecified. -/
def Memory.peek {α : Type} (m : Memory α) (i : Nat) : Option α := lookupCell m.cells i

/-- MemRead: the element at `i`; an unlisted element is the free value of the memory's draw (R74, log 4). -/
def Memory.get {α : Type} (free : Nat → Nat → α) (m : Memory α) (i : Nat) : α :=
  (m.peek i).getD (free m.epoch i)

/-- MemWrite of one element. -/
def Memory.set {α : Type} (m : Memory α) (i : Nat) (v : α) : Memory α :=
  { m with cells := insertCell m.cells i v }

/-- The elements 0 .. `len` − 1, in order. -/
def Memory.readAll {α : Type} (free : Nat → Nat → α) (m : Memory α) (len : Nat) : List α :=
  (List.range len).map (m.get free)

/-- MemWrite of a whole result from index 0; elements at or above its length keep their value
(93_implementation_defined.md U3). -/
def Memory.writeAll {α : Type} (m : Memory α) (vs : List α) : Memory α :=
  { m with cells := numbered 0 vs ++ m.cells.filter (fun c => decide (vs.length ≤ c.1)) }

/-- Every element becomes unspecified: a new draw (93_implementation_defined.md U1, U2; log 5). -/
def Memory.spoil {α : Type} (m : Memory α) : Memory α := ⟨[], m.epoch + 1⟩

/-- Indices strictly rise. -/
def rising {α : Type} : List (Nat × α) → Bool
  | [] => true
  | [_] => true
  | a :: b :: cs => decide (a.1 < b.1) && rising (b :: cs)

/-- The canonical form: indices strictly rising. A listed element has a value the spec fixes and an
unlisted one has none, so equal partial memories are equal lists. -/
def Memory.wf {α : Type} (m : Memory α) : Bool := rising m.cells

/-- Every listed index is below the space's capacity (20_memory.md R60). -/
def Memory.below {α : Type} (m : Memory α) (cap : Nat) : Bool := m.cells.all (fun c => decide (c.1 < cap))

/-! ## The frequency table (10_state.md R30, R31) -/

/-- SCALAR of 00_scope.md R5: Unicode code points that are not surrogates. -/
def isScalar (v : Nat) : Bool :=
  decide (v < 0xD800) || (decide (0xE000 ≤ v) && decide (v ≤ 0x10FFFF))

/-- `FT(s)`, or `none` where `s` is not in the domain. -/
def tableGet : Table → Sym → Option Count
  | [], _ => none
  | (k, c) :: t, s => if k = s then some c else tableGet t s

/-- `FT(s) <- c`: a new entry or an overwrite. -/
def tableSet : Table → Sym → Count → Table
  | [], s, c => [(s, c)]
  | (k, d) :: t, s, c =>
    if s < k then (s, c) :: (k, d) :: t
    else if k = s then (s, c) :: t
    else (k, d) :: tableSet t s c

/-- The entry of `s` removed, if there is one. -/
def tableDel (t : Table) (s : Sym) : Table := t.filter (fun e => !decide (e.1 = s))

/-- The canonical form of a table: symbols strictly ascending. -/
def tableSorted : Table → Bool
  | [] => true
  | [_] => true
  | a :: b :: t => decide (a.1 < b.1) && tableSorted (b :: t)

/-- A table the machine can hold: canonical, SCALAR symbols only (R30). -/
def tableOk (t : Table) : Bool := tableSorted t && t.all (fun e => isScalar e.1.toNat)

end Sys2Proof.Machine

/-! ## Tree nodes (00_scope.md R10, 10_state.md R33) -/

namespace Sys2Proof

def TreeNode.isLeaf : TreeNode → Bool
  | .leaf _ _ => true
  | .internal _ _ _ => false

def TreeNode.weight : TreeNode → Weight
  | .leaf _ w => w
  | .internal w _ _ => w

/-- Bits 43:22 of the element; zero in a Leaf. -/
def TreeNode.left : TreeNode → NodeIdx
  | .leaf _ _ => 0#22
  | .internal _ l _ => l

/-- Bits 21:0 of the element; in a Leaf these are a zero and the symbol. -/
def TreeNode.right : TreeNode → NodeIdx
  | .leaf s _ => 0#1 ++ s
  | .internal _ _ r => r

/-- The 130-bit element of R33: tag, weight, then sym or left and right. -/
def TreeNode.toBits : TreeNode → BitVec 130
  | .leaf s w => 0#1 ++ w ++ 0#23 ++ s
  | .internal w l r => 1#1 ++ w ++ l ++ r

end Sys2Proof

namespace Sys2Proof.Machine

/-! ## Bit order (20_memory.md R61) -/

/-- The bits of a byte, most significant first. -/
def byteBits (b : Byte) : Bits :=
  [b.getLsbD 7, b.getLsbD 6, b.getLsbD 5, b.getLsbD 4, b.getLsbD 3, b.getLsbD 2, b.getLsbD 1, b.getLsbD 0]

/-- The bit sequence of a payload: bit `k` is `PAY[k div 8][7 − (k mod 8)]`. -/
def bytesBits : List Byte → Bits
  | [] => []
  | b :: bs => byteBits b ++ bytesBits bs

/-! ## How a command ends -/

/-- The result code a failure reports (60_exceptions.md R191). -/
def Failure.code : Failure → ResultCode
  | .emptyAlphabet => .emptyAlphabet
  | .degenerateAlphabet => .degenerateAlphabet
  | .unknownSymbol _ => .unknownSymbol
  | .invalidHeader => .invalidHeader
  | .invalidHeaderValue => .invalidHeaderValue
  | .ioFailure => .ioFailure
  | .corruptPayload => .corruptPayload
  | .illegalCommand => .illegalCommand
  | .sequence => .sequence
  | .capacity => .capacity

/-- What ERRINFO receives: the symbol of UnknownSymbol, else 0 (R203). -/
def Failure.info : Failure → Sym
  | .unknownSymbol s => s
  | .emptyAlphabet | .degenerateAlphabet | .invalidHeader | .invalidHeaderValue | .ioFailure
  | .corruptPayload | .illegalCommand | .sequence | .capacity => 0#21

/-- The number of a result code (R191). -/
def ResultCode.number : ResultCode → BitVec 4
  | .success => 0#4
  | .emptyAlphabet => 1#4
  | .degenerateAlphabet => 2#4
  | .unknownSymbol => 3#4
  | .invalidHeader => 4#4
  | .invalidHeaderValue => 5#4
  | .ioFailure => 6#4
  | .corruptPayload => 7#4
  | .illegalCommand => 8#4
  | .sequence => 9#4
  | .capacity => 10#4

/-- Failure entry, the engine's "trap entry" (R203). Nothing else is saved: no pc, no mode, no vector. -/
def raise (f : Failure) (s : State) : State :=
  { s with done := true, error := true, err := f.code, errinfo := f.info, busy := false }

/-- Success (R202). It is also the only "return": a failure indication is over when the next command
succeeds (R206). -/
def complete (s : State) : State :=
  { s with done := true, error := false, err := .success, errinfo := 0#21, busy := false }

end Sys2Proof.Machine
end

