-- ==== Sys2Proof/Machine/Flags.lean ====
section
/-! DEFINITION. The flags of STATUS (10_state.md R23, R42) and what sets and clears them beside `raise`
and `complete`: the start of a command, invalidation (R57), a refused host access (20_memory.md R65). -/

namespace Sys2Proof.Machine

/-- STATUS (R42): bits 31:6 zero, then HOSTERR, BUSY, CT_VALID, TREE_VALID, ERROR, DONE. -/
def statusWord (s : State) : Word :=
  0#26 ++ BitVec.ofBool s.hosterr ++ BitVec.ofBool s.busy ++ BitVec.ofBool s.ctValid
    ++ BitVec.ofBool s.treeValid ++ BitVec.ofBool s.error ++ BitVec.ofBool s.done

/-- BUSY is set at the start of a command (R23) and cleared by its end in the same step (20_memory.md R66). -/
def startCommand (s : State) : State := { s with busy := true }

/-- InvalidateCT (R57). The contents of CT are not erased. -/
def invalidateCt (s : State) : State := { s with ctValid := false, ctLen := 0#32 }

/-- InvalidateTree (R57). The contents of NODE and CT are not erased. -/
def invalidateTree (s : State) : State :=
  invalidateCt { s with treeValid := false, nodeCnt := 0#22, root := 0#22 }

/-- A refused host access changes no state except HOSTERR (20_memory.md R65). -/
def refuseAccess (s : State) : State := { s with hosterr := true }

end Sys2Proof.Machine
end

