-- ==== Sys2Proof/Machine/Operands.lean ====
section
/-! DEFINITION. The operands of the commands: no command has an operand field, each reads fixed spaces
from index 0 up to the space's length register (20_memory.md R69, 30_encoding.md R81). -/

namespace Sys2Proof.Machine

/-- `NODE[i]` -/
def nodeAt (s : State) (i : Nat) : TreeNode := s.node.get Config.freeNode i

/-- `CT[i]` -/
def ctAt (s : State) (i : Nat) : CodeEntry := s.ct.get Config.freeCt i

/-- `SIN[i]` -/
def sinAt (s : State) (i : Nat) : Sym := s.sin.get Config.freeSin i

/-- `SOUT[i]` -/
def soutAt (s : State) (i : Nat) : Sym := s.sout.get Config.freeSout i

/-- `PAY[i]` -/
def payAt (s : State) (i : Nat) : Byte := s.pay.get Config.freePay i

/-- `IMG[i]` -/
def imgAt (s : State) (i : Nat) : Byte := s.img.get Config.freeImg i

/-- `NODE[0 .. NODE_CNT)` -/
def nodeElems (s : State) : List TreeNode := s.node.readAll Config.freeNode s.nodeCnt.toNat

/-- `CT[0 .. CT_LEN)` -/
def ctElems (s : State) : List CodeEntry := s.ct.readAll Config.freeCt s.ctLen.toNat

/-- `SIN[0 .. SIN_LEN)` -/
def sinElems (s : State) : List Sym := s.sin.readAll Config.freeSin s.sinLen.toNat

/-- `SOUT[0 .. SOUT_LEN)` -/
def soutElems (s : State) : List Sym := s.sout.readAll Config.freeSout s.soutLen.toNat

/-- `PAY[0 .. PAY_LEN)` -/
def payElems (s : State) : List Byte := s.pay.readAll Config.freePay s.payLen.toNat

/-- `IMG[0 .. IMG_LEN)` -/
def imgElems (s : State) : List Byte := s.img.readAll Config.freeImg s.imgLen.toNat

end Sys2Proof.Machine
end

