-- ==== Sys2Proof/Machine/BitPacker.lean ====
section
/-! DEFINITION. ENCODE, the bit packer (42_bitpacker_encoder.md). -/

namespace Sys2Proof.Machine

/-- The working registers ACC and NBITS and the bytes emitted so far (10_state.md R21); NB is the number
of those bytes. -/
structure Packer where
  acc   : Byte
  nbits : Nat
  out   : List Byte
  deriving DecidableEq, Repr

/-- `CT(s)`: the code of the element whose symbol is `s` (10_state.md R34). -/
def lookupCode : List CodeEntry → Sym → Option Bits
  | [], _ => none
  | e :: es, s => if e.sym = s then some e.code else lookupCode es s

/-- R131: one bit enters ACC at bit 0; a full byte is emitted, unless PAY is full (R134). -/
def Packer.push (maxPay : Nat) (p : Packer) (b : Bool) : Except Failure Packer :=
  let acc := (p.acc <<< 1) ||| (if b then 1#8 else 0#8)
  if p.nbits + 1 = 8 then
    if p.out.length = maxPay then .error .capacity else .ok ⟨0#8, 0, p.out ++ [acc]⟩
  else .ok ⟨acc, p.nbits + 1, p.out⟩

/-- R131: the bits of one code, first bit first. -/
def Packer.pushAll (maxPay : Nat) : Packer → Bits → Except Failure Packer
  | p, [] => .ok p
  | p, b :: bs =>
    match p.push maxPay b with
    | .error f => .error f
    | .ok p' => Packer.pushAll maxPay p' bs

/-- R131: the loop over the input symbols; the lookup precedes the appending of bits (R135). -/
def packSymbols (maxPay : Nat) (ct : List CodeEntry) : Packer → List Sym → Except Failure Packer
  | p, [] => .ok p
  | p, s :: ss =>
    match lookupCode ct s with
    | none => .error (.unknownSymbol s)
    | some c =>
      match p.pushAll maxPay c with
      | .error f => .error f
      | .ok p' => packSymbols maxPay ct p' ss

/-- R132: the final partial byte, its bits in the high-order positions, and the padding. -/
def Packer.flush (maxPay : Nat) (p : Packer) : Except Failure (List Byte × BitVec 3) :=
  if 0 < p.nbits then
    if p.out.length = maxPay then .error .capacity
    else .ok (p.out ++ [p.acc <<< (8 - p.nbits)], BitVec.ofNat 3 (8 - p.nbits))
  else .ok (p.out, 0#3)

/-- Pack (R131): the payload bytes and the padding. -/
def pack (maxPay : Nat) (ct : List CodeEntry) (ss : List Sym) : Except Failure (List Byte × BitVec 3) :=
  match packSymbols maxPay ct ⟨0#8, 0, []⟩ ss with
  | .error f => .error f
  | .ok p => p.flush maxPay

/-- The checks and the result of ENCODE, in the order of R130. -/
def encodeResult (p : Params) (s : State) : Except Failure (List Byte × BitVec 3) :=
  if s.ctValid then pack p.maxPay.toNat (ctElems s) (sinElems s) else .error .sequence

/-- ENCODE (R130) on an instance `p`: PAY_LEN and PAD are cleared first; on failure PAY is unspecified (R136,
log 5). -/
def encodeOn (p : Params) (s : State) : State :=
  match encodeResult p s with
  | .error f => raise f { s with payLen := 0#32, pad := 0#3, pay := s.pay.spoil }
  | .ok r => complete { s with payLen := BitVec.ofNat 32 r.1.length, pad := r.2, pay := s.pay.writeAll r.1 }

/-- ENCODE on the instance of Config. -/
def execEncode (s : State) : Host.Outcome State Fault Refusal := .next (encodeOn Config.params s)

end Sys2Proof.Machine
end

