-- ==== Sys2Proof/Machine/TreeBuilder.lean ====
section
/-! DEFINITION. BUILD, the tree builder (40_tree_builder.md). `buildTree` is the BuildTree of R102, used
again by DECODE. -/

namespace Sys2Proof.Machine

/-- One element of the priority structure PQ: a node index with the key of R101, the triple (weight,
category, tie-break): category 0 for a Leaf and 1 for an Internal, tie-break the symbol value or the
creation number. -/
structure Pending where
  idx    : Nat
  weight : Weight
  cat    : Nat
  tb     : Nat
  deriving DecidableEq, Repr

/-- R101: keys compared lexicographically, each component as an unsigned integer, smaller first. -/
def Pending.before (a b : Pending) : Bool :=
  decide (a.weight < b.weight) ||
    (decide (a.weight = b.weight) &&
      (decide (a.cat < b.cat) || (decide (a.cat = b.cat) && decide (a.tb < b.tb))))

/-- Insertion into PQ, kept in ascending order of the keys, so that the smallest is the head (log 9). -/
def enqueue (x : Pending) : List Pending → List Pending
  | [] => [x]
  | y :: q => if x.before y then x :: y :: q else y :: enqueue x q

/-- R102: `NODE[i] <- Leaf(sym = s_i, weight = zext_85(FT(s_i)))`, symbols ascending (R103). -/
def leafNodes (t : Table) : List TreeNode := t.map (fun e => .leaf e.1 (e.2.setWidth 85))

/-- The PQ elements of the leaves, the first at index `i`. -/
def leafPendings : Nat → Table → List Pending
  | _, [] => []
  | i, (s, c) :: t => ⟨i, c.setWidth 85, 0, s.toNat⟩ :: leafPendings (i + 1) t

/-- `PQ <- {0, 1, ..., n-1}`. -/
def initialQueue (t : Table) : List Pending := (leafPendings 0 t).foldr enqueue []

/-- The merge loop of R102 with `n` leaves, from creation number `seq` on: the Internals in creation
order. Each pass extracts the two smallest, the first becoming the left child. -/
def mergeLoop (n : Nat) : Nat → Nat → List Pending → List TreeNode
  | fuel + 1, seq, a :: b :: q =>
    .internal (a.weight + b.weight) (BitVec.ofNat 22 a.idx) (BitVec.ofNat 22 b.idx)
      :: mergeLoop n fuel (seq + 1) (enqueue ⟨n + seq, a.weight + b.weight, 1, seq⟩ q)
  | _, _, _ => []

/-- BuildTree (R102): `NODE[0 .. NODE_CNT)`, leaves then Internals (R103); the root is the last node.
The loop runs n − 1 times, so the bound `n` is never reached (log 10). -/
def buildTree (t : Table) : Except Failure (List TreeNode) :=
  match t with
  | [] => .error .emptyAlphabet
  | e :: r =>
    .ok (leafNodes (e :: r) ++ mergeLoop (e :: r).length (e :: r).length 0 (initialQueue (e :: r)))

/-- The outputs of a successful BuildTree: NODE, NODE_CNT, ROOT = NODE_CNT − 1 (R103) and
`TREE_VALID <- 1` (R100, 44_bitunpacker_decoder.md R171). -/
def loadTree (nodes : List TreeNode) (s : State) : State :=
  { s with
    node := s.node.writeAll nodes
    nodeCnt := BitVec.ofNat 22 nodes.length
    root := BitVec.ofNat 22 (nodes.length - 1)
    treeValid := true }

/-- NODE after a failed BuildTree is unspecified (93_implementation_defined.md U2, log 5). -/
def spoilNode (s : State) : State := { s with node := s.node.spoil }

/-- BUILD (R100): InvalidateTree, BuildTree, then TREE_VALID or the failure of R105. -/
def execBuild (s : State) : Host.Outcome State Fault Refusal :=
  .next (match buildTree s.ft with
    | .error f => raise f (spoilNode (invalidateTree s))
    | .ok nodes => complete (loadTree nodes (invalidateTree s)))

end Sys2Proof.Machine
end

