-- ==== Sys2Proof/Machine/BitUnpacker.lean ====
section
/-! DEFINITION. DECODE, the bit unpacker (44_bitunpacker_decoder.md). -/

namespace Sys2Proof.Machine

/-- Phase 3 (R173): the designated bit range, `8 × PAY_LEN − PAD` bits of the payload; an empty payload
with a non-zero padding is CorruptPayload. -/
def payloadBits (s : State) : Except Failure Bits :=
  if s.payLen = 0#32 then
    if s.pad = 0#3 then .ok [] else .error .corruptPayload
  else .ok ((bytesBits (payElems s)).take (8 * s.payLen.toNat - s.pad.toNat))

/-- Phase 4 (R174): the walk from node `cur` with the symbols emitted so far; left on 0, right on 1; at a
Leaf its symbol is emitted and the cursor returns to the root. -/
def walk (node : Nat → TreeNode) (root maxOut : Nat) : Nat → List Sym → Bits → Except Failure (Nat × List Sym)
  | cur, out, [] => .ok (cur, out)
  | cur, out, b :: bs =>
    let nxt := if b then (node cur).right.toNat else (node cur).left.toNat
    match node nxt with
    | .leaf sym _ =>
      if out.length = maxOut then .error .capacity else walk node root maxOut root (out ++ [sym]) bs
    | .internal _ _ _ => walk node root maxOut nxt out bs

/-- Phases 2 to 5 (R172 to R175) on a state whose tree has just been rebuilt. -/
def decodeSymbols (p : Params) (s : State) : Except Failure (List Sym) :=
  if (nodeAt s s.root.toNat).isLeaf then .error .degenerateAlphabet
  else
    match payloadBits s with
    | .error f => .error f
    | .ok bits =>
      match walk (nodeAt s) s.root.toNat p.maxOut.toNat s.root.toNat [] bits with
      | .error f => .error f
      | .ok (cur, out) => if cur = s.root.toNat then .ok out else .error .corruptPayload

/-- SOUT after a failed DECODE is unspecified (93_implementation_defined.md U2, log 5). -/
def spoilSout (s : State) : State := { s with sout := s.sout.spoil }

/-- Phases 0 and 1 (R170, R171): `SOUT_LEN <- 0`, then InvalidateTree. -/
def decodeStart (s : State) : State := invalidateTree { s with soutLen := 0#32 }

/-- DECODE (R170) on an instance `p`. -/
def decodeOn (p : Params) (s : State) : State :=
  match buildTree s.ft with
  | .error f => raise f (spoilSout (spoilNode (decodeStart s)))
  | .ok nodes =>
    match decodeSymbols p (loadTree nodes (decodeStart s)) with
    | .error f => raise f (spoilSout (loadTree nodes (decodeStart s)))
    | .ok out => complete { loadTree nodes (decodeStart s) with
        sout := s.sout.writeAll out, soutLen := BitVec.ofNat 32 out.length }

/-- DECODE on the instance of Config. -/
def execDecode (s : State) : Host.Outcome State Fault Refusal := .next (decodeOn Config.params s)

end Sys2Proof.Machine
end

