-- ==== Sys2Proof/Machine/CodeAssigner.lean ====
section
/-! DEFINITION. ASSIGN, the code assigner (41_code_assigner.md). -/

namespace Sys2Proof.Machine

/-- The loop of R121: the FIFO holds (node index, prefix); a Leaf is recorded, an Internal appends its
left child with "0" and its right child with "1". The first argument bounds the number of removals; the
loop runs NODE_CNT times (R121, log 10). -/
def bfs (node : Nat → TreeNode) : Nat → List (Nat × Bits) → List CodeEntry
  | fuel + 1, (i, p) :: q =>
    match node i with
    | .leaf s _ => ⟨s, p.length, p⟩ :: bfs node fuel q
    | .internal _ l r => bfs node fuel (q ++ [(l.toNat, p ++ [false]), (r.toNat, p ++ [true])])
  | _, _ => []

/-- AssignCodes (R121) on the tree with root `root` and `cnt` nodes; a one-leaf tree is degenerate (R122). -/
def assignCodes (node : Nat → TreeNode) (root cnt : Nat) : Except Failure (List CodeEntry) :=
  if (node root).isLeaf then .error .degenerateAlphabet else .ok (bfs node cnt [(root, [])])

/-- The outputs of a successful AssignCodes: CT, CT_LEN and `CT_VALID <- 1` (R120, R123). -/
def loadCodes (es : List CodeEntry) (s : State) : State :=
  { s with ct := s.ct.writeAll es, ctLen := BitVec.ofNat 32 es.length, ctValid := true }

/-- CT after a failed ASSIGN is unspecified (93_implementation_defined.md U2, log 5). -/
def spoilCt (s : State) : State := { s with ct := s.ct.spoil }

/-- The checks and the result of ASSIGN, in the order of R120. -/
def assignResult (s : State) : Except Failure (List CodeEntry) :=
  if s.treeValid then assignCodes (nodeAt s) s.root.toNat s.nodeCnt.toNat else .error .sequence

/-- ASSIGN (R120): InvalidateCT, the Sequence check, AssignCodes. -/
def execAssign (s : State) : Host.Outcome State Fault Refusal :=
  .next (match assignResult s with
    | .error f => raise f (spoilCt (invalidateCt s))
    | .ok es => complete (loadCodes es (invalidateCt s)))

end Sys2Proof.Machine
end

