-- ==== Sys2Proof/Machine/Control.lean ====
section
/-! DEFINITION. NOP and CLR (45_control_ops.md). -/

namespace Sys2Proof.Machine

/-- NOP (R180): the success indication and nothing else. -/
def execNop (s : State) : Host.Outcome State Fault Refusal := .next (complete s)

/-- CLR (R181): every register, flag and FT to the reset state of 10_state.md R58, DONE and HOSTERR
included; the element contents of the buffers are kept. -/
def execClr (s : State) : Host.Outcome State Fault Refusal :=
  .next { State.reset with
    node := s.node, ct := s.ct, sin := s.sin, sout := s.sout, pay := s.pay, img := s.img,
    input := s.input, resp := s.resp }

end Sys2Proof.Machine
end

