-- ==== Sys2Proof/Machine/HeaderCodec.lean ====
section
/-! DEFINITION. WRHDR and RDHDR, the header codec (43_header_codec.md). Byte strings are lists of bytes;
the scanner's position `p` is the list of bytes still to be read. -/

namespace Sys2Proof.Machine

/-! ## Encodings -/

/-- The escape letter of the seven symbols that are escaped (R140). -/
def escapeLetter (s : Sym) : Option Byte :=
  match s.toNat with
  | 0x0D => some 0x72#8
  | 0x09 => some 0x74#8
  | 0x0A => some 0x6E#8
  | 0x5C => some 0x5C#8
  | 0x27 => some 0x27#8
  | 0x22 => some 0x22#8
  | 0x00 => some 0x30#8
  | _ => none

/-- The symbol of an escape letter (R150). -/
def escapedSymbol (e : Byte) : Option Sym :=
  match e.toNat with
  | 0x72 => some 0x0D#21
  | 0x74 => some 0x09#21
  | 0x6E => some 0x0A#21
  | 0x5C => some 0x5C#21
  | 0x27 => some 0x27#21
  | 0x22 => some 0x22#21
  | 0x30 => some 0x00#21
  | _ => none

/-- A continuation byte `10xxxxxx` (R141). -/
def contByte (x : BitVec 6) : Byte := 0b10#2 ++ x

/-- `utf8(s)` (R141). -/
def utf8 (s : Sym) : List Byte :=
  if s.toNat < 0x80 then [0#1 ++ s.extractLsb' 0 7]
  else if s.toNat < 0x800 then [0b110#3 ++ s.extractLsb' 6 5, contByte (s.extractLsb' 0 6)]
  else if s.toNat < 0x10000 then
    [0b1110#4 ++ s.extractLsb' 12 4, contByte (s.extractLsb' 6 6), contByte (s.extractLsb' 0 6)]
  else
    [0b11110#5 ++ s.extractLsb' 18 3, contByte (s.extractLsb' 12 6), contByte (s.extractLsb' 6 6),
      contByte (s.extractLsb' 0 6)]

/-- `render(s)` (R140): an escape token, or the symbol's UTF-8 bytes. -/
def render (s : Sym) : List Byte :=
  match escapeLetter s with
  | some e => [0x5C#8, e]
  | none => utf8 s

/-- `dec(c)` (R142); the first argument bounds the number of digits, 20 suffice below 2^64. -/
def decDigits : Nat → Nat → List Byte
  | 0, _ => []
  | fuel + 1, n =>
    if n < 10 then [BitVec.ofNat 8 (0x30 + n)]
    else decDigits fuel (n / 10) ++ [BitVec.ofNat 8 (0x30 + n % 10)]

/-- `dec(c)` of a 64-bit count (R142). -/
def decCount (c : Count) : List Byte := decDigits 20 c.toNat

/-- One entry of the header text (R143): `'` symbol `'`, `: `, count. -/
def entryText (e : Sym × Count) : List Byte :=
  [0x27#8] ++ render e.1 ++ [0x27#8, 0x3A#8, 0x20#8] ++ decCount e.2

/-- The entries separated by comma and space (R143). -/
def entriesText : Table → List Byte
  | [] => []
  | [e] => entryText e
  | e :: f :: t => entryText e ++ [0x2C#8, 0x20#8] ++ entriesText (f :: t)

/-- `header(T, pad)` (R143), entries in ascending symbol order (R144), which is the table's own order. -/
def headerText (t : Table) (pad : BitVec 3) : List Byte :=
  [0x7B#8] ++ entriesText t ++ [0x7D#8, 0x3A#8, 0x3A#8, BitVec.ofNat 8 (0x30 + pad.toNat), 0x0A#8]

/-- `prefix(N)` (R145): 32 ASCII binary digits, the digit of 2^31 first. -/
def lengthText (n : Word) : List Byte :=
  (List.range 32).map (fun i => if n.getLsbD (31 - i) then 0x31#8 else 0x30#8)

/-! ## WRHDR -/

/-- The file image of R68 and R146: prefix, header, payload. -/
def imageText (t : Table) (pad : BitVec 3) (pay : List Byte) : List Byte :=
  lengthText (BitVec.ofNat 32 (headerText t pad).length) ++ headerText t pad ++ pay

/-- WRHDR (R146) on an instance `p`: `total = 32 + N + PAY_LEN`; Capacity if it exceeds MAX_IMG, and then IMG is
unspecified (log 5). -/
def wrhdrOn (p : Params) (s : State) : State :=
  if 32 + (headerText s.ft s.pad).length + s.payLen.toNat > p.maxImg.toNat then
    raise .capacity { s with imgLen := 0#32, hdrLen := 0#32, img := s.img.spoil }
  else
    complete { s with
      img := s.img.writeAll (imageText s.ft s.pad (payElems s))
      imgLen := BitVec.ofNat 32 (32 + (headerText s.ft s.pad).length + s.payLen.toNat)
      hdrLen := BitVec.ofNat 32 (headerText s.ft s.pad).length }

/-- WRHDR on the instance of Config. -/
def execWrhdr (s : State) : Host.Outcome State Fault Refusal := .next (wrhdrOn Config.params s)

/-! ## RDHDR: the scanner -/

/-- ParsePrefix (R148): InvalidHeader if a byte is neither `0` nor `1`; else the value, most significant
digit first. -/
def parseLength : Nat → List Byte → Except Failure Nat
  | acc, [] => .ok acc
  | acc, b :: bs =>
    if b = 0x30#8 then parseLength (2 * acc) bs
    else if b = 0x31#8 then parseLength (2 * acc + 1) bs
    else .error .invalidHeader

/-- `expect(b)` (R149). -/
def expect (b : Byte) : List Byte → Except Failure (List Byte)
  | [] => .error .invalidHeader
  | c :: h => if c = b then .ok h else .error .invalidHeader

/-- The payload bits of a continuation byte, if it is one. -/
def contBits (b : Byte) : Option (BitVec 6) :=
  if b.extractLsb' 6 2 = 0b10#2 then some (b.extractLsb' 0 6) else none

/-- `utf8dec` (R141): the symbol and the bytes after it; `none` where R141 says it fails. -/
def utf8dec : List Byte → Option (Sym × List Byte)
  | [] => none
  | b0 :: h =>
    if b0.toNat < 0x80 then some (0#13 ++ b0, h)
    else if b0.toNat < 0xC2 then none
    else if b0.toNat < 0xE0 then
      match h with
      | b1 :: h' =>
        match contBits b1 with
        | some x1 => some (0#10 ++ b0.extractLsb' 0 5 ++ x1, h')
        | none => none
      | _ => none
    else if b0.toNat < 0xF0 then
      match h with
      | b1 :: b2 :: h' =>
        match contBits b1, contBits b2 with
        | some x1, some x2 =>
          let s : Sym := 0#5 ++ b0.extractLsb' 0 4 ++ x1 ++ x2
          if s.toNat < 0x800 || !isScalar s.toNat then none else some (s, h')
        | _, _ => none
      | _ => none
    else if b0.toNat < 0xF5 then
      match h with
      | b1 :: b2 :: b3 :: h' =>
        match contBits b1, contBits b2, contBits b3 with
        | some x1, some x2, some x3 =>
          let s : Sym := b0.extractLsb' 0 3 ++ x1 ++ x2 ++ x3
          if s.toNat < 0x10000 || !isScalar s.toNat then none else some (s, h')
        | _, _, _ => none
      | _ => none
    else none

/-- The symbols R150 accepts only in escaped form, other than the backslash, which begins a token. -/
def mustEscape (s : Sym) : Bool :=
  s == 0x0D#21 || s == 0x09#21 || s == 0x0A#21 || s == 0x27#21 || s == 0x22#21 || s == 0x00#21

/-- ScanSymbol (R150). -/
def scanSymbol : List Byte → Except Failure (Sym × List Byte)
  | [] => .error .invalidHeader
  | b :: h =>
    if b = 0x5C#8 then
      match h with
      | [] => .error .invalidHeader
      | e :: h' =>
        match escapedSymbol e with
        | none => .error .invalidHeader
        | some s => .ok (s, h')
    else
      match utf8dec (b :: h) with
      | none => .error .invalidHeader
      | some (s, h') => if mustEscape s then .error .invalidHeader else .ok (s, h')

/-- The count field (R151): the bytes up to the next `,` or `}`, and the rest from there; `none` if
neither follows. -/
def splitField : List Byte → Option (List Byte × List Byte)
  | [] => none
  | b :: h =>
    if b = 0x2C#8 ∨ b = 0x7D#8 then some ([], b :: h)
    else
      match splitField h with
      | none => none
      | some (f, r) => some (b :: f, r)

/-- The decimal value of a digit string; `none` if a byte is no digit (R151). -/
def decimalValue : Nat → List Byte → Option Nat
  | acc, [] => some acc
  | acc, b :: bs =>
    if 0x30 ≤ b.toNat ∧ b.toNat ≤ 0x39 then decimalValue (10 * acc + (b.toNat - 0x30)) bs else none

/-- ScanCount (R151): InvalidHeader if the list is never closed, else InvalidHeaderValue unless the field
is a non-empty digit string of value below 2^64. -/
def scanCount (h : List Byte) : Except Failure (Count × List Byte) :=
  match splitField h with
  | none => .error .invalidHeader
  | some (f, r) =>
    if f = [] then .error .invalidHeaderValue
    else
      match decimalValue 0 f with
      | none => .error .invalidHeaderValue
      | some v => if v < 2 ^ 64 then .ok (BitVec.ofNat 64 v, r) else .error .invalidHeaderValue

/-- One entry: the body of the loop of R149 up to `T(s) <- c`, with the duplicate and capacity tests of
R152. -/
def scanEntry (maxSyms : Nat) (t : Table) (h : List Byte) : Except Failure (Table × List Byte) := do
  let h ← expect 0x27#8 h
  let (s, h) ← scanSymbol h
  let h ← expect 0x27#8 h
  let h ← expect 0x3A#8 h
  let h ← expect 0x20#8 h
  let (c, h) ← scanCount h
  if (tableGet t s).isSome then .error .invalidHeader
  else if t.length = maxSyms then .error .capacity
  else .ok (tableSet t s c, h)

/-- The loop of R149. Every pass consumes at least 7 bytes, so a bound of the text's length is never
reached (log 10). -/
def scanEntries (maxSyms : Nat) : Nat → Table → List Byte → Except Failure (Table × List Byte)
  | 0, _, _ => .error .invalidHeader
  | fuel + 1, t, h =>
    match scanEntry maxSyms t h with
    | .error f => .error f
    | .ok (t', h') =>
      match h' with
      | [] => .error .invalidHeader
      | b :: r =>
        if b = 0x7D#8 then .ok (t', r)
        else
          match expect 0x20#8 r with
          | .error f => .error f
          | .ok r' => scanEntries maxSyms fuel t' r'

/-- The list: `{`, then `}` at once or the entries (R149). -/
def scanList (maxSyms : Nat) (h : List Byte) : Except Failure (Table × List Byte) :=
  match expect 0x7B#8 h with
  | .error f => .error f
  | .ok [] => .error .invalidHeader
  | .ok (b :: r) => if b = 0x7D#8 then .ok ([], r) else scanEntries maxSyms (b :: r).length [] (b :: r)

/-- The padding segment (R153): `::`, one digit `0` .. `7`, LF, and the end of the header. -/
def scanTail (h : List Byte) : Except Failure (BitVec 3) := do
  let h ← expect 0x3A#8 h
  let h ← expect 0x3A#8 h
  match h with
  | [] => .error .invalidHeader
  | d :: h =>
    if d.toNat < 0x30 ∨ 0x37 < d.toNat then .error .invalidHeader
    else do
      let h ← expect 0x0A#8 h
      if h = [] then .ok (BitVec.ofNat 3 (d.toNat - 0x30)) else .error .invalidHeader

/-- ScanHeader (R149). -/
def scanHeader (maxSyms : Nat) (h : List Byte) : Except Failure (Table × BitVec 3) := do
  let (t, h) ← scanList maxSyms h
  let pad ← scanTail h
  .ok (t, pad)

/-- What RDHDR reads from the image. -/
structure Parsed where
  table  : Table
  pad    : BitVec 3
  pay    : List Byte
  hdrLen : Nat
  deriving DecidableEq, Repr

/-- Steps 1 to 5 of R147 on the image `IMG[0 .. IMG_LEN)`, in the order that is the failure priority. -/
def parseImage (maxSyms maxPay : Nat) (img : List Byte) : Except Failure Parsed :=
  if img.length < 32 then .error .ioFailure
  else
    match parseLength 0 (img.take 32) with
    | .error f => .error f
    | .ok n =>
      if img.length - 32 < n then .error .ioFailure
      else
        match scanHeader maxSyms ((img.drop 32).take n) with
        | .error f => .error f
        | .ok (t, pad) =>
          if img.length - 32 - n > maxPay then .error .capacity
          else .ok ⟨t, pad, img.drop (32 + n), n⟩

/-- The first lines of RDHDR (R147): FT emptied, the tree and the code table invalid, PAD, PAY_LEN and
HDR_LEN cleared. -/
def rdhdrStart (s : State) : State :=
  invalidateTree { s with ft := [], ftLen := 0#32, pad := 0#3, payLen := 0#32, hdrLen := 0#32 }

/-- RDHDR (R147) on an instance `p`: the steps, then the commit of step 6; on failure PAY is unspecified (R155,
log 5). -/
def rdhdrOn (p : Params) (s : State) : State :=
  match parseImage p.maxSyms.toNat p.maxPay.toNat (imgElems s) with
  | .error f => raise f { rdhdrStart s with pay := s.pay.spoil }
  | .ok r => complete { rdhdrStart s with
      ft := r.table
      ftLen := BitVec.ofNat 32 r.table.length
      pad := r.pad
      pay := s.pay.writeAll r.pay
      payLen := BitVec.ofNat 32 r.pay.length
      hdrLen := BitVec.ofNat 32 r.hdrLen }

/-- RDHDR on the instance of Config. -/
def execRdhdr (s : State) : Host.Outcome State Fault Refusal := .next (rdhdrOn Config.params s)

end Sys2Proof.Machine
end

