-- ==== Sys2Proof/Machine/Port.lean ====
section
/-! DEFINITION. The host's access primitives (20_memory.md R64, 10_state.md R31, R40 to R56), the start
of a command (R41), and reset (70_reset_and_hazards.md R220). `p` is the instance's parameters, which are
arguments of the model (00_scope.md R5, 10_state.md R59). -/

namespace Sys2Proof.Machine

/-! ## Reads: the value, or `none` where the access is refused -/

/-- The CSR block (R40): `none` for an unassigned number (R56). CMD is write-only and reads 0 (R41). -/
def csrValue (p : Params) (n : Nat) (s : State) : Option Word :=
  match n with
  | 0x00 => some 0#32
  | 0x01 => some (statusWord s)
  | 0x02 => some (s.err.number.setWidth 32)
  | 0x03 => some (s.errinfo.setWidth 32)
  | 0x04 => some (s.pad.setWidth 32)
  | 0x05 => some s.ftLen
  | 0x06 => some s.sinLen
  | 0x07 => some s.payLen
  | 0x08 => some s.imgLen
  | 0x09 => some s.soutLen
  | 0x0A => some s.hdrLen
  | 0x0B => some (s.nodeCnt.setWidth 32)
  | 0x0C => some (s.root.setWidth 32)
  | 0x0D => some s.ctLen
  | 0x10 => some p.maxSyms
  | 0x11 => some p.maxIn
  | 0x12 => some p.maxOut
  | 0x13 => some p.maxPay
  | 0x14 => some p.maxImg
  | _ => none

/-- HostRead (R64): NODE and CT while valid and below their counts, SOUT below SOUT_LEN, SIN, PAY and IMG
below their capacities. -/
def elemValue (p : Params) (sp : Space) (i : Nat) (s : State) : Option Response :=
  match sp with
  | .node =>
    if s.treeValid ∧ i < s.nodeCnt.toNat then some (.node (nodeAt s i).toBits) else none
  | .ct => if s.ctValid ∧ i < s.ctLen.toNat then some (.ct (ctAt s i)) else none
  | .sin => if i < p.maxIn.toNat then some (.sym (sinAt s i)) else none
  | .sout => if i < s.soutLen.toNat then some (.sym (soutAt s i)) else none
  | .pay => if i < p.maxPay.toNat then some (.byte (payAt s i)) else none
  | .img => if i < p.maxImg.toNat then some (.byte (imgAt s i)) else none

/-- The 0 a refused read of a space returns (R65); for CT a triple of zeros (log 14). -/
def zeroResponse : Space → Response
  | .node => .node 0#130
  | .ct => .ct ⟨0#21, 0, []⟩
  | .sin | .sout => .sym 0#21
  | .pay | .img => .byte 0#8

/-- FTGet (R31): presence and count; (0, 0) for a symbol without an entry, SCALAR or not. -/
def ftValue (n : Nat) (s : State) : Response :=
  if n < 2 ^ 21 then
    match tableGet s.ft (BitVec.ofNat 21 n) with
    | some c => .ft true c
    | none => .ft false 0#64
  else .ft false 0#64

/-- HostReadCSR: no side effect; the answer goes to the host. -/
def hostReadCsr (p : Params) (n : Nat) (s : State) : State :=
  match csrValue p n s with
  | some v => { s with resp := .csr v }
  | none => { refuseAccess s with resp := .csr 0#32 }

/-- HostRead of an element. -/
def hostRead (p : Params) (sp : Space) (i : Nat) (s : State) : State :=
  match elemValue p sp i s with
  | some r => { s with resp := r }
  | none => { refuseAccess s with resp := zeroResponse sp }

/-- FTGet: never refused. -/
def hostFtGet (n : Nat) (s : State) : State := { s with resp := ftValue n s }

/-! ## Writes -/

/-- HostWriteCSR of a register other than CMD (R64): PAD up to 7, the RW length registers up to their
capacity; everything else is refused. -/
def hostWriteReg (p : Params) (n : Nat) (v : Word) (s : State) : State :=
  match n with
  | 0x04 => if v.toNat ≤ 7 then { s with pad := v.setWidth 3 } else refuseAccess s
  | 0x06 => if v ≤ p.maxIn then { s with sinLen := v } else refuseAccess s
  | 0x07 => if v ≤ p.maxPay then { s with payLen := v } else refuseAccess s
  | 0x08 => if v ≤ p.maxImg then { s with imgLen := v } else refuseAccess s
  | _ => refuseAccess s

/-- HostWrite of an element (R64); NODE, CT and SOUT are read-only. No length register changes. -/
def hostWrite (p : Params) (sp : Space) (i v : Nat) (s : State) : State :=
  match sp with
  | .sin =>
    if i < p.maxIn.toNat ∧ v < 2 ^ 21 then { s with sin := s.sin.set i (BitVec.ofNat 21 v) }
    else refuseAccess s
  | .pay =>
    if i < p.maxPay.toNat ∧ v < 2 ^ 8 then { s with pay := s.pay.set i (BitVec.ofNat 8 v) }
    else refuseAccess s
  | .img =>
    if i < p.maxImg.toNat ∧ v < 2 ^ 8 then { s with img := s.img.set i (BitVec.ofNat 8 v) }
    else refuseAccess s
  | .node | .ct | .sout => refuseAccess s

/-- A changed table: `x[FT_LEN] <- |FT|` and InvalidateTree (R31). -/
def withTable (t : Table) (s : State) : State :=
  invalidateTree { s with ft := t, ftLen := BitVec.ofNat 32 t.length }

/-- FTSet (R31): refused for a symbol outside SCALAR, a count of 2^64 or more, or a new symbol when the
table is full. -/
def hostFtSet (p : Params) (n c : Nat) (s : State) : State :=
  if isScalar n ∧ c < 2 ^ 64 ∧
      ((tableGet s.ft (BitVec.ofNat 21 n)).isSome ∨ s.ft.length ≠ p.maxSyms.toNat) then
    withTable (tableSet s.ft (BitVec.ofNat 21 n) (BitVec.ofNat 64 c)) s
  else refuseAccess s

/-- FTDel (R31): an absent symbol changes nothing and is not refused. -/
def hostFtDel (n : Nat) (s : State) : State :=
  if n < 2 ^ 21 ∧ (tableGet s.ft (BitVec.ofNat 21 n)).isSome then
    withTable (tableDel s.ft (BitVec.ofNat 21 n)) s
  else s

/-! ## Commands and reset -/

/-- The commands of an instance `p`, of which `exec` is the instance of Config. NOP, BUILD, ASSIGN and CLR consult
no parameter. -/
def execOn (p : Params) (i : Instr) (s : State) : Host.Outcome State Fault Refusal :=
  match i with
  | .nop => execNop s
  | .build => execBuild s
  | .assign => execAssign s
  | .encode => .next (encodeOn p s)
  | .wrhdr => .next (wrhdrOn p s)
  | .rdhdr => .next (rdhdrOn p s)
  | .decode => .next (decodeOn p s)
  | .clr => execClr s

/-- A CMD write (R41): decode, then run the command to completion; an illegal word runs nothing and fails
with IllegalCommand (30_encoding.md R83). -/
def runCommand (p : Params) (w : Word) (s : State) : Host.Outcome State Fault Refusal :=
  match decodeWord w with
  | .ok i => execOn p i (startCommand s)
  | .error _ => .next (raise .illegalCommand (startCommand s))

/-- Reset (R220): the state of 10_state.md R58; every element of every buffer is unspecified anew (log 7). -/
def applyReset (s : State) : State :=
  { State.reset with
    node := s.node.spoil, ct := s.ct.spoil, sin := s.sin.spoil, sout := s.sout.spoil
    pay := s.pay.spoil, img := s.img.spoil, input := s.input }

/-- One event of the port, performed as one indivisible step (20_memory.md R66). -/
def perform (p : Params) (e : PortEvent) (s : State) : Host.Outcome State Fault Refusal :=
  match e with
  | .readCsr n => .next (hostReadCsr p n s)
  | .writeCsr n v => if n = 0 then runCommand p v s else .next (hostWriteReg p n v s)
  | .ftSet n c => .next (hostFtSet p n c s)
  | .ftDel n => .next (hostFtDel n s)
  | .ftGet n => .next (hostFtGet n s)
  | .read sp i => .next (hostRead p sp i s)
  | .write sp i v => .next (hostWrite p sp i v s)
  | .reset => .next (applyReset s)

/-- One step of an instance `p`: the event presented is taken from the input and performed; without one the
machine stays as it is (log 1). -/
def stepOn (p : Params) (s : State) : Host.Outcome State Fault Refusal :=
  match s.input with
  | none => .next s
  | some e => perform p e { s with input := none }

/-- A CMD write of the word is presented to the next step. -/
def issueWord (nbits w : Nat) (s : State) : State :=
  { s with input := some (.writeCsr 0 (BitVec.ofNat 32 (w % 2 ^ nbits))) }

end Sys2Proof.Machine
end

