-- ==== Sys2Proof/Machine/Step.lean ====
section
/-! DEFINITION. One step: a host access or a whole command (00_scope.md R12). -/

namespace Sys2Proof.Machine

/-- The engine performs the event at its port (R12, 20_memory.md R70), on the instance of Config. -/
def step (s : State) : Host.Outcome State Fault Refusal := stepOn Config.params s

/-- The command word is presented to CMD as the very next access: there is no program counter and no
instruction memory (10_state.md R22), so this is where the engine takes its next command from (log 16). -/
def State.withFetchWord (s : State) (nbits w : Nat) : State := issueWord nbits w s

end Sys2Proof.Machine
end

