-- ==== Sys2Proof/Machine/HostScript.lean ====
section
/-! DEFINITION. What a host issues: the directives and the two pseudo-instructions of 30_encoding.md R85 to
R87, as sequences of port events, and the host's frequency count (70_reset_and_hazards.md R226). -/

namespace Sys2Proof.Machine

/-- Element writes of a list of values at `i`, `i + 1`, … -/
def fillSpace (sp : Space) : Nat → List Nat → List PortEvent
  | _, [] => []
  | i, v :: vs => .write sp i v :: fillSpace sp (i + 1) vs

/-- The write of a number to a register, as the directives issue it (R87). DESIGN CHOICE, log 21: for a number of
2^32 or more, which fits no register (R40), R87 gives no write; here its low 32 bits are written. -/
def writeNumber (n v : Nat) : PortEvent := .writeCsr n (BitVec.ofNat 32 v)

/-- `.ft <sym> <count>` (R87). -/
def ftDirective (s c : Nat) : List PortEvent := [.ftSet s c]

/-- `.sin` of a list of symbols (R87); the number of symbols is written by `writeNumber` (log 21). -/
def sinDirective (vs : List Nat) : List PortEvent :=
  fillSpace .sin 0 vs ++ [writeNumber 0x06 vs.length]

/-- `.pay <hex bytes> pad=<p>` (R87); the number of bytes and `p` are written by `writeNumber` (log 21). -/
def payDirective (vs : List Nat) (p : Nat) : List PortEvent :=
  fillSpace .pay 0 vs ++ [writeNumber 0x07 vs.length, writeNumber 0x04 p]

/-- `.img <hex bytes>` (R87); the number of bytes is written by `writeNumber` (log 21). -/
def imgDirective (vs : List Nat) : List PortEvent :=
  fillSpace .img 0 vs ++ [writeNumber 0x08 vs.length]

/-- `.csr <name> <value>` (R87), the register given by its number. -/
def csrDirective (n : Nat) (v : Word) : List PortEvent := [.writeCsr n v]

/-- `.count` with the distinct symbols of SIN in the order given. -/
def countInOrder (syms : List Sym) (s : State) : List PortEvent :=
  syms.map (fun x => .ftSet x.toNat ((sinElems s).count x))

/-- `.count` (R87, R226): one FTSet for every distinct symbol of `SIN[0 .. SIN_LEN)`, with its number of
occurrences. DESIGN CHOICE, log 20: R87 and R226 give the FTSets no order; here they stand in the order of the
symbols' last occurrences in SIN (`List.dedup`). -/
def countDirective (s : State) : List PortEvent := countInOrder (sinElems s).dedup s

/-- `.expect` (R87): one host read; the value expected is the reader's to compare with `resp`. -/
def expectDirective (read : PortEvent) : List PortEvent := [read]

/-- A command line (R85): the mnemonic's word written to CMD. -/
def commandLine (i : Instr) : PortEvent := .writeCsr 0x00 (encodeWord i)

/-- `COMPRESS` (R86). -/
def compressCommands : List Instr := [.build, .assign, .encode, .wrhdr]

/-- `DECOMPRESS` (R86). -/
def decompressCommands : List Instr := [.rdhdr, .decode]

/-- Accesses performed one after the other. -/
def runEvents (p : Params) : List PortEvent → State → Host.Outcome State Fault Refusal
  | [], s => .next s
  | e :: es, s =>
    match perform p e s with
    | .next t => runEvents p es t
    | .fault r => .fault r
    | .refused r => .refused r

/-- Commands one after the other, "the host stopping at the first command that completes with ERROR = 1"
(R86). -/
def runUntilError (p : Params) : List Instr → State → Host.Outcome State Fault Refusal
  | [], s => .next s
  | i :: is, s =>
    match perform p (commandLine i) s with
    | .next t => if t.error then .next t else runUntilError p is t
    | .fault r => .fault r
    | .refused r => .refused r

end Sys2Proof.Machine
end

