-- ==== Sys2Proof/Safety.lean ====
section
/-! DEFINITION. What claims about the machine are stated in: the tree as a value (40_tree_builder.md
R103), the invariant of the state, and which host accesses the port accepts (20_memory.md R64). -/

namespace Sys2Proof.Machine

/-! ## The tree as a value -/

/-- The abstract tree of 00_scope.md R10. -/
inductive HTree where
  | leaf (sym : Sym) (weight : Weight)
  | node (weight : Weight) (left right : HTree)
  deriving DecidableEq, Repr

def HTree.weight : HTree → Weight
  | .leaf _ w => w
  | .node w _ _ => w

/-- The leaves from left to right. -/
def HTree.leaves : HTree → List (Sym × Weight)
  | .leaf s w => [(s, w)]
  | .node _ l r => l.leaves ++ r.leaves

/-- The path of every leaf from left to right, 0 to a left child and 1 to a right child, each behind the
bits `p` (41_code_assigner.md R121). -/
def HTree.paths : HTree → Bits → List (Sym × Bits)
  | .leaf s _, p => [(s, p)]
  | .node _ l r, p => l.paths (p ++ [false]) ++ r.paths (p ++ [true])

/-- Number of nodes. -/
def HTree.size : HTree → Nat
  | .leaf _ _ => 1
  | .node _ l r => l.size + r.size + 1

/-- `T(i)` of R103: the tree that stands at index `i` of a node store. -/
inductive TreeAt (node : Nat → TreeNode) : Nat → HTree → Prop
  | leaf {i : Nat} {s : Sym} {w : Weight} (h : node i = .leaf s w) : TreeAt node i (.leaf s w)
  | node {i : Nat} {w : Weight} {l r : NodeIdx} {tl tr : HTree} (h : node i = .internal w l r)
      (hl : TreeAt node l.toNat tl) (hr : TreeAt node r.toNat tr) : TreeAt node i (.node w tl tr)

/-! ## The invariant -/

/-- 10_state.md R42: BUSY reads 0, ERROR implies DONE, ERROR exactly if ERR is not 0, CT_VALID implies
TREE_VALID; R44: ERRINFO is 0 for every result code but UnknownSymbol. -/
def flagsOk (s : State) : Bool :=
  !s.busy && (!s.error || s.done) && (s.error == decide (s.err ≠ .success)) && (!s.ctValid || s.treeValid)
    && (decide (s.err = .unknownSymbol) || decide (s.errinfo = 0#21))

/-- R30, R32, R46: a canonical table of SCALAR symbols, at most MAX_SYMS entries, FT_LEN its size. -/
def tableFits (p : Params) (s : State) : Bool :=
  tableOk s.ft && decide (s.ft.length ≤ p.maxSyms.toNat)
    && decide (s.ftLen = BitVec.ofNat 32 s.ft.length)

/-- R47 to R50: no length register exceeds its capacity. -/
def lengthsFit (p : Params) (s : State) : Bool :=
  decide (s.sinLen ≤ p.maxIn) && decide (s.payLen ≤ p.maxPay)
    && decide (s.imgLen ≤ p.maxImg) && decide (s.soutLen ≤ p.maxOut)

/-- R52 to R54: NODE_CNT and ROOT are 0 whenever TREE_VALID = 0, CT_LEN whenever CT_VALID = 0. -/
def derivedCleared (s : State) : Bool :=
  (s.treeValid || (decide (s.nodeCnt = 0#22) && decide (s.root = 0#22))) && (s.ctValid || decide (s.ctLen = 0#32))

/-- Every element memory is in canonical form and lists indices below its capacity only (20_memory.md R60). -/
def memoriesOk (p : Params) (s : State) : Bool :=
  s.node.wf && s.ct.wf && s.sin.wf && s.sout.wf && s.pay.wf && s.img.wf
    && s.node.below (2 * p.maxSyms.toNat - 1) && s.ct.below p.maxSyms.toNat
    && s.sin.below p.maxIn.toNat && s.sout.below p.maxOut.toNat
    && s.pay.below p.maxPay.toNat && s.img.below p.maxImg.toNat

/-- 20_memory.md R72: NODE, NODE_CNT and ROOT are what BuildTree computes from the current FT. -/
def treeHeld (s : State) : Bool :=
  match buildTree s.ft with
  | .error _ => false
  | .ok nodes =>
    decide (s.nodeCnt.toNat = nodes.length) && decide (s.root.toNat = nodes.length - 1)
      && decide (nodeElems s = nodes)

/-- R72: CT and CT_LEN are what AssignCodes computes from the current tree. -/
def codesHeld (s : State) : Bool :=
  match assignCodes (nodeAt s) s.root.toNat s.nodeCnt.toNat with
  | .error _ => false
  | .ok es => decide (s.ctLen.toNat = es.length) && decide (ctElems s = es)

/-- The invariant of an instance `p`. -/
structure Inv (p : Params) (s : State) : Prop where
  params : p.wf = true
  flags : flagsOk s = true
  table : tableFits p s = true
  lengths : lengthsFit p s = true
  cleared : derivedCleared s = true
  memories : memoriesOk p s = true
  tree : s.treeValid = true → treeHeld s = true
  codes : s.ctValid = true → codesHeld s = true

/-! ## The host's accesses -/

/-- A register the host may write with this value (20_memory.md R64). -/
def csrAccepts (p : Params) (n : Nat) (v : Word) : Bool :=
  (n == 0x00) || (n == 0x04 && decide (v.toNat ≤ 7))
    || (n == 0x06 && decide (v.toNat ≤ p.maxIn.toNat))
    || (n == 0x07 && decide (v.toNat ≤ p.maxPay.toNat))
    || (n == 0x08 && decide (v.toNat ≤ p.maxImg.toNat))

/-- An assigned register number (10_state.md R40, R56). -/
def csrAssigned (n : Nat) : Bool := decide (n ≤ 0x0D) || (decide (0x10 ≤ n) && decide (n ≤ 0x14))

/-- An element the host may read (R64). -/
def readable (p : Params) (sp : Space) (i : Nat) (s : State) : Bool :=
  match sp with
  | .node => s.treeValid && decide (i < s.nodeCnt.toNat)
  | .ct => s.ctValid && decide (i < s.ctLen.toNat)
  | .sout => decide (i < s.soutLen.toNat)
  | .sin => decide (i < p.maxIn.toNat)
  | .pay => decide (i < p.maxPay.toNat)
  | .img => decide (i < p.maxImg.toNat)

/-- An element the host may write with this value (R64). -/
def writable (p : Params) (sp : Space) (i v : Nat) : Bool :=
  match sp with
  | .sin => decide (i < p.maxIn.toNat) && decide (v < 2 ^ 21)
  | .pay => decide (i < p.maxPay.toNat) && decide (v < 2 ^ 8)
  | .img => decide (i < p.maxImg.toNat) && decide (v < 2 ^ 8)
  | .node | .ct | .sout => false

/-- FTSet is accepted (10_state.md R31). -/
def ftAccepts (p : Params) (n c : Nat) (s : State) : Bool :=
  isScalar n && decide (c < 2 ^ 64)
    && ((tableGet s.ft (BitVec.ofNat 21 n)).isSome || decide (s.ft.length ≠ p.maxSyms.toNat))

/-- The access is valid in the sense of R64; FTDel, FTGet and reset always are. -/
def accepted (p : Params) (e : PortEvent) (s : State) : Bool :=
  match e with
  | .readCsr n => csrAssigned n
  | .writeCsr n v => csrAccepts p n v
  | .ftSet n c => ftAccepts p n c s
  | .ftDel _ | .ftGet _ | .reset => true
  | .read sp i => readable p sp i s
  | .write sp i v => writable p sp i v

/-- What the port returns for a refused access: 0 for a read, nothing for a write (R65). -/
def refusedResponse (e : PortEvent) (s : State) : Response :=
  match e with
  | .readCsr _ => .csr 0#32
  | .read sp _ => zeroResponse sp
  | .writeCsr _ _ | .ftSet _ _ | .ftDel _ | .ftGet _ | .write _ _ _ | .reset => s.resp

/-! ## Bit strings of an input -/

/-- The concatenation of the codes of an input, `B` of 42_bitpacker_encoder.md R131; a symbol without a
code contributes nothing. -/
def codeBits (ct : List CodeEntry) (ss : List Sym) : Bits :=
  ss.flatMap (fun s => (lookupCode ct s).getD [])

/-- Every symbol of an input has a code. -/
def allKnown (ct : List CodeEntry) (ss : List Sym) : Bool := ss.all (fun s => (lookupCode ct s).isSome)

/-! ## How a command ends, written out for the statements -/

/-- The effects of success (60_exceptions.md R202) on a state. -/
def succeeded (s : State) : State :=
  { s with done := true, error := false, err := .success, errinfo := 0#21, busy := false }

/-- The effects of a failure with result code `c` (R203) on a state; `x` is what ERRINFO receives. -/
def failed (c : ResultCode) (x : Sym) (s : State) : State :=
  { s with done := true, error := true, err := c, errinfo := x, busy := false }

/-- The result codes the table of R191 gives each command. -/
def resultCodes : Instr → List ResultCode
  | .nop | .clr => [.success]
  | .build => [.success, .emptyAlphabet]
  | .assign => [.success, .sequence, .degenerateAlphabet]
  | .encode => [.success, .sequence, .unknownSymbol, .capacity]
  | .wrhdr => [.success, .capacity]
  | .rdhdr => [.success, .ioFailure, .invalidHeader, .invalidHeaderValue, .capacity]
  | .decode => [.success, .emptyAlphabet, .degenerateAlphabet, .corruptPayload, .capacity]

/-- A host access that only reads. -/
def isRead : PortEvent → Bool
  | .readCsr _ | .ftGet _ | .read _ _ => true
  | .writeCsr _ _ | .ftSet _ _ | .ftDel _ | .write _ _ _ | .reset => false

/-! ## The order of merges (40_tree_builder.md R101, R102) -/

/-- The key of the node at index `i` in the node store of a table with `n` entries: weight, category, and
the symbol or the creation number. -/
def keyOf (n : Nat) (nodes : List TreeNode) (i : Nat) : Nat × Nat × Nat :=
  match nodes[i]? with
  | some (.leaf s w) => (w.toNat, 0, s.toNat)
  | some (.internal w _ _) => (w.toNat, 1, i - n)
  | none => (0, 0, 0)

/-- R101: lexicographic comparison of keys. -/
def keyBefore (a b : Nat × Nat × Nat) : Prop :=
  a.1 < b.1 ∨ (a.1 = b.1 ∧ (a.2.1 < b.2.1 ∨ (a.2.1 = b.2.1 ∧ a.2.2 < b.2.2)))

/-- The children of a node. -/
def childrenOf : TreeNode → List Nat
  | .leaf _ _ => []
  | .internal _ l r => [l.toNat, r.toNat]

/-- Index `i` is in PQ when the Internal of creation number `k` is made: it exists and is no child yet. -/
def pendingAt (n : Nat) (nodes : List TreeNode) (k i : Nat) : Prop :=
  i < n + k ∧ i ∉ (nodes.take (n + k)).flatMap childrenOf

/-! ## Codes -/

/-- The path of `x` branches off to the left of the path of `y`. -/
def leftOf : Bits → Bits → Bool
  | a :: x, b :: y => (!a && b) || (a == b && leftOf x y)
  | _, _ => false

/-- The designated bit range of 44_bitunpacker_decoder.md R173. -/
def designatedBits (s : State) : Bits :=
  (bytesBits (payElems s)).take (8 * s.payLen.toNat - s.pad.toNat)

/-! ## The header grammar (43_header_codec.md R149) -/

/-- An entry as the reader accepts it: the symbol and its count field. -/
abbrev LooseEntry := Sym × List Byte

/-- `'` symbol `'`, `: `, count field. -/
def looseEntryText (e : LooseEntry) : List Byte :=
  [0x27#8] ++ render e.1 ++ [0x27#8, 0x3A#8, 0x20#8] ++ e.2

/-- A header text with the entries in the order given. -/
def looseHeader (es : List LooseEntry) (pad : BitVec 3) : List Byte :=
  [0x7B#8] ++ List.intercalate [0x2C#8, 0x20#8] (es.map looseEntryText)
    ++ [0x7D#8, 0x3A#8, 0x3A#8, BitVec.ofNat 8 (0x30 + pad.toNat), 0x0A#8]

/-- The text up to the entry the scanner reads after those given: `{`, then each of them with comma and space. -/
def textBefore (es : List LooseEntry) : List Byte :=
  0x7B#8 :: es.flatMap (fun e => looseEntryText e ++ [0x2C#8, 0x20#8])

/-- A run of bytes with neither `,` nor `}`, as a count field is (R151). -/
def fieldBytes (f : List Byte) : Bool := f.all (fun x => x != 0x2C#8 && x != 0x7D#8)

/-- The value of a count field, its first digit most significant. -/
def fieldValue (f : List Byte) : Nat := Nat.ofDigits 10 (f.reverse.map (fun b => b.toNat - 0x30))

/-- A count field R151 accepts: one or more decimal digits of a value below 2^64. -/
def fieldOk (f : List Byte) : Bool :=
  !f.isEmpty && f.all (fun b => decide (0x30 ≤ b.toNat) && decide (b.toNat ≤ 0x39))
    && decide (fieldValue f < 2 ^ 64)

/-- Entries R149 to R152 accept: SCALAR symbols, no two alike, legal counts. -/
def entriesOk (es : List LooseEntry) : Bool :=
  es.all (fun e => isScalar e.1.toNat && fieldOk e.2) && decide (es.map Prod.fst).Nodup

/-- The table read from entries. -/
def entriesTable (es : List LooseEntry) : Table :=
  es.foldl (fun t e => tableSet t e.1 (BitVec.ofNat 64 (fieldValue e.2))) []

end Sys2Proof.Machine
end

