-- ==== Sys2Proof/Certificates/Slice0/Obligations.lean ====
section
/-! DEFINITION. The statements about the model. A result is written as the whole next state: every field that
is not named keeps its value. `p` and `q` are the parameters of any instances (00_scope.md R5, 10_state.md R59):
`execOn p`, `perform p` and `stepOn p` are an instance's commands, accesses and step. `exec` and `step` are those of
the instance Config.params. NOP, BUILD, ASSIGN and CLR are the same on every instance. -/

open Sys2Proof Sys2Proof.Machine

/-! ## Command words -/

/-- R82, R83, R89: a word is a command exactly if it is that command's one word, and illegal exactly if it has a
non-zero bit in 31:4 or an opcode in 0x8 .. 0xF. -/
def Obligations.DecodeIffEncode : Prop :=
  (∀ (w : Word) (i : Instr), decodeWord w = .ok i ↔ w = encodeWord i) ∧
  ∀ w : Word, (∃ e, decodeWord w = .error e) ↔ (w.extractLsb' 4 28 ≠ 0#28 ∨ 8 ≤ (w.extractLsb' 0 4).toNat)

/-- R82: the words of the table, and three illegal ones of vector V92. -/
def Obligations.WordsOfTheTable : Prop :=
  decodeWord 0x00000000#32 = .ok .nop ∧ decodeWord 0x00000001#32 = .ok .build ∧
  decodeWord 0x00000002#32 = .ok .assign ∧ decodeWord 0x00000003#32 = .ok .encode ∧
  decodeWord 0x00000004#32 = .ok .wrhdr ∧ decodeWord 0x00000005#32 = .ok .rdhdr ∧
  decodeWord 0x00000006#32 = .ok .decode ∧ decodeWord 0x00000007#32 = .ok .clr ∧
  decodeWord 0x00000008#32 = .error (.reservedOpcode 8#4) ∧
  decodeWord 0x00000011#32 = .error .nonzeroField ∧ decodeWord 0x80000001#32 = .error .nonzeroField

/-! ## The step -/

/-- A step on a CMD write runs the decoded command with BUSY set (R23, R41); the access has left the input (log 1).
The word placed by `withFetchWord` is what the very next step runs (log 16). `step` and `exec` are those of one
instance among all that the statements below speak of (R5, log 3). -/
def Obligations.StepRunsDecodedCommand : Prop :=
  (∀ (s : State) (w : Word) (i : Instr), s.input = some (.writeCsr 0x00 w) → decodeWord w = .ok i →
    step s = exec i { s with input := none, busy := true }) ∧
  (∀ (s : State) (i : Instr), step (s.withFetchWord 32 (encodeWord i).toNat) =
    exec i { s with input := none, busy := true }) ∧
  (∀ (s : State), step s = stepOn Config.params s) ∧ ∀ (i : Instr) (s : State), exec i s = execOn Config.params i s

/-- R199: an illegal word changes DONE, ERROR, ERR and ERRINFO and nothing else. BUSY, which reads 0 before,
reads 0 after. -/
def Obligations.IllegalCommandFails : Prop :=
  ∀ (p : Params) (s : State) (w : Word) (e : Illegal), decodeWord w = .error e →
    perform p (.writeCsr 0x00 w) s = .next (failed .illegalCommand 0#21 s)

/-- Every step answers a next state and leaves no input (log 1); with no event at the port nothing changes. -/
def Obligations.EveryStepAnswers : Prop :=
  ∀ (p : Params) (s : State), (∃ t, stepOn p s = .next t ∧ t.input = none) ∧
    (∃ t, step s = .next t ∧ t.input = none) ∧ (s.input = none → stepOn p s = .next s ∧ step s = .next s)

/-- R202, R203, R190: every command ends with BUSY clear in one of two ways; CLR ends with STATUS = 0. -/
def Obligations.OneResultPerCommand : Prop :=
  ∀ (p : Params) (i : Instr) (s : State), ∃ t, execOn p i s = .next t ∧
    (p = Config.params → exec i s = .next t) ∧
    (i = .clr ∧ statusWord t = 0#32 ∧ t.err = .success ∧ t.errinfo = 0#21 ∨
     i ≠ .clr ∧ t = succeeded t ∨
     i ≠ .clr ∧ ∃ f : Failure, f.code ≠ .success ∧ t = failed f.code f.info t)

/-- R191: the numbers of the result codes, and which command can report which. -/
def Obligations.ResultCodesOfEachCommand : Prop :=
  ((∀ c : ResultCode, c.number.toNat ≤ 10) ∧
   ResultCode.success.number = 0#4 ∧ ResultCode.emptyAlphabet.number = 1#4 ∧
   ResultCode.degenerateAlphabet.number = 2#4 ∧ ResultCode.unknownSymbol.number = 3#4 ∧
   ResultCode.invalidHeader.number = 4#4 ∧ ResultCode.invalidHeaderValue.number = 5#4 ∧
   ResultCode.ioFailure.number = 6#4 ∧ ResultCode.corruptPayload.number = 7#4 ∧
   ResultCode.illegalCommand.number = 8#4 ∧ ResultCode.sequence.number = 9#4 ∧
   ResultCode.capacity.number = 10#4) ∧
  ∀ (p : Params) (i : Instr) (s t : State), execOn p i s = .next t → t.err ∈ resultCodes i

/-- R205: a failed command leaves its inputs as they were. -/
def Obligations.FailedCommandKeepsInputs : Prop :=
  ∀ (p : Params) (i : Instr) (s t : State), execOn p i s = .next t → t.error = true →
    match i with
    | .nop | .clr => False
    | .build => t.ft = s.ft
    | .assign => t.node = s.node ∧ t.nodeCnt = s.nodeCnt ∧ t.root = s.root ∧ t.treeValid = s.treeValid
    | .encode => t.sin = s.sin ∧ t.sinLen = s.sinLen ∧ t.ct = s.ct ∧ t.ctLen = s.ctLen ∧ t.ctValid = s.ctValid
    | .wrhdr => t.ft = s.ft ∧ t.pad = s.pad ∧ t.pay = s.pay ∧ t.payLen = s.payLen
    | .rdhdr => t.img = s.img ∧ t.imgLen = s.imgLen
    | .decode => t.ft = s.ft ∧ t.pay = s.pay ∧ t.payLen = s.payLen ∧ t.pad = s.pad

/-- R69: what each command does not write, whether it succeeds or fails. -/
def Obligations.CommandFrames : Prop :=
  ∀ (p : Params) (i : Instr) (s t : State), execOn p i s = .next t →
    t.input = s.input ∧ t.resp = s.resp ∧ t.sin = s.sin ∧
    (i ≠ .clr → t.hosterr = s.hosterr ∧ t.sinLen = s.sinLen) ∧
    (i ≠ .rdhdr → i ≠ .clr → t.ft = s.ft ∧ t.ftLen = s.ftLen) ∧
    (i ≠ .build → i ≠ .decode → t.node = s.node) ∧
    (i = .nop ∨ i = .assign ∨ i = .encode ∨ i = .wrhdr →
      t.treeValid = s.treeValid ∧ t.nodeCnt = s.nodeCnt ∧ t.root = s.root) ∧
    (i ≠ .assign → t.ct = s.ct) ∧
    (i = .nop ∨ i = .encode ∨ i = .wrhdr → t.ctValid = s.ctValid ∧ t.ctLen = s.ctLen) ∧
    (i ≠ .encode → i ≠ .rdhdr → t.pay = s.pay) ∧
    (i ≠ .encode → i ≠ .rdhdr → i ≠ .clr → t.payLen = s.payLen ∧ t.pad = s.pad) ∧
    (i ≠ .wrhdr → t.img = s.img) ∧ (i ≠ .wrhdr → i ≠ .clr → t.imgLen = s.imgLen) ∧
    (i ≠ .wrhdr → i ≠ .rdhdr → i ≠ .clr → t.hdrLen = s.hdrLen) ∧
    (i ≠ .decode → t.sout = s.sout) ∧ (i ≠ .decode → i ≠ .clr → t.soutLen = s.soutLen)

/-! ## Reset and the invariant -/

/-- R58: the reset state; its memories list no element, so each is a free value (log 4). The parameter registers
read the constants of whichever instance it is (R55). -/
def Obligations.ResetState : Prop :=
  let s := State.reset
  statusWord s = 0#32 ∧ s.err = .success ∧ s.errinfo = 0#21 ∧ s.pad = 0#3 ∧ s.ft = [] ∧ s.ftLen = 0#32 ∧
  s.sinLen = 0#32 ∧ s.payLen = 0#32 ∧ s.imgLen = 0#32 ∧ s.soutLen = 0#32 ∧ s.hdrLen = 0#32 ∧
  s.nodeCnt = 0#22 ∧ s.root = 0#22 ∧ s.ctLen = 0#32 ∧
  (∀ p : Params, csrValue p 0x10 s = some p.maxSyms ∧ csrValue p 0x11 s = some p.maxIn ∧
    csrValue p 0x12 s = some p.maxOut ∧ csrValue p 0x13 s = some p.maxPay ∧ csrValue p 0x14 s = some p.maxImg) ∧
  ∀ i, s.node.peek i = none ∧ s.ct.peek i = none ∧ s.sin.peek i = none ∧ s.sout.peek i = none ∧
    s.pay.peek i = none ∧ s.img.peek i = none ∧
    ∀ p : Params, readable p .node i s = false ∧ readable p .ct i s = false ∧ readable p .sout i s = false

/-- R220: a reset at any time leaves the reset state, and every element is drawn anew. What is presented to the
step after it is no part of it (log 7). -/
def Obligations.ResetAtAnyTime : Prop :=
  ∀ (p : Params) (s : State), ∃ t, perform p .reset s = .next t ∧
    t = { State.reset with
        node := t.node, ct := t.ct, sin := t.sin, sout := t.sout, pay := t.pay, img := t.img,
        input := s.input } ∧
    ∀ i, t.node.peek i = none ∧ t.ct.peek i = none ∧ t.sin.peek i = none ∧ t.sout.peek i = none ∧
      t.pay.peek i = none ∧ t.img.peek i = none

/-- The invariant holds after reset, of every legal instance (R5); the instance `step` runs is legal (log 3). -/
def Obligations.InvAtReset : Prop :=
  (∀ p : Params, p.wf = true → Inv p State.reset) ∧ Config.params.wf = true

/-- Every step keeps the invariant: the flags of R42, the lengths and the table within their capacities, the
memories canonical, and a valid tree and code table exactly what the current table gives (R72). -/
def Obligations.InvKeptByEveryStep : Prop :=
  (∀ (p : Params) (s t : State), Inv p s → stepOn p s = .next t → Inv p t) ∧
  ∀ s t : State, Inv Config.params s → step s = .next t → Inv Config.params t

/-! ## The port -/

/-- R40 to R55: what a read of each assigned register returns (in `resp`, log 2); nothing else changes. R42: the
bits of STATUS. -/
def Obligations.RegisterReads : Prop :=
  (∀ s : State, (statusWord s).getLsbD 0 = s.done ∧ (statusWord s).getLsbD 1 = s.error ∧
    (statusWord s).getLsbD 2 = s.treeValid ∧ (statusWord s).getLsbD 3 = s.ctValid ∧
    (statusWord s).getLsbD 4 = s.busy ∧ (statusWord s).getLsbD 5 = s.hosterr ∧
    ∀ i, 6 ≤ i → (statusWord s).getLsbD i = false) ∧
  ∀ (p : Params) (s : State) (n : Nat) (v : Word),
    (n, v) ∈ [(0x00, 0#32), (0x01, statusWord s), (0x02, 0#28 ++ s.err.number), (0x03, 0#11 ++ s.errinfo),
      (0x04, 0#29 ++ s.pad), (0x05, s.ftLen), (0x06, s.sinLen), (0x07, s.payLen), (0x08, s.imgLen),
      (0x09, s.soutLen), (0x0A, s.hdrLen), (0x0B, 0#10 ++ s.nodeCnt), (0x0C, 0#10 ++ s.root),
      (0x0D, s.ctLen), (0x10, p.maxSyms), (0x11, p.maxIn), (0x12, p.maxOut),
      (0x13, p.maxPay), (0x14, p.maxImg)] →
    perform p (.readCsr n) s = .next { s with resp := .csr v }

/-- R45, R47 to R49: the four registers the host may write, each up to its bound; beyond it the write is
refused and the register keeps its value. -/
def Obligations.RegisterWrites : Prop :=
  ∀ (p : Params) (s : State) (v : Word),
    perform p (.writeCsr 0x04 v) s = (if v.toNat ≤ 7 then .next { s with pad := BitVec.ofNat 3 v.toNat }
      else .next { s with hosterr := true }) ∧
    perform p (.writeCsr 0x06 v) s = (if v.toNat ≤ p.maxIn.toNat then .next { s with sinLen := v }
      else .next { s with hosterr := true }) ∧
    perform p (.writeCsr 0x07 v) s = (if v.toNat ≤ p.maxPay.toNat then .next { s with payLen := v }
      else .next { s with hosterr := true }) ∧
    perform p (.writeCsr 0x08 v) s = (if v.toNat ≤ p.maxImg.toNat then .next { s with imgLen := v }
      else .next { s with hosterr := true })

/-- R56: an unassigned register reads 0 (in `resp`, log 2) and is refused, a write is refused; R40: so is a
write of a read-only register. -/
def Obligations.UnassignedAndReadOnlyRegisters : Prop :=
  ∀ (p : Params) (s : State) (n : Nat) (v : Word),
    ((n = 0x0E ∨ n = 0x0F ∨ 0x15 ≤ n) →
      perform p (.readCsr n) s = .next { s with hosterr := true, resp := .csr 0#32 }) ∧
    ((n = 0x0E ∨ n = 0x0F ∨ 0x15 ≤ n ∨ n = 0x01 ∨ n = 0x02 ∨ n = 0x03 ∨ n = 0x05 ∨ (0x09 ≤ n ∧ n ≤ 0x0D) ∨
        (0x10 ≤ n ∧ n ≤ 0x14)) →
      perform p (.writeCsr n v) s = .next { s with hosterr := true })

/-- R65: an access that R64 does not allow sets HOSTERR and changes nothing else; a refused read returns 0 (in
`resp`, log 2; what 0 is for an element of NODE or CT is log 14). -/
def Obligations.RefusedAccessSetsOnlyHosterr : Prop :=
  ∀ (p : Params) (e : PortEvent) (s : State), accepted p e s = false →
    perform p e s = .next { s with hosterr := true, resp := refusedResponse e s }

/-- R65, R23: HOSTERR is set by a refused access, cleared by CLR and reset, and touched by nothing else. -/
def Obligations.HosterrSticksUntilClrOrReset : Prop :=
  ∀ (p : Params) (e : PortEvent) (s t : State), perform p e s = .next t →
    t.hosterr = if e = .reset ∨ e = .writeCsr 0x00 (encodeWord .clr) then false
      else s.hosterr || !accepted p e s

/-- R67: a read changes nothing but the answer returned (and HOSTERR, if refused), and repeated it returns the
same value. -/
def Obligations.ReadsHaveNoSideEffect : Prop :=
  ∀ (p : Params) (e : PortEvent) (s t : State), isRead e = true → perform p e s = .next t →
    t = { s with hosterr := t.hosterr, resp := t.resp } ∧ (accepted p e s = true → t.hosterr = s.hosterr) ∧
    perform p e t = .next t

/-- R64: what an accepted read of an element returns (in `resp`, log 2). R33: the 130 bits of a node. -/
def Obligations.ElementReads : Prop :=
  (∀ (x : Sym) (w : Weight), let v := (TreeNode.leaf x w).toBits
    v.getLsbD 129 = false ∧ v.extractLsb' 44 85 = w ∧ v.extractLsb' 21 23 = 0#23 ∧ v.extractLsb' 0 21 = x) ∧
  (∀ (w : Weight) (l r : NodeIdx), let v := (TreeNode.internal w l r).toBits
    v.getLsbD 129 = true ∧ v.extractLsb' 44 85 = w ∧ v.extractLsb' 22 22 = l ∧ v.extractLsb' 0 22 = r) ∧
  ∀ (p : Params) (s : State) (i : Nat),
    (s.treeValid = true → i < s.nodeCnt.toNat →
      perform p (.read .node i) s = .next { s with resp := .node (nodeAt s i).toBits }) ∧
    (s.ctValid = true → i < s.ctLen.toNat → perform p (.read .ct i) s = .next { s with resp := .ct (ctAt s i) }) ∧
    (i < s.soutLen.toNat → perform p (.read .sout i) s = .next { s with resp := .sym (soutAt s i) }) ∧
    (i < p.maxIn.toNat → perform p (.read .sin i) s = .next { s with resp := .sym (sinAt s i) }) ∧
    (i < p.maxPay.toNat → perform p (.read .pay i) s = .next { s with resp := .byte (payAt s i) }) ∧
    (i < p.maxImg.toNat → perform p (.read .img i) s = .next { s with resp := .byte (imgAt s i) })

/-- R64: an accepted write of an element: that element reads as the value written, every other as before, and
no other field changes. -/
def Obligations.ElementWrites : Prop :=
  ∀ (p : Params) (s : State) (i v : Nat), memoriesOk p s = true →
    (i < p.maxIn.toNat → v < 2 ^ 21 → ∃ t, perform p (.write .sin i v) s = .next t ∧
      t = { s with sin := t.sin } ∧ ∀ j, (sinAt t j) = if j = i then BitVec.ofNat 21 v else sinAt s j) ∧
    (i < p.maxPay.toNat → v < 2 ^ 8 → ∃ t, perform p (.write .pay i v) s = .next t ∧
      t = { s with pay := t.pay } ∧ ∀ j, (payAt t j) = if j = i then BitVec.ofNat 8 v else payAt s j) ∧
    (i < p.maxImg.toNat → v < 2 ^ 8 → ∃ t, perform p (.write .img i v) s = .next t ∧
      t = { s with img := t.img } ∧ ∀ j, (imgAt t j) = if j = i then BitVec.ofNat 8 v else imgAt s j)

/-- R31: FTSet, FTDel and FTGet, each with the accesses it refuses; the answer of FTGet stands in `resp` (log 2). -/
def Obligations.TablePrimitives : Prop :=
  ∀ (p : Params) (s : State) (n c : Nat), tableOk s.ft = true →
    (if isScalar n = true ∧ c < 2 ^ 64 ∧
        ((tableGet s.ft (BitVec.ofNat 21 n)).isSome = true ∨ s.ft.length ≠ p.maxSyms.toNat) then
      ∃ t, perform p (.ftSet n c) s = .next t ∧
        t = { s with
            ft := t.ft, ftLen := BitVec.ofNat 32 t.ft.length, treeValid := false, nodeCnt := 0#22,
            root := 0#22, ctValid := false, ctLen := 0#32 } ∧
        tableOk t.ft = true ∧ ∀ k, tableGet t.ft k =
          if k = BitVec.ofNat 21 n then some (BitVec.ofNat 64 c) else tableGet s.ft k
    else perform p (.ftSet n c) s = .next { s with hosterr := true }) ∧
    (if n < 2 ^ 21 ∧ (tableGet s.ft (BitVec.ofNat 21 n)).isSome = true then
      ∃ t, perform p (.ftDel n) s = .next t ∧
        t = { s with
            ft := t.ft, ftLen := BitVec.ofNat 32 t.ft.length, treeValid := false, nodeCnt := 0#22,
            root := 0#22, ctValid := false, ctLen := 0#32 } ∧
        tableOk t.ft = true ∧ ∀ k, tableGet t.ft k = if k = BitVec.ofNat 21 n then none else tableGet s.ft k
    else perform p (.ftDel n) s = .next s) ∧
    perform p (.ftGet n) s = .next { s with
        resp := match (if n < 2 ^ 21 then tableGet s.ft (BitVec.ofNat 21 n) else none) with
          | some k => .ft true k
          | none => .ft false 0#64 }

/-- R225: what makes the derived state invalid, and that ASSIGN and ENCODE then report Sequence. An access that
leaves FT alone and is no FTSet does not invalidate (log 18). -/
def Obligations.StaleDerivedStateIsRefused : Prop :=
  ∀ (p : Params) (e : PortEvent) (s t : State), perform p e s = .next t →
    (t.ft ≠ s.ft ∨ (∃ n c, e = .ftSet n c) ∧ accepted p e s = true ∨ e = .writeCsr 0x00 (encodeWord .rdhdr) ∨
        e = .writeCsr 0x00 (encodeWord .clr) →
      t.treeValid = false ∧ t.nodeCnt = 0#22 ∧ t.root = 0#22 ∧
      ∃ u, exec .assign t = .next u ∧ u.error = true ∧ u.err = .sequence ∧ u.ctValid = false) ∧
    (t.ft ≠ s.ft ∨ (∃ n c, e = .ftSet n c) ∧ accepted p e s = true ∨ e = .writeCsr 0x00 (encodeWord .rdhdr) ∨
        e = .writeCsr 0x00 (encodeWord .clr) ∨ e = .writeCsr 0x00 (encodeWord .build) ∨
        e = .writeCsr 0x00 (encodeWord .decode) →
      t.ctValid = false ∧ t.ctLen = 0#32 ∧
      ∃ u, execOn p .encode t = .next u ∧ u.error = true ∧ u.err = .sequence ∧ u.payLen = 0#32 ∧ u.pad = 0#3)

/-! ## NOP and CLR -/

/-- R180. -/
def Obligations.NopOnlyReportsSuccess : Prop :=
  ∀ s : State, exec .nop s = .next { s with
      done := true, error := false, err := .success, errinfo := 0#21, busy := false }

/-- R181: everything to the reset state but the elements. -/
def Obligations.ClrKeepsOnlyElements : Prop :=
  ∀ s : State, ∃ t, exec .clr s = .next t ∧
    t = { s with
        done := false, error := false, treeValid := false, ctValid := false, busy := false,
        hosterr := false, err := .success, errinfo := 0#21, pad := 0#3, ft := [], ftLen := 0#32,
        sinLen := 0#32, payLen := 0#32, imgLen := 0#32, soutLen := 0#32, hdrLen := 0#32, nodeCnt := 0#22,
        root := 0#22, ctLen := 0#32 } ∧
    statusWord t = 0#32 ∧
    ∀ (p : Params) (i : Nat),
      readable p .node i t = false ∧ readable p .ct i t = false ∧ readable p .sout i t = false

/-! ## BUILD -/

/-- R108: BUILD of a non-empty table. -/
def Obligations.BuildCompletes : Prop :=
  ∀ (p : Params) (s : State), Inv p s → s.ft ≠ [] → ∃ t nodes, exec .build s = .next t ∧ buildTree s.ft = .ok nodes ∧
    t = succeeded { s with
        node := t.node, nodeCnt := t.nodeCnt, root := t.root, treeValid := true, ctValid := false,
        ctLen := 0#32 } ∧
    t.nodeCnt.toNat = 2 * s.ft.length - 1 ∧ t.root.toNat = 2 * s.ft.length - 2 ∧
    nodeElems t = nodes ∧ ∀ i, 2 * s.ft.length - 1 ≤ i → nodeAt t i = nodeAt s i

/-- R105: BUILD fails exactly on an empty table, with EmptyAlphabet. NODE is then drawn anew (log 5). -/
def Obligations.BuildFailsOnlyOnEmptyTable : Prop :=
  ∀ s t : State, exec .build s = .next t →
    (t.error = true ↔ s.ft = []) ∧
    (s.ft = [] → t = failed .emptyAlphabet 0#21 { s with
        node := t.node, treeValid := false, nodeCnt := 0#22, root := 0#22, ctValid := false, ctLen := 0#32 })

/-- R104: a table with one entry gives one Leaf, and BUILD succeeds. -/
def Obligations.BuildOfOneEntry : Prop :=
  ∀ (s : State) (x : Sym) (c : Count), s.ft = [(x, c)] → ∃ t, exec .build s = .next t ∧
    t.error = false ∧ t.treeValid = true ∧ t.nodeCnt = 1#22 ∧ t.root = 0#22 ∧
    nodeAt t 0 = .leaf x (c.setWidth 85)

/-- R101 to R103: leaves first, in ascending symbol order; the Internal of creation number `k` at `n + k`, its
left child the index of smallest key among those not yet merged, its right child the smallest of the rest, its
weight their sum. -/
def Obligations.BuildMergesTheTwoSmallest : Prop :=
  ∀ (p : Params) (s t : State), Inv p s → exec .build s = .next t → t.error = false →
    let n := s.ft.length
    let nodes := nodeElems t
    nodes.length = 2 * n - 1 ∧ tableSorted s.ft = true ∧
    (∀ i (h : i < n), nodes[i]? = some (.leaf (s.ft[i]).1 ((s.ft[i]).2.setWidth 85))) ∧
    ∀ k, k + 1 < n → ∃ w l r, nodes[n + k]? = some (.internal w l r) ∧
      w.toNat = (keyOf n nodes l.toNat).1 + (keyOf n nodes r.toNat).1 ∧
      pendingAt n nodes k l.toNat ∧ pendingAt n nodes k r.toNat ∧ l ≠ r ∧
      (∀ i, pendingAt n nodes k i → i ≠ l.toNat → keyBefore (keyOf n nodes l.toNat) (keyOf n nodes i)) ∧
      (∀ i, pendingAt n nodes k i → i ≠ l.toNat → i ≠ r.toNat →
        keyBefore (keyOf n nodes r.toNat) (keyOf n nodes i))

/-- R109(a), (b), (d), R107: the tree at ROOT has the table's entries as its leaves, every Internal weighs the
exact sum of its children, and the root the exact sum of all counts. -/
def Obligations.BuiltTreeWeighsItsTable : Prop :=
  ∀ (p : Params) (s : State), Inv p s → s.treeValid = true →
    (∃ tr, TreeAt (nodeAt s) s.root.toNat tr ∧ tr.size = s.nodeCnt.toNat ∧
      tr.leaves.Perm (s.ft.map (fun e => (e.1, e.2.setWidth 85)))) ∧
    (∀ i w l r, i < s.nodeCnt.toNat → nodeAt s i = .internal w l r →
      w.toNat = (nodeAt s l.toNat).weight.toNat + (nodeAt s r.toNat).weight.toNat) ∧
    (nodeAt s s.root.toNat).weight.toNat = (s.ft.map (fun e => e.2.toNat)).sum

/-- R33: every index below NODE_CNT except ROOT is the child of exactly one Internal, once; children stand below
their parent, so no element refers to itself or to an ancestor. -/
def Obligations.TreeOwnershipIsStrict : Prop :=
  ∀ (p : Params) (s : State), Inv p s → s.treeValid = true →
    s.root.toNat + 1 = s.nodeCnt.toNat ∧
    ((nodeElems s).flatMap childrenOf).Perm (List.range s.root.toNat) ∧
    ∀ i, i < s.nodeCnt.toNat → ∀ c ∈ childrenOf (nodeAt s i), c < i

/-- R109(c), R223: the tree depends on the table as a map only, on whichever instance it is built. -/
def Obligations.TreeIsDeterminedByTheTable : Prop :=
  ∀ (p q : Params) (s t s' t' : State), Inv p s → Inv q t → (∀ x, tableGet s.ft x = tableGet t.ft x) →
    exec .build s = .next s' → exec .build t = .next t' →
    nodeElems s' = nodeElems t' ∧ s'.nodeCnt = t'.nodeCnt ∧ s'.root = t'.root ∧ s'.err = t'.err

/-! ## ASSIGN -/

/-- R120, R121, R123: ASSIGN on a valid tree with at least two leaves records every leaf with its path. -/
def Obligations.AssignCompletes : Prop :=
  ∀ (p : Params) (s : State), Inv p s → s.treeValid = true → 2 ≤ s.ft.length → ∃ t tr, exec .assign s = .next t ∧
    t = succeeded { s with ct := t.ct, ctLen := t.ctLen, ctValid := true } ∧
    t.ctLen.toNat = s.ft.length ∧ TreeAt (nodeAt s) s.root.toNat tr ∧
    ((ctElems t).map (fun e => (e.sym, e.code))).Perm (tr.paths []) ∧
    (∀ e ∈ ctElems t, e.len = e.code.length) ∧ ∀ i, s.ft.length ≤ i → ctAt t i = ctAt s i

/-- R120, R122, R123: when ASSIGN fails, with which error, and what it leaves. CT is then drawn anew (log 5). -/
def Obligations.AssignFails : Prop :=
  ∀ s : State,
    (s.treeValid = false → ∃ t, exec .assign s = .next t ∧
      t = failed .sequence 0#21 { s with ct := t.ct, ctValid := false, ctLen := 0#32 }) ∧
    (s.treeValid = true → (nodeAt s s.root.toNat).isLeaf = true → ∃ t, exec .assign s = .next t ∧
      t = failed .degenerateAlphabet 0#21 { s with ct := t.ct, ctValid := false, ctLen := 0#32 })

/-- R121: leaves are recorded in order of increasing depth and, within one depth, left to right. -/
def Obligations.AssignIsBreadthFirst : Prop :=
  ∀ (p : Params) (s t : State), Inv p s → exec .assign s = .next t → t.error = false →
    (ctElems t).Pairwise (fun a b => a.len < b.len ∨ (a.len = b.len ∧ leftOf a.code b.code = true))

/-- R124: a valid code table is prefix-free, has one non-empty code of at most n − 1 bits per entry of the
table, and is complete; its lengths are the depths of the leaves. -/
def Obligations.CodesArePrefixFree : Prop :=
  ∀ (p : Params) (s : State), Inv p s → s.ctValid = true →
    (ctElems s).Pairwise (fun a b => ¬ a.code <+: b.code ∧ ¬ b.code <+: a.code) ∧
    (∀ e ∈ ctElems s, e.code ≠ [] ∧ e.len = e.code.length ∧ e.len ≤ s.ft.length - 1) ∧
    ((ctElems s).map CodeEntry.sym).Perm (s.ft.map Prod.fst) ∧ ((ctElems s).map CodeEntry.sym).Nodup ∧
    ((ctElems s).map (fun e => (1 / 2 : Rat) ^ e.len)).sum = 1 ∧
    ∃ tr, TreeAt (nodeAt s) s.root.toNat tr ∧
      ((ctElems s).map CodeEntry.len).Perm ((tr.paths []).map (fun e => e.2.length))

/-! ## ENCODE -/

/-- R131, R132, R136: the closed form of the payload, when every symbol is known and it fits. -/
def Obligations.EncodeCompletes : Prop :=
  ∀ (p : Params) (s : State), s.ctValid = true → allKnown (ctElems s) (sinElems s) = true →
    let bits := codeBits (ctElems s) (sinElems s)
    (bits.length + 7) / 8 ≤ p.maxPay.toNat →
    ∃ t, execOn p .encode s = .next t ∧ (p = Config.params → exec .encode s = .next t) ∧
      t = succeeded { s with pay := t.pay, payLen := t.payLen, pad := t.pad } ∧
      t.pad.toNat = (8 - bits.length % 8) % 8 ∧ t.payLen.toNat = (bits.length + t.pad.toNat) / 8 ∧
      bytesBits (payElems t) = bits ++ List.replicate t.pad.toNat false ∧
      ∀ i, t.payLen.toNat ≤ i → payAt t i = payAt s i

/-- R133 to R136, R130: when ENCODE fails and with which error. PAY is then drawn anew (log 5). -/
def Obligations.EncodeFails : Prop :=
  ∀ (p : Params) (s : State),
    (s.ctValid = false → ∃ t, execOn p .encode s = .next t ∧ (p = Config.params → exec .encode s = .next t) ∧
      t = failed .sequence 0#21 { s with pay := t.pay, payLen := 0#32, pad := 0#3 }) ∧
    (s.ctValid = true → ∀ (ss rest : List Sym) (u : Sym), sinElems s = ss ++ u :: rest →
      allKnown (ctElems s) ss = true → lookupCode (ctElems s) u = none →
        ∃ t, execOn p .encode s = .next t ∧ (p = Config.params → exec .encode s = .next t) ∧
        t = (if (codeBits (ctElems s) ss).length / 8 ≤ p.maxPay.toNat then failed .unknownSymbol u
             else failed .capacity 0#21) { s with pay := t.pay, payLen := 0#32, pad := 0#3 }) ∧
    (s.ctValid = true → allKnown (ctElems s) (sinElems s) = true →
      p.maxPay.toNat < ((codeBits (ctElems s) (sinElems s)).length + 7) / 8 →
      ∃ t, execOn p .encode s = .next t ∧ (p = Config.params → exec .encode s = .next t) ∧
        t = failed .capacity 0#21 { s with pay := t.pay, payLen := 0#32, pad := 0#3 })

/-- R137: the padding bound. -/
def Obligations.PaddingBound : Prop :=
  ∀ (p : Params) (s t : State), execOn p .encode s = .next t → t.error = false →
    t.pad.toNat ≤ 7 ∧
    8 * t.payLen.toNat - t.pad.toNat = (codeBits (ctElems s) (sinElems s)).length ∧
    (t.pad = 0#3 → (codeBits (ctElems s) (sinElems s)).length = 8 * t.payLen.toNat) ∧
    (t.pad ≠ 0#3 → 1 ≤ t.payLen.toNat) ∧ (t.payLen = 0#32 → t.pad = 0#3) ∧
    ∀ k, k < t.pad.toNat → (payAt t (t.payLen.toNat - 1)).getLsbD k = false

/-! ## The header's encodings -/

/-- R140: the seven escape tokens; every other symbol renders as its UTF-8 bytes. -/
def Obligations.RenderedSymbols : Prop :=
  render 0x0D#21 = [0x5C#8, 0x72#8] ∧ render 0x09#21 = [0x5C#8, 0x74#8] ∧ render 0x0A#21 = [0x5C#8, 0x6E#8] ∧
  render 0x5C#21 = [0x5C#8, 0x5C#8] ∧ render 0x27#21 = [0x5C#8, 0x27#8] ∧ render 0x22#21 = [0x5C#8, 0x22#8] ∧
  render 0x00#21 = [0x5C#8, 0x30#8] ∧
  ∀ s : Sym, s ∉ [0x0D#21, 0x09#21, 0x0A#21, 0x5C#21, 0x27#21, 0x22#21, 0x00#21] → render s = utf8 s

/-- R141: the bytes of `utf8(s)` by range, and that `utf8dec` reads exactly the encodings of SCALAR symbols. -/
def Obligations.Utf8Encoding : Prop :=
  (∀ s : Sym,
    (s.toNat < 0x80 → (utf8 s).map BitVec.toNat = [s.toNat]) ∧
    (0x80 ≤ s.toNat → s.toNat < 0x800 →
      (utf8 s).map BitVec.toNat = [0xC0 + s.toNat / 2 ^ 6, 0x80 + s.toNat % 2 ^ 6]) ∧
    (0x800 ≤ s.toNat → s.toNat < 0x10000 → (utf8 s).map BitVec.toNat =
      [0xE0 + s.toNat / 2 ^ 12, 0x80 + s.toNat / 2 ^ 6 % 2 ^ 6, 0x80 + s.toNat % 2 ^ 6]) ∧
    (0x10000 ≤ s.toNat → s.toNat ≤ 0x10FFFF → (utf8 s).map BitVec.toNat =
      [0xF0 + s.toNat / 2 ^ 18, 0x80 + s.toNat / 2 ^ 12 % 2 ^ 6, 0x80 + s.toNat / 2 ^ 6 % 2 ^ 6,
        0x80 + s.toNat % 2 ^ 6])) ∧
  ∀ (h r : List Byte) (s : Sym), utf8dec h = some (s, r) ↔ isScalar s.toNat = true ∧ h = utf8 s ++ r

/-- R142: the decimal numeral of a count: its value, its digits, no leading zero, 1 to 20 digits. -/
def Obligations.DecimalNumerals : Prop :=
  ∀ c : Count, fieldValue (decCount c) = c.toNat ∧ fieldOk (decCount c) = true ∧ (decCount c).length ≤ 20 ∧
    ((decCount c).head? = some 0x30#8 → decCount c = [0x30#8])

/-- R143, R144: the header text is the entries in ascending symbol order in the grammar's frame, and holds
exactly one LF, its last byte. -/
def Obligations.HeaderTextFormat : Prop :=
  ∀ (t : Table) (pad : BitVec 3),
    headerText t pad = looseHeader (t.map (fun e => (e.1, decCount e.2))) pad ∧
    (headerText t pad).count 0x0A#8 = 1 ∧ (headerText t pad).getLast? = some 0x0A#8

/-- R145: the digits of the length prefix. R148: ParsePrefix on any 32 bytes. -/
def Obligations.LengthPrefix : Prop :=
  (∀ n : Word, (lengthText n).length = 32 ∧
    ∀ i, i < 32 → (lengthText n)[i]? = some (if n.getLsbD (31 - i) then 0x31#8 else 0x30#8)) ∧
  ∀ p : List Byte, p.length = 32 →
    parseLength 0 p = if p.all (fun b => b == 0x30#8 || b == 0x31#8) then
        .ok (((List.range 32).map (fun i => ((p.getD i 0#8).toNat - 0x30) * 2 ^ (31 - i))).sum)
      else .error .invalidHeader

/-- R151: the count field, its terminator, and the two errors. -/
def Obligations.CountFieldScanning : Prop :=
  (∀ (f r : List Byte) (b : Byte), (∀ x ∈ f, x ≠ 0x2C#8 ∧ x ≠ 0x7D#8) → b = 0x2C#8 ∨ b = 0x7D#8 →
    scanCount (f ++ b :: r) = if fieldOk f then .ok (BitVec.ofNat 64 (fieldValue f), b :: r)
      else .error .invalidHeaderValue) ∧
  ∀ f : List Byte, (∀ x ∈ f, x ≠ 0x2C#8 ∧ x ≠ 0x7D#8) → scanCount f = .error .invalidHeader

/-- R149, R157: the scanner accepts exactly the texts of the grammar, entries in any order, and returns their
table and padding digit. -/
def Obligations.ScannerAcceptsExactlyTheGrammar : Prop :=
  ∀ (maxSyms : Nat) (h : List Byte) (t : Table) (pad : BitVec 3),
    scanHeader maxSyms h = .ok (t, pad) ↔
      ∃ es : List LooseEntry, h = looseHeader es pad ∧ entriesOk es = true ∧ es.length ≤ maxSyms ∧
        t = entriesTable es

/-- R149 to R153: the error the scanner gives for each text it does not accept. With `es` the entries read so far:
InvalidHeaderValue exactly if the next entry is well formed up to its closed count field and the field is no legal
count, also if its symbol is among `es` or the table is full; Capacity exactly if the next entry is legal, its symbol
new, and the table full; InvalidHeader for every other text: a wrong or missing byte, symbol, quote or padding
segment, a list never closed, a symbol that stands in `es` already, bytes after the LF. -/
def Obligations.ScannerErrors : Prop :=
  ∀ (maxSyms : Nat) (h : List Byte),
    (scanHeader maxSyms h = .error .invalidHeaderValue ↔
      ∃ (es : List LooseEntry) (x : Sym) (f : List Byte) (b : Byte) (r : List Byte),
        h = textBefore es ++ looseEntryText (x, f) ++ b :: r ∧ entriesOk es = true ∧ es.length ≤ maxSyms ∧
        isScalar x.toNat = true ∧ fieldBytes f = true ∧ (b = 0x2C#8 ∨ b = 0x7D#8) ∧ fieldOk f = false) ∧
    (scanHeader maxSyms h = .error .capacity ↔
      ∃ (es : List LooseEntry) (e : LooseEntry) (b : Byte) (r : List Byte),
        h = textBefore es ++ looseEntryText e ++ b :: r ∧ entriesOk (es ++ [e]) = true ∧ es.length = maxSyms ∧
        (b = 0x2C#8 ∨ b = 0x7D#8)) ∧
    ∀ f, scanHeader maxSyms h = .error f →
      f = .invalidHeader ∨ f = .invalidHeaderValue ∨ f = .capacity

/-! ## WRHDR and RDHDR -/

/-- R146: the image WRHDR writes when it fits: prefix, header, payload; else Capacity, its one failure, and IMG
is drawn anew (log 5). -/
def Obligations.WrhdrCompletes : Prop :=
  ∀ (p : Params) (s : State),
    let h := headerText s.ft s.pad
    (32 + h.length + s.payLen.toNat ≤ p.maxImg.toNat → ∃ t, execOn p .wrhdr s = .next t ∧
      (p = Config.params → exec .wrhdr s = .next t) ∧
      t = succeeded { s with img := t.img, imgLen := t.imgLen, hdrLen := t.hdrLen } ∧
      t.hdrLen.toNat = h.length ∧ t.imgLen.toNat = 32 + h.length + s.payLen.toNat ∧
      imgElems t = lengthText t.hdrLen ++ h ++ payElems s ∧
      ∀ i, t.imgLen.toNat ≤ i → imgAt t i = imgAt s i) ∧
    (p.maxImg.toNat < 32 + h.length + s.payLen.toNat → ∃ t, execOn p .wrhdr s = .next t ∧
      (p = Config.params → exec .wrhdr s = .next t) ∧
      t = failed .capacity 0#21 { s with img := t.img, imgLen := 0#32, hdrLen := 0#32 })

/-- R147, R154, R155: RDHDR on an image that is prefix, a header of the grammar and a payload that fits. -/
def Obligations.RdhdrCompletes : Prop :=
  ∀ (p : Params) (s : State) (es : List LooseEntry) (pad : BitVec 3) (pay : List Byte),
    let h := looseHeader es pad
    imgElems s = lengthText (BitVec.ofNat 32 h.length) ++ h ++ pay → entriesOk es = true →
    es.length ≤ p.maxSyms.toNat → pay.length ≤ p.maxPay.toNat →
    ∃ t, execOn p .rdhdr s = .next t ∧ (p = Config.params → exec .rdhdr s = .next t) ∧
      t = succeeded { s with
          ft := entriesTable es, ftLen := t.ftLen, pad := pad, pay := t.pay, payLen := t.payLen,
          hdrLen := t.hdrLen, treeValid := false, nodeCnt := 0#22, root := 0#22, ctValid := false,
          ctLen := 0#32 } ∧
      t.ftLen.toNat = es.length ∧ t.payLen.toNat = pay.length ∧ t.hdrLen.toNat = h.length ∧
      payElems t = pay ∧ ∀ i, pay.length ≤ i → payAt t i = payAt s i

/-- R147, R148, R154, R204: the failures of RDHDR in the order of its steps; which error the scanner of step 4 gives is
`ScannerErrors`. -/
def Obligations.RdhdrFailurePriority : Prop :=
  ∀ (p : Params) (s t : State), execOn p .rdhdr s = .next t →
    let img := imgElems s
    (s.imgLen.toNat < 32 → t.err = .ioFailure) ∧
    (32 ≤ s.imgLen.toNat →
      ((img.take 32).all (fun b => b == 0x30#8 || b == 0x31#8) = false → t.err = .invalidHeader) ∧
      ∀ n : Word, img.take 32 = lengthText n →
        (s.imgLen.toNat - 32 < n.toNat → t.err = .ioFailure) ∧
        (n.toNat ≤ s.imgLen.toNat - 32 →
          (∀ f, scanHeader p.maxSyms.toNat ((img.drop 32).take n.toNat) = .error f → t.err = f.code) ∧
          (∀ r, scanHeader p.maxSyms.toNat ((img.drop 32).take n.toNat) = .ok r →
            (t.err = if p.maxPay.toNat < s.imgLen.toNat - 32 - n.toNat then .capacity else .success))))

/-- R155: what a failed RDHDR leaves: never a partly read table. PAY is then drawn anew (log 5). -/
def Obligations.RdhdrFailureLeavesEmptyTable : Prop :=
  ∀ (p : Params) (s t : State), execOn p .rdhdr s = .next t → t.error = true →
    t = failed t.err 0#21 { s with
        ft := [], ftLen := 0#32, pad := 0#3, payLen := 0#32, hdrLen := 0#32, treeValid := false,
        nodeCnt := 0#22, root := 0#22, ctValid := false, ctLen := 0#32, pay := t.pay }

/-- R156: WRHDR, then RDHDR on any instance that holds the image written and has room for it, restores the
table, the padding and the payload. -/
def Obligations.HeaderRoundTrip : Prop :=
  ∀ (p q : Params) (s t u : State), tableOk s.ft = true → execOn p .wrhdr s = .next t → t.error = false →
    imgElems u = imgElems t → s.ft.length ≤ q.maxSyms.toNat → s.payLen ≤ q.maxPay →
    ∃ v, execOn q .rdhdr u = .next v ∧ (q = Config.params → exec .rdhdr u = .next v) ∧ v.error = false ∧
      v.ft = s.ft ∧ v.pad = s.pad ∧ v.payLen = s.payLen ∧
      payElems v = payElems s ∧ v.hdrLen = t.hdrLen

/-! ## DECODE -/

/-- R170 to R175, R177: DECODE of a payload that spells a sequence of codes emits exactly its symbols. The
codes are those ASSIGN gives the table's tree. -/
def Obligations.DecodeCompletes : Prop :=
  ∀ (p : Params) (s : State), Inv p s → 2 ≤ s.ft.length → (s.payLen = 0#32 → s.pad = 0#3) →
    ∃ b a, exec .build s = .next b ∧ exec .assign b = .next a ∧
      ∀ ss : List Sym, allKnown (ctElems a) ss = true → designatedBits s = codeBits (ctElems a) ss →
        ss.length ≤ p.maxOut.toNat → ∃ t, execOn p .decode s = .next t ∧
          (p = Config.params → exec .decode s = .next t) ∧
          t = succeeded { s with
              node := b.node, nodeCnt := b.nodeCnt, root := b.root, treeValid := true, ctValid := false,
              ctLen := 0#32, sout := t.sout, soutLen := t.soutLen } ∧
          t.soutLen.toNat = ss.length ∧ soutElems t = ss ∧ ∀ i, ss.length ≤ i → soutAt t i = soutAt s i

/-- R171, R172, R173, R177: the failures of DECODE before the walk, and the state each leaves. SOUT, and NODE if
there is no tree, are then drawn anew (log 5). -/
def Obligations.DecodeFailsBeforeTheWalk : Prop :=
  ∀ (p : Params) (s : State), Inv p s →
    (s.ft = [] → ∃ t, execOn p .decode s = .next t ∧ (p = Config.params → exec .decode s = .next t) ∧
      t = failed .emptyAlphabet 0#21 { s with
          node := t.node, treeValid := false, nodeCnt := 0#22, root := 0#22, ctValid := false,
          ctLen := 0#32, sout := t.sout, soutLen := 0#32 }) ∧
    (∀ b, exec .build s = .next b → s.ft.length = 1 → ∃ t, execOn p .decode s = .next t ∧
      (p = Config.params → exec .decode s = .next t) ∧
      t = failed .degenerateAlphabet 0#21 { s with
          node := b.node, treeValid := true, nodeCnt := b.nodeCnt, root := b.root, ctValid := false,
          ctLen := 0#32, sout := t.sout, soutLen := 0#32 }) ∧
    (∀ b, exec .build s = .next b → 2 ≤ s.ft.length → s.payLen = 0#32 → s.pad ≠ 0#3 →
      ∃ t, execOn p .decode s = .next t ∧ (p = Config.params → exec .decode s = .next t) ∧
        t = failed .corruptPayload 0#21 { s with
            node := b.node, treeValid := true, nodeCnt := b.nodeCnt, root := b.root, ctValid := false,
            ctLen := 0#32, sout := t.sout, soutLen := 0#32 })

/-- R174, R175: the failures of the walk: more symbols than SOUT holds, or an end inside the tree. -/
def Obligations.DecodeFailsInTheWalk : Prop :=
  ∀ (p : Params) (s b a : State) (ss : List Sym), Inv p s → 2 ≤ s.ft.length → s.payLen ≠ 0#32 →
    exec .build s = .next b → exec .assign b = .next a → allKnown (ctElems a) ss = true →
    (∀ rest, designatedBits s = codeBits (ctElems a) ss ++ rest → p.maxOut.toNat < ss.length →
      ∃ t, execOn p .decode s = .next t ∧ (p = Config.params → exec .decode s = .next t) ∧
        t = failed .capacity 0#21 { s with
            node := b.node, treeValid := true, nodeCnt := b.nodeCnt, root := b.root, ctValid := false,
            ctLen := 0#32, sout := t.sout, soutLen := 0#32 }) ∧
    (∀ (e : CodeEntry) (c d : Bits), e ∈ ctElems a → e.code = c ++ d → c ≠ [] → d ≠ [] →
      designatedBits s = codeBits (ctElems a) ss ++ c → ss.length ≤ p.maxOut.toNat →
      ∃ t, execOn p .decode s = .next t ∧ (p = Config.params → exec .decode s = .next t) ∧
        t = failed .corruptPayload 0#21 { s with
            node := b.node, treeValid := true, nodeCnt := b.nodeCnt, root := b.root, ctValid := false,
            ctLen := 0#32, sout := t.sout, soutLen := 0#32 })

/-- R176: the low PAD bits of the last payload byte do not matter. -/
def Obligations.FillerBitsAreIgnored : Prop :=
  ∀ (p : Params) (s t : State) (m : Memory Byte), execOn p .decode s = .next t →
    (∀ i, i + 1 < s.payLen.toNat → m.get Config.freePay i = payAt s i) →
    (∀ k, s.pad.toNat ≤ k → (m.get Config.freePay (s.payLen.toNat - 1)).getLsbD k =
      (payAt s (s.payLen.toNat - 1)).getLsbD k) →
    execOn p .decode { s with pay := m } = .next { t with pay := m }

/-! ## Whole runs -/

/-- R178: BUILD, ASSIGN, ENCODE, then DECODE gives the input back. -/
def Obligations.RoundTripInMemory : Prop :=
  ∀ (p : Params) (s t : State), Inv p s → 2 ≤ s.ft.length → (∀ x ∈ sinElems s, (tableGet s.ft x).isSome = true) →
    runUntilError p [.build, .assign, .encode] s = .next t → t.error = false →
    s.sinLen ≤ p.maxOut →
    ∃ u, execOn p .decode t = .next u ∧ u.error = false ∧ u.soutLen = s.sinLen ∧ soutElems u = sinElems s

/-- R178, R86: COMPRESS, then DECOMPRESS on any instance loaded with the image, gives the input back. -/
def Obligations.RoundTripThroughImage : Prop :=
  ∀ (p q : Params) (s t u : State), Inv p s → Inv q u → 2 ≤ s.ft.length →
    (∀ x ∈ sinElems s, (tableGet s.ft x).isSome = true) →
    runUntilError p compressCommands s = .next t → t.error = false →
    imgElems u = imgElems t → s.ft.length ≤ q.maxSyms.toNat → t.payLen ≤ q.maxPay →
    s.sinLen ≤ q.maxOut →
    ∃ v, runUntilError q decompressCommands u = .next v ∧ v.error = false ∧ v.soutLen = s.sinLen ∧
      soutElems v = sinElems s

/-- R228: an empty table and a table of one symbol cannot be compressed. -/
def Obligations.CompressRejectsSmallAlphabets : Prop :=
  ∀ (p : Params) (s t : State), Inv p s → runUntilError p compressCommands s = .next t →
    (s.ft = [] → t.error = true ∧ t.err = .emptyAlphabet) ∧
    (s.ft.length = 1 → t.error = true ∧ t.err = .degenerateAlphabet)

/-- R226: after the host's count on an empty table, FT holds every symbol of the input with its number of
occurrences, and no other entry, in whatever order the FTSets are issued; `.count` issues them in one such order
(log 20). -/
def Obligations.CountLoadsTheFrequencies : Prop :=
  (∀ s : State, ∃ syms, syms.Perm (sinElems s).dedup ∧ countDirective s = countInOrder syms s) ∧
  ∀ (p : Params) (s : State) (syms : List Sym), Inv p s → s.ft = [] →
    (∀ x ∈ sinElems s, isScalar x.toNat = true) → (sinElems s).dedup.length ≤ p.maxSyms.toNat →
    syms.Perm (sinElems s).dedup →
    ∃ t, runEvents p (countInOrder syms s) s = .next t ∧ t.hosterr = s.hosterr ∧ sinElems t = sinElems s ∧
      ∀ x, tableGet t.ft x =
        if x ∈ sinElems s then some (BitVec.ofNat 64 ((sinElems s).count x)) else none
end

