-- ==== Sys2Proof/Laws/Memory.lean ====
section
/-! SUPPORT. What the element memories do: read after write, whole results, and that every operation
keeps the canonical form `Memory.wf`. -/

namespace Sys2Proof.Machine

variable {α : Type}

/-! ## Rising lists -/

theorem rising_cons (a : Nat × α) (cs : List (Nat × α)) :
    rising (a :: cs) = true ↔ (∀ c ∈ cs, a.1 < c.1) ∧ rising cs = true := by
  induction cs generalizing a with
  | nil => simp [rising]
  | cons b cs ih =>
    simp only [rising, Bool.and_eq_true, decide_eq_true_eq, List.mem_cons, forall_eq_or_imp]
    constructor
    · rintro ⟨h, hr⟩
      exact ⟨⟨h, fun c hc => Nat.lt_trans h (((ih b).1 hr).1 c hc)⟩, hr⟩
    · rintro ⟨⟨h, -⟩, hr⟩
      exact ⟨h, hr⟩

theorem rising_filter (p : Nat × α → Bool) (cs : List (Nat × α)) (h : rising cs = true) :
    rising (cs.filter p) = true := by
  induction cs with
  | nil => rfl
  | cons a cs ih =>
    rw [rising_cons] at h
    by_cases hp : p a = true
    · rw [List.filter_cons_of_pos hp, rising_cons]
      exact ⟨fun c hc => h.1 c (List.mem_filter.1 hc).1, ih h.2⟩
    · rw [List.filter_cons_of_neg hp]
      exact ih h.2

theorem rising_append (xs ys : List (Nat × α)) (hx : rising xs = true) (hy : rising ys = true)
    (h : ∀ x ∈ xs, ∀ y ∈ ys, x.1 < y.1) : rising (xs ++ ys) = true := by
  induction xs with
  | nil => simpa using hy
  | cons a xs ih =>
    rw [rising_cons] at hx
    rw [List.cons_append, rising_cons]
    refine ⟨fun c hc => ?_, ih hx.2 fun x m => h x (List.mem_cons_of_mem _ m)⟩
    rcases List.mem_append.1 hc with hc | hc
    · exact hx.1 c hc
    · exact h a List.mem_cons_self c hc

/-! ## Numbered lists -/

theorem mem_numbered (k : Nat) (vs : List α) (c : Nat × α) (h : c ∈ numbered k vs) :
    k ≤ c.1 ∧ c.1 < k + vs.length := by
  induction vs generalizing k with
  | nil => simp [numbered] at h
  | cons v vs ih =>
    simp only [numbered, List.mem_cons] at h
    rcases h with rfl | h
    · simp
    · have := ih (k + 1) h
      simp only [List.length_cons]
      omega

theorem rising_numbered (k : Nat) (vs : List α) : rising (numbered k vs) = true := by
  induction vs generalizing k with
  | nil => rfl
  | cons v vs ih =>
    rw [numbered, rising_cons]
    exact ⟨fun c hc => by have := mem_numbered _ _ _ hc; simp; omega, ih _⟩

theorem lookupCell_append (xs ys : List (Nat × α)) (i : Nat) :
    lookupCell (xs ++ ys) i = (lookupCell xs i).or (lookupCell ys i) := by
  induction xs with
  | nil => simp [lookupCell]
  | cons a xs ih =>
    simp only [List.cons_append, lookupCell]
    split <;> simp [ih]

theorem lookupCell_numbered (k : Nat) (vs : List α) (i : Nat) :
    lookupCell (numbered k vs) i = if k ≤ i then vs[i - k]? else none := by
  induction vs generalizing k with
  | nil => simp [numbered, lookupCell]
  | cons v vs ih =>
    simp only [numbered, lookupCell, ih]
    by_cases h : k = i
    · subst h; simp
    · simp only [h, if_false]
      by_cases h1 : k + 1 ≤ i
      · have e : i - k = (i - (k + 1)) + 1 := by omega
        simp only [h1, if_true, show k ≤ i by omega, e, List.getElem?_cons_succ]
      · simp [h1, show ¬ k ≤ i by omega]

theorem lookupCell_filter_ge (cs : List (Nat × α)) (n i : Nat) (h : n ≤ i) :
    lookupCell (cs.filter (fun c => decide (n ≤ c.1))) i = lookupCell cs i := by
  induction cs with
  | nil => rfl
  | cons a cs ih =>
    by_cases hp : n ≤ a.1
    · rw [List.filter_cons_of_pos (by simpa using hp)]
      simp only [lookupCell, ih]
    · rw [List.filter_cons_of_neg (by simpa using hp), ih, lookupCell, if_neg (by omega)]

theorem lookupCell_insertCell (cs : List (Nat × α)) (i j : Nat) (v : α) (h : rising cs = true) :
    lookupCell (insertCell cs i v) j = if j = i then some v else lookupCell cs j := by
  induction cs with
  | nil => simp only [insertCell, lookupCell, eq_comm]
  | cons a cs ih =>
    obtain ⟨a, w⟩ := a
    rw [rising_cons] at h
    simp only [insertCell]
    split
    · rename_i hlt
      simp only [lookupCell, eq_comm]
    · split
      · rename_i hlt he
        subst he
        by_cases hj : a = j
        · simp [lookupCell, hj]
        · simp [lookupCell, hj, Ne.symm hj]
      · rename_i hlt he
        simp only [lookupCell, ih h.2]
        by_cases hj : a = j
        · subst hj; simp [he]
        · simp [hj]

theorem mem_insertCell (cs : List (Nat × α)) (i : Nat) (v : α) (c : Nat × α)
    (h : c ∈ insertCell cs i v) : c = (i, v) ∨ c ∈ cs := by
  induction cs with
  | nil => simpa [insertCell] using h
  | cons a cs ih =>
    obtain ⟨a, w⟩ := a
    simp only [insertCell] at h
    split at h
    · simpa using h
    · split at h
      · rcases List.mem_cons.1 h with h | h
        · exact .inl h
        · exact .inr (List.mem_cons_of_mem _ h)
      · rcases List.mem_cons.1 h with h | h
        · exact .inr (h ▸ List.mem_cons_self)
        · rcases ih h with h | h
          · exact .inl h
          · exact .inr (List.mem_cons_of_mem _ h)

theorem rising_insertCell (cs : List (Nat × α)) (i : Nat) (v : α) (h : rising cs = true) :
    rising (insertCell cs i v) = true := by
  induction cs with
  | nil => rfl
  | cons a cs ih =>
    obtain ⟨a, w⟩ := a
    have h' := (rising_cons (a, w) cs).1 h
    simp only [insertCell]
    split
    · rename_i hlt
      rw [rising_cons]
      refine ⟨fun c hc => ?_, h⟩
      rcases List.mem_cons.1 hc with rfl | hc
      · exact hlt
      · exact Nat.lt_trans hlt (h'.1 c hc)
    · split
      · rename_i hlt he
        subst he
        rw [rising_cons]
        exact h'
      · rename_i hlt he
        rw [rising_cons]
        refine ⟨fun c hc => ?_, ih h'.2⟩
        rcases mem_insertCell _ _ _ _ hc with rfl | hc
        · simp only
          omega
        · exact h'.1 c hc

/-! ## Canonical form -/

@[simp] theorem wf_unwritten : (Memory.unwritten α).wf = true := rfl
@[simp] theorem wf_spoil (m : Memory α) : m.spoil.wf = true := rfl
@[simp] theorem below_unwritten (cap : Nat) : (Memory.unwritten α).below cap = true := rfl
@[simp] theorem below_spoil (m : Memory α) (cap : Nat) : m.spoil.below cap = true := rfl

theorem wf_set (m : Memory α) (i : Nat) (v : α) (h : m.wf = true) : (m.set i v).wf = true :=
  rising_insertCell _ _ _ h

theorem wf_writeAll (m : Memory α) (vs : List α) (h : m.wf = true) : (m.writeAll vs).wf = true := by
  refine rising_append _ _ (rising_numbered 0 vs) (rising_filter _ _ h) fun x hx y hy => ?_
  have h1 := mem_numbered _ _ _ hx
  have h2 := (List.mem_filter.1 hy).2
  simp only [decide_eq_true_eq] at h2
  omega

theorem below_iff (m : Memory α) (cap : Nat) : m.below cap = true ↔ ∀ c ∈ m.cells, c.1 < cap := by
  simp [Memory.below, List.all_eq_true]

theorem below_set (m : Memory α) (i cap : Nat) (v : α) (h : m.below cap = true) (hi : i < cap) :
    (m.set i v).below cap = true := by
  rw [below_iff] at *
  intro c hc
  rcases mem_insertCell _ _ _ _ hc with rfl | hc
  · exact hi
  · exact h c hc

theorem below_writeAll (m : Memory α) (vs : List α) (cap : Nat) (h : m.below cap = true)
    (hl : vs.length ≤ cap) : (m.writeAll vs).below cap = true := by
  rw [below_iff] at *
  intro c hc
  rcases List.mem_append.1 hc with hc | hc
  · have := mem_numbered _ _ _ hc
    omega
  · exact h c (List.mem_filter.1 hc).1

/-! ## Reading -/

variable (free : Nat → Nat → α)

theorem get_set (m : Memory α) (i j : Nat) (v : α) (h : m.wf = true) :
    (m.set i v).get free j = if j = i then v else m.get free j := by
  simp only [Memory.get, Memory.peek, Memory.set, lookupCell_insertCell _ _ _ _ h]
  split <;> simp

/-- A whole result is read back below its length; everything else keeps its value. -/
theorem get_writeAll (m : Memory α) (vs : List α) (i : Nat) :
    (m.writeAll vs).get free i = if h : i < vs.length then vs[i] else m.get free i := by
  simp only [Memory.get, Memory.peek, Memory.writeAll, lookupCell_append, lookupCell_numbered]
  by_cases h : i < vs.length
  · simp [h]
  · simp only [Nat.zero_le, if_true, Nat.sub_zero, h, dif_neg, not_false_eq_true]
    rw [List.getElem?_eq_none (by omega), lookupCell_filter_ge _ _ _ (by omega)]
    rfl

@[simp] theorem length_readAll (m : Memory α) (n : Nat) : (m.readAll free n).length = n := by
  simp [Memory.readAll]

theorem getElem_readAll (m : Memory α) (n i : Nat) (h : i < (m.readAll free n).length) :
    (m.readAll free n)[i] = m.get free i := by
  simp [Memory.readAll]

theorem readAll_writeAll (m : Memory α) (vs : List α) :
    (m.writeAll vs).readAll free vs.length = vs := by
  apply List.ext_getElem
  · simp
  · intro i h1 h2
    simp only [getElem_readAll, get_writeAll, h2, dif_pos]

theorem readAll_congr (m m' : Memory α) (n : Nat) (h : ∀ i < n, m.get free i = m'.get free i) :
    m.readAll free n = m'.readAll free n := by
  apply List.ext_getElem
  · simp
  · intro i h1 h2
    simp only [length_readAll] at h1
    simp only [getElem_readAll, h i h1]

end Sys2Proof.Machine
end

