-- ==== Sys2Proof/Laws/Tree.lean ====
section
/-! SUPPORT. What BuildTree makes: its size, that a tree stands at its root, and that the tree's leaves
are the entries of the table (40_tree_builder.md R102, R103, R109). -/

namespace Sys2Proof.Machine

/-- A tree standing at index `i` of a list of nodes. -/
inductive Built (nodes : List TreeNode) : Nat → HTree → Prop
  | leaf {i : Nat} {s : Sym} {w : Weight} (h : nodes[i]? = some (.leaf s w)) : Built nodes i (.leaf s w)
  | node {i : Nat} {w : Weight} {l r : NodeIdx} {tl tr : HTree} (h : nodes[i]? = some (.internal w l r))
      (hl : Built nodes l.toNat tl) (hr : Built nodes r.toNat tr) : Built nodes i (.node w tl tr)

theorem Built.append {nodes : List TreeNode} {i : Nat} {t : HTree} (h : Built nodes i t)
    (more : List TreeNode) : Built (nodes ++ more) i t := by
  induction h with
  | leaf h =>
    refine .leaf ?_
    rw [List.getElem?_append_left (by
      rcases List.getElem?_eq_some_iff.1 h with ⟨h', -⟩; exact h'), h]
  | node h _ _ ihl ihr =>
    refine .node ?_ ihl ihr
    rw [List.getElem?_append_left (by
      rcases List.getElem?_eq_some_iff.1 h with ⟨h', -⟩; exact h'), h]

theorem Built.treeAt {nodes : List TreeNode} {i : Nat} {t : HTree} (h : Built nodes i t)
    (node : Nat → TreeNode) (hn : ∀ j n, nodes[j]? = some n → node j = n) : TreeAt node i t := by
  induction h with
  | leaf h => exact .leaf (hn _ _ h)
  | node h _ _ ihl ihr => exact .node (hn _ _ h) ihl ihr

/-- A node store has at most one tree at an index. -/
theorem TreeAt.unique {node : Nat → TreeNode} {i : Nat} {t u : HTree} (h : TreeAt node i t)
    (h' : TreeAt node i u) : t = u := by
  induction h generalizing u with
  | leaf h =>
    cases h' with
    | leaf h2 => rw [h] at h2; cases h2; rfl
    | node h2 _ _ => rw [h] at h2; cases h2
  | node h _ _ ihl ihr =>
    cases h' with
    | leaf h2 => rw [h] at h2; cases h2
    | node h2 hl hr => rw [h] at h2; cases h2; rw [ihl hl, ihr hr]

/-! ## The priority structure -/

theorem enqueue_split (x : Pending) (q : List Pending) :
    ∃ l r, q = l ++ r ∧ enqueue x q = l ++ x :: r := by
  induction q with
  | nil => exact ⟨[], [], rfl, rfl⟩
  | cons y q ih =>
    simp only [enqueue]
    split
    · exact ⟨[], y :: q, rfl, rfl⟩
    · obtain ⟨l, r, h1, h2⟩ := ih
      exact ⟨y :: l, r, by simp [h1], by simp [h2]⟩

theorem enqueue_perm (x : Pending) (q : List Pending) : (enqueue x q).Perm (x :: q) := by
  obtain ⟨l, r, rfl, h⟩ := enqueue_split x q
  rw [h]
  exact List.perm_middle

@[simp] theorem length_enqueue (x : Pending) (q : List Pending) : (enqueue x q).length = q.length + 1 :=
  (enqueue_perm x q).length_eq

theorem foldr_enqueue_perm (xs : List Pending) : (xs.foldr enqueue []).Perm xs := by
  induction xs with
  | nil => exact .nil
  | cons x xs ih => exact (enqueue_perm _ _).trans (ih.cons x)

@[simp] theorem length_leafPendings (i : Nat) (t : Table) : (leafPendings i t).length = t.length := by
  induction t generalizing i with
  | nil => rfl
  | cons e t ih => simp [leafPendings, ih]

@[simp] theorem length_initialQueue (t : Table) : (initialQueue t).length = t.length := by
  rw [initialQueue, (foldr_enqueue_perm _).length_eq, length_leafPendings]

@[simp] theorem length_leafNodes (t : Table) : (leafNodes t).length = t.length := by simp [leafNodes]

/-! ## The merge loop -/

/-- The loop makes one Internal less than there are elements in PQ (R102). -/
theorem length_mergeLoop (n fuel seq : Nat) (q : List Pending) (h : q.length ≤ fuel + 1) :
    (mergeLoop n fuel seq q).length = q.length - 1 := by
  induction fuel generalizing seq q with
  | zero =>
    match q with
    | [] => rfl
    | [_] => rfl
    | _ :: _ :: _ => simp at h
  | succ fuel ih =>
    match q with
    | [] => rfl
    | [_] => rfl
    | a :: b :: q =>
      simp only [mergeLoop, List.length_cons]
      rw [ih _ _ (by simp at h ⊢; omega)]
      simp

/-- The trees that stand at the elements of PQ. -/
def QueueTrees (pre : List TreeNode) (q : List Pending) (ts : List HTree) : Prop :=
  List.Forall₂ (fun x t => Built pre x.idx t ∧ HTree.weight t = x.weight) q ts

theorem queueTrees_append (pre more : List TreeNode) (q : List Pending) (ts : List HTree)
    (h : QueueTrees pre q ts) : QueueTrees (pre ++ more) q ts :=
  h.imp fun _ _ hb => ⟨hb.1.append _, hb.2⟩

/-- The weight invariant of a tree (R109(a)). -/
def HTree.Summed : HTree → Prop
  | .leaf _ _ => True
  | .node w l r => w = l.weight + r.weight ∧ l.Summed ∧ r.Summed

/-- The merge loop joins the trees of PQ into one, which stands at the last node, and loses no leaf. -/
theorem mergeLoop_builds (n fuel seq : Nat) (pre : List TreeNode) (q : List Pending) (ts : List HTree)
    (hpre : pre.length = n + seq) (hq : q ≠ []) (hfuel : q.length ≤ fuel + 1)
    (hidx : ∀ x ∈ q, x.idx < pre.length) (hbound : pre.length + q.length ≤ 2 ^ 22)
    (hlast : ∀ x, q = [x] → x.idx = pre.length - 1) (hts : QueueTrees pre q ts)
    (hsum : ∀ t ∈ ts, t.Summed) :
    ∃ t, Built (pre ++ mergeLoop n fuel seq q) ((pre ++ mergeLoop n fuel seq q).length - 1) t ∧
      t.leaves.Perm (ts.flatMap HTree.leaves) ∧ t.Summed := by
  induction fuel generalizing seq pre q ts with
  | zero =>
    match q with
    | [] => exact absurd rfl hq
    | _ :: _ :: _ => simp at hfuel
    | [x] =>
      cases hts with
      | cons h1 h2 =>
        cases h2
        refine ⟨_, ?_, ?_, hsum _ List.mem_cons_self⟩
        · simpa [mergeLoop, ← hlast x rfl] using h1.1
        · simp
  | succ fuel ih =>
    match q with
    | [] => exact absurd rfl hq
    | [x] =>
      cases hts with
      | cons h1 h2 =>
        cases h2
        refine ⟨_, ?_, ?_, hsum _ List.mem_cons_self⟩
        · simpa [mergeLoop, ← hlast x rfl] using h1.1
        · simp
    | a :: b :: q =>
      cases hts with
      | @cons _ ta _ _ ha hts =>
      cases hts with
      | @cons _ tb _ ts hb hts =>
      have hia := hidx a (by simp)
      have hib := hidx b (by simp)
      simp only [List.length_cons] at hbound hfuel
      let nd : TreeNode := .internal (a.weight + b.weight) (BitVec.ofNat 22 a.idx) (BitVec.ofNat 22 b.idx)
      let new : Pending := ⟨n + seq, a.weight + b.weight, 1, seq⟩
      have hnew : Built (pre ++ [nd]) (n + seq) (.node (a.weight + b.weight) ta tb) := by
        refine .node (w := a.weight + b.weight) (l := BitVec.ofNat 22 a.idx) (r := BitVec.ofNat 22 b.idx)
          ?_ ?_ ?_
        · rw [← hpre]; simp [nd]
        · rw [BitVec.toNat_ofNat, Nat.mod_eq_of_lt (by omega)]
          exact ha.1.append _
        · rw [BitVec.toNat_ofNat, Nat.mod_eq_of_lt (by omega)]
          exact hb.1.append _
      obtain ⟨l, r, hlr, henq⟩ := enqueue_split new q
      subst hlr
      obtain ⟨tsl, tsr, htl, htr, rfl⟩ : ∃ u v, QueueTrees pre l u ∧ QueueTrees pre r v ∧ ts = u ++ v := by
        refine ⟨ts.take l.length, ts.drop l.length, ?_, ?_, (List.take_append_drop _ _).symm⟩
        · have := List.forall₂_take l.length hts
          simpa [QueueTrees] using this
        · have := List.forall₂_drop l.length hts
          simpa [QueueTrees] using this
      obtain ⟨t, h1, h2, h3⟩ := ih (seq + 1) (pre ++ [nd]) (l ++ new :: r)
        (tsl ++ .node (a.weight + b.weight) ta tb :: tsr)
        (by simp [hpre]; omega) (by simp) (by simp at hfuel ⊢; omega)
        (by
          intro x hx
          simp only [List.mem_append, List.mem_cons] at hx
          rcases hx with hx | rfl | hx
          · have := hidx x (by simp [hx]); simp; omega
          · simp [new, hpre]
          · have := hidx x (by simp [hx]); simp; omega)
        (by simp at hbound ⊢; omega)
        (by
          intro x hx
          have hl : l = [] ∧ r = [] := by
            have := congrArg List.length hx
            simp at this
            constructor <;> apply List.length_eq_zero_iff.1 <;> omega
          obtain ⟨rfl, rfl⟩ := hl
          simp at hx
          subst hx
          simp [new, hpre])
        (by
          refine List.rel_append (queueTrees_append _ _ _ _ htl) ?_
          exact .cons ⟨hnew, rfl⟩ (queueTrees_append _ _ _ _ htr))
        (by
          intro t ht
          simp only [List.mem_append, List.mem_cons] at ht
          rcases ht with ht | rfl | ht
          · exact hsum t (by simp [ht])
          · refine ⟨?_, hsum ta (by simp), hsum tb (by simp)⟩
            rw [ha.2, hb.2]
          · exact hsum t (by simp [ht]))
      refine ⟨t, ?_, ?_, h3⟩
      · rw [← henq] at h1
        simpa [mergeLoop, nd, new] using h1
      · refine h2.trans ?_
        simp only [List.flatMap_append, List.flatMap_cons, HTree.leaves]
        rw [← List.append_assoc (ta.leaves)]
        exact (List.perm_append_comm_assoc _ _ _)

/-! ## BuildTree -/

theorem enqueue_trees (pre : List TreeNode) (x : Pending) (t : HTree) (q : List Pending) (ts : List HTree)
    (hx : Built pre x.idx t ∧ t.weight = x.weight) (h : QueueTrees pre q ts) :
    ∃ us, QueueTrees pre (enqueue x q) us ∧ us.Perm (t :: ts) := by
  obtain ⟨l, r, rfl, henq⟩ := enqueue_split x q
  refine ⟨ts.take l.length ++ t :: ts.drop l.length, ?_, ?_⟩
  · rw [henq]
    refine List.rel_append ?_ (.cons hx ?_)
    · have := List.forall₂_take l.length h
      simpa [QueueTrees] using this
    · have := List.forall₂_drop l.length h
      simpa [QueueTrees] using this
  · refine List.perm_middle.trans ?_
    rw [List.take_append_drop]

theorem foldr_enqueue_trees (pre : List TreeNode) (q : List Pending) (ts : List HTree)
    (h : QueueTrees pre q ts) : ∃ us, QueueTrees pre (q.foldr enqueue []) us ∧ us.Perm ts := by
  induction h with
  | nil => exact ⟨[], .nil, .nil⟩
  | cons hx _ ih =>
    obtain ⟨us, h1, h2⟩ := ih
    obtain ⟨vs, h3, h4⟩ := enqueue_trees pre _ _ _ _ hx h1
    exact ⟨vs, h3, h4.trans (h2.cons _)⟩

/-- The one-leaf tree of a table entry. -/
def leafTree (e : Sym × Count) : HTree := .leaf e.1 (e.2.setWidth 85)

theorem leafPendings_trees (pre : List TreeNode) (t : Table) (rest : List TreeNode) :
    QueueTrees (pre ++ leafNodes t ++ rest) (leafPendings pre.length t) (t.map leafTree) := by
  induction t generalizing pre with
  | nil => exact .nil
  | cons e t ih =>
    obtain ⟨s, c⟩ := e
    refine .cons ⟨?_, rfl⟩ ?_
    · exact .leaf (by simp [leafNodes])
    · change QueueTrees _ (leafPendings (pre.length + 1) t) (t.map leafTree)
      have := ih (pre ++ [.leaf s (c.setWidth 85)])
      simpa [leafNodes] using this

theorem leafPendings_idx (i : Nat) (t : Table) : ∀ x ∈ leafPendings i t, x.idx < i + t.length := by
  induction t generalizing i with
  | nil => simp [leafPendings]
  | cons e t ih =>
    intro x hx
    rcases List.mem_cons.1 hx with rfl | hx
    · simp
    · have := ih (i + 1) x hx
      simp only [List.length_cons]
      omega

theorem buildTree_ok (t : Table) (h : t ≠ []) :
    buildTree t = .ok (leafNodes t ++ mergeLoop t.length t.length 0 (initialQueue t)) := by
  cases t with
  | nil => exact absurd rfl h
  | cons e t => rfl

/-- 2n − 1 nodes (R102). -/
theorem buildTree_length (t : Table) (nodes : List TreeNode) (h : buildTree t = .ok nodes) :
    nodes.length = 2 * t.length - 1 ∧ t ≠ [] := by
  cases t with
  | nil => simp [buildTree] at h
  | cons e t =>
    rw [buildTree_ok _ (by simp)] at h
    cases h
    rw [List.length_append, length_leafNodes, length_mergeLoop _ _ _ _ (by simp)]
    simp
    omega

/-- A tree stands at the last node; its leaves are the entries of the table; every weight is the sum of
the children's (R102, R103, R109). -/
theorem buildTree_builds (t : Table) (nodes : List TreeNode) (h : buildTree t = .ok nodes)
    (hb : 2 * t.length ≤ 2 ^ 22) :
    ∃ tr, Built nodes (nodes.length - 1) tr ∧ tr.leaves.Perm (t.map fun e => (e.1, e.2.setWidth 85)) ∧
      tr.Summed := by
  have hne := (buildTree_length t nodes h).2
  rw [buildTree_ok t hne] at h
  cases h
  have h0 : QueueTrees (leafNodes t) (leafPendings 0 t) (t.map leafTree) := by
    simpa using leafPendings_trees [] t []
  obtain ⟨us, h1, h2⟩ := foldr_enqueue_trees _ _ _ h0
  obtain ⟨tr, h3, h4, h5⟩ := mergeLoop_builds t.length t.length 0 (leafNodes t) (initialQueue t) us
    (by simp) (by
      intro hc
      have := length_initialQueue t
      rw [hc] at this
      exact hne (List.length_eq_zero_iff.1 this.symm)) (by simp)
    (by
      intro x hx
      have := leafPendings_idx 0 t x ((foldr_enqueue_perm _).mem_iff.1 hx)
      simpa using this)
    (by simp; omega)
    (by
      intro x hx
      have hl := length_initialQueue t
      rw [hx] at hl
      have := leafPendings_idx 0 t x ((foldr_enqueue_perm _).mem_iff.1 (by
        have : x ∈ initialQueue t := by rw [hx]; simp
        exact this))
      simp at hl this ⊢
      omega)
    h1
    (by
      intro u hu
      obtain ⟨e, -, rfl⟩ := List.mem_map.1 (h2.mem_iff.1 hu)
      trivial)
  refine ⟨tr, h3, ?_, h5⟩
  refine h4.trans ((h2.flatMap_right _).trans ?_)
  clear h1 h2 h3 h4 h5 h0 hne hb
  induction t with
  | nil => exact .nil
  | cons e t ih => simpa [leafTree, HTree.leaves] using ih

end Sys2Proof.Machine
end

