-- ==== Sys2Proof/Laws/Codes.lean ====
section
/-! SUPPORT. What AssignCodes makes: the breadth-first table holds exactly the root-to-leaf paths of the
tree (41_code_assigner.md R121), which are prefix-free, complete and no longer than leaves − 1 (R124). -/

namespace Sys2Proof.Machine

/-! ## Paths of a tree -/

theorem HTree.size_pos (t : HTree) : 0 < t.size := by cases t <;> simp [HTree.size]

theorem HTree.leaves_ne_nil (t : HTree) : t.leaves ≠ [] := by
  induction t with
  | leaf => simp [HTree.leaves]
  | node _ _ _ ihl _ => simp [HTree.leaves, ihl]

theorem HTree.leaves_length_pos (t : HTree) : 0 < t.leaves.length :=
  List.length_pos_iff.2 t.leaves_ne_nil

/-- A tree with n leaves has 2n − 1 nodes (R109(b)). -/
theorem HTree.size_eq (t : HTree) : t.size = 2 * t.leaves.length - 1 := by
  induction t with
  | leaf => rfl
  | node _ l r ihl ihr =>
    have := l.leaves_length_pos
    have := r.leaves_length_pos
    simp only [HTree.size, HTree.leaves, List.length_append, ihl, ihr]
    omega

theorem HTree.paths_prefix (t : HTree) (p : Bits) :
    t.paths p = (t.paths []).map (fun e => (e.1, p ++ e.2)) := by
  induction t generalizing p with
  | leaf => simp [HTree.paths]
  | node _ l r ihl ihr =>
    simp only [HTree.paths, List.nil_append, List.map_append]
    rw [ihl (p ++ [false]), ihr (p ++ [true]), ihl [false], ihr [true]]
    simp [Function.comp_def]

/-- The paths of an Internal: those of the left child behind 0, those of the right child behind 1. -/
theorem HTree.paths_node (w : Weight) (l r : HTree) :
    (HTree.node w l r).paths [] =
      (l.paths []).map (fun e => (e.1, false :: e.2)) ++ (r.paths []).map (fun e => (e.1, true :: e.2)) := by
  simp only [HTree.paths, List.nil_append]
  rw [l.paths_prefix, r.paths_prefix]
  rfl

/-- The symbols of the paths are those of the leaves, in the same order. -/
theorem HTree.paths_syms (t : HTree) (p : Bits) :
    (t.paths p).map Prod.fst = t.leaves.map Prod.fst := by
  induction t generalizing p with
  | leaf => rfl
  | node _ _ _ ihl ihr => simp [HTree.paths, HTree.leaves, ihl, ihr]

@[simp] theorem HTree.paths_length (t : HTree) (p : Bits) : (t.paths p).length = t.leaves.length := by
  simpa using congrArg List.length (t.paths_syms p)

/-- No code is a prefix of another (R124(a)). -/
theorem HTree.paths_prefixFree (t : HTree) :
    (t.paths []).Pairwise (fun a b => ¬ a.2 <+: b.2 ∧ ¬ b.2 <+: a.2) := by
  induction t with
  | leaf => simp [HTree.paths]
  | node w l r ihl ihr =>
    rw [HTree.paths_node, List.pairwise_append]
    refine ⟨?_, ?_, ?_⟩
    · rw [List.pairwise_map]
      exact ihl.imp fun h => by simpa using h
    · rw [List.pairwise_map]
      exact ihr.imp fun h => by simpa using h
    · intro a ha b hb
      obtain ⟨a', -, rfl⟩ := List.mem_map.1 ha
      obtain ⟨b', -, rfl⟩ := List.mem_map.1 hb
      simp

/-- The sum of 2^(−len) over the codes is 1 (R124(e)). -/
theorem HTree.paths_kraft (t : HTree) :
    ((t.paths []).map (fun e => (1 / 2 : ℚ) ^ e.2.length)).sum = 1 := by
  induction t with
  | leaf => simp [HTree.paths]
  | node w l r ihl ihr =>
    have half : ∀ (b : Bool) (xs : List (Sym × Bits)),
        ((xs.map (fun e => (e.1, b :: e.2))).map (fun e => (1 / 2 : ℚ) ^ e.2.length)).sum =
          (1 / 2) * (xs.map (fun e => (1 / 2 : ℚ) ^ e.2.length)).sum := by
      intro b xs
      induction xs with
      | nil => simp
      | cons x xs ih =>
        simp only [List.map_cons, List.sum_cons, List.length_cons, mul_add, ih]
        rw [pow_succ]
        ring
    rw [HTree.paths_node, List.map_append, List.sum_append, half, half, ihl, ihr]
    norm_num

/-- A code is shorter than the number of leaves (R124(d)). -/
theorem HTree.paths_short (t : HTree) : ∀ e ∈ t.paths [], e.2.length + 1 ≤ t.leaves.length := by
  induction t with
  | leaf => simp [HTree.paths, HTree.leaves]
  | node w l r ihl ihr =>
    intro e he
    have := l.leaves_length_pos
    have := r.leaves_length_pos
    rw [HTree.paths_node] at he
    simp only [HTree.leaves, List.length_append]
    rcases List.mem_append.1 he with he | he
    · obtain ⟨a, ha, rfl⟩ := List.mem_map.1 he
      have := ihl a ha
      simp only [List.length_cons]
      omega
    · obtain ⟨a, ha, rfl⟩ := List.mem_map.1 he
      have := ihr a ha
      simp only [List.length_cons]
      omega

/-- A tree with an Internal root gives no empty code (R124(b)). -/
theorem HTree.paths_nonempty (w : Weight) (l r : HTree) :
    ∀ e ∈ (HTree.node w l r).paths [], e.2 ≠ [] := by
  intro e he
  rw [HTree.paths_node] at he
  rcases List.mem_append.1 he with he | he <;> (obtain ⟨a, -, rfl⟩ := List.mem_map.1 he; simp)

/-! ## The breadth-first loop -/

/-- The codes the trees waiting in BQ stand for. -/
def queuePaths (q : List (Nat × Bits)) (ts : List HTree) : List (Sym × Bits) :=
  (q.zip ts).flatMap (fun e => e.2.paths e.1.2)

/-- The trees standing at the indices in BQ. -/
def QueueAt (node : Nat → TreeNode) (q : List (Nat × Bits)) (ts : List HTree) : Prop :=
  List.Forall₂ (fun e t => TreeAt node e.1 t) q ts

/-- The loop records every path once, each with its own length (R121). -/
theorem bfs_paths (node : Nat → TreeNode) (fuel : Nat) (q : List (Nat × Bits)) (ts : List HTree)
    (h : QueueAt node q ts) (hf : (ts.map HTree.size).sum ≤ fuel) :
    ((bfs node fuel q).map (fun e => (e.sym, e.code))).Perm (queuePaths q ts) ∧
      ∀ e ∈ bfs node fuel q, e.len = e.code.length := by
  induction fuel generalizing q ts with
  | zero =>
    cases h with
    | nil => exact ⟨.nil, by simp [bfs]⟩
    | @cons _ t _ ts _ _ =>
      have := t.size_pos
      simp at hf
      omega
  | succ fuel ih =>
    cases h with
    | nil => exact ⟨.nil, by simp [bfs]⟩
    | @cons e t q ts he hq =>
      obtain ⟨i, p⟩ := e
      cases he with
      | leaf hn =>
        simp only [HTree.size, List.map_cons, List.sum_cons] at hf
        obtain ⟨h1, h2⟩ := ih q ts hq (by omega)
        simp only at hn
        simp only [bfs, hn]
        refine ⟨?_, ?_⟩
        · simpa [queuePaths, HTree.paths] using h1
        · intro e he
          rcases List.mem_cons.1 he with rfl | he
          · rfl
          · exact h2 e he
      | @node _ w l r tl tr hn hl hr =>
        simp only [HTree.size, List.map_cons, List.sum_cons] at hf
        have hq' : QueueAt node (q ++ [(l.toNat, p ++ [false]), (r.toNat, p ++ [true])]) (ts ++ [tl, tr]) :=
          List.rel_append hq (.cons hl (.cons hr .nil))
        obtain ⟨h1, h2⟩ := ih _ _ hq' (by simp; omega)
        simp only at hn
        simp only [bfs, hn]
        refine ⟨h1.trans ?_, h2⟩
        have hlen : q.length = ts.length := hq.length_eq
        simp only [queuePaths, List.zip_append hlen, List.flatMap_append, List.zip_cons_cons,
          List.flatMap_cons, HTree.paths]
        refine List.perm_append_comm.trans ?_
        simp

/-- The table of a tree with an Internal root: its paths, in some order. -/
theorem assignCodes_paths (node : Nat → TreeNode) (root cnt : Nat) (t : HTree) (es : List CodeEntry)
    (ht : TreeAt node root t) (hc : t.size ≤ cnt) (h : assignCodes node root cnt = .ok es) :
    (es.map (fun e => (e.sym, e.code))).Perm (t.paths []) ∧ (∀ e ∈ es, e.len = e.code.length) ∧
      ∃ w l r, t = .node w l r := by
  simp only [assignCodes] at h
  split at h
  · cases h
  · rename_i hleaf
    cases h
    obtain ⟨h1, h2⟩ := bfs_paths node cnt [(root, [])] [t] (.cons ht .nil) (by simpa using hc)
    refine ⟨by simpa [queuePaths] using h1, h2, ?_⟩
    cases ht with
    | leaf hn => simp [hn, TreeNode.isLeaf] at hleaf
    | node => exact ⟨_, _, _, rfl⟩

end Sys2Proof.Machine
end

