-- ==== Sys2Proof/Laws/Table.lean ====
section
/-! SUPPORT. The frequency table as a map in canonical form: lookup after an update, and that updates
keep the form. -/

namespace Sys2Proof.Machine

theorem tableSorted_cons (a : Sym × Count) (t : Table) :
    tableSorted (a :: t) = true ↔ (∀ e ∈ t, a.1 < e.1) ∧ tableSorted t = true := by
  induction t generalizing a with
  | nil => simp [tableSorted]
  | cons b t ih =>
    simp only [tableSorted, Bool.and_eq_true, decide_eq_true_eq, List.mem_cons, forall_eq_or_imp]
    constructor
    · rintro ⟨h, hr⟩
      exact ⟨⟨h, fun c hc => BitVec.lt_trans h (((ih b).1 hr).1 c hc)⟩, hr⟩
    · rintro ⟨⟨h, -⟩, hr⟩
      exact ⟨h, hr⟩

theorem tableGet_eq_none (t : Table) (s : Sym) : tableGet t s = none ↔ ∀ e ∈ t, e.1 ≠ s := by
  induction t with
  | nil => simp [tableGet]
  | cons a t ih =>
    obtain ⟨k, c⟩ := a
    by_cases h : k = s
    · simp [tableGet, h]
    · simp [tableGet, h, ih]

theorem tableGet_isSome (t : Table) (s : Sym) : (tableGet t s).isSome = true ↔ ∃ e ∈ t, e.1 = s := by
  rw [← Option.ne_none_iff_isSome, ne_eq, tableGet_eq_none]
  push Not
  rfl

theorem tableGet_of_mem (t : Table) (h : tableSorted t = true) (s : Sym) (c : Count) (m : (s, c) ∈ t) :
    tableGet t s = some c := by
  induction t with
  | nil => simp at m
  | cons a t ih =>
    obtain ⟨k, d⟩ := a
    rw [tableSorted_cons] at h
    rcases List.mem_cons.1 m with e | m
    · obtain ⟨rfl, rfl⟩ := Prod.mk.inj e
      simp [tableGet]
    · have hlt : k < s := h.1 _ m
      rw [tableGet, if_neg (by rintro rfl; exact absurd hlt (BitVec.lt_irrefl _)), ih h.2 m]

theorem mem_of_tableGet (t : Table) (s : Sym) (c : Count) (h : tableGet t s = some c) : (s, c) ∈ t := by
  induction t with
  | nil => simp [tableGet] at h
  | cons a t ih =>
    obtain ⟨k, d⟩ := a
    by_cases hk : k = s
    · simp only [tableGet, hk, if_true, Option.some.injEq] at h
      simp [hk, h]
    · simp only [tableGet, hk, if_false] at h
      exact List.mem_cons_of_mem _ (ih h)

theorem tableGet_tableSet (t : Table) (s k : Sym) (c : Count) :
    tableGet (tableSet t s c) k = if k = s then some c else tableGet t k := by
  induction t with
  | nil => simp [tableSet, tableGet, eq_comm]
  | cons a t ih =>
    obtain ⟨a, d⟩ := a
    simp only [tableSet]
    split
    · simp only [tableGet, eq_comm]
    · split
      · rename_i _ he
        subst he
        by_cases hk : a = k
        · simp [tableGet, hk]
        · simp [tableGet, hk, Ne.symm hk]
      · rename_i _ he
        simp only [tableGet, ih]
        by_cases hk : a = k
        · subst hk; simp [he]
        · simp [hk]

theorem tableGet_tableDel (t : Table) (s k : Sym) :
    tableGet (tableDel t s) k = if k = s then none else tableGet t k := by
  induction t with
  | nil => simp [tableDel, tableGet]
  | cons a t ih =>
    obtain ⟨a, d⟩ := a
    simp only [tableDel] at ih ⊢
    by_cases ha : a = s
    · subst ha
      rw [List.filter_cons_of_neg (by simp), ih]
      by_cases hk : k = a
      · simp [hk]
      · simp [tableGet, hk, Ne.symm hk]
    · rw [List.filter_cons_of_pos (by simp [ha])]
      simp only [tableGet, ih]
      by_cases hk : a = k
      · subst hk; simp [ha]
      · simp [hk]

theorem mem_tableSet (t : Table) (s : Sym) (c : Count) (e : Sym × Count) (h : e ∈ tableSet t s c) :
    e = (s, c) ∨ e ∈ t := by
  induction t with
  | nil => simpa [tableSet] using h
  | cons a t ih =>
    obtain ⟨k, d⟩ := a
    simp only [tableSet] at h
    split at h
    · simpa using h
    · split at h
      · rcases List.mem_cons.1 h with h | h
        · exact .inl h
        · exact .inr (List.mem_cons_of_mem _ h)
      · rcases List.mem_cons.1 h with h | h
        · exact .inr (h ▸ List.mem_cons_self)
        · rcases ih h with h | h
          · exact .inl h
          · exact .inr (List.mem_cons_of_mem _ h)

theorem tableSorted_tableSet (t : Table) (s : Sym) (c : Count) (h : tableSorted t = true) :
    tableSorted (tableSet t s c) = true := by
  induction t with
  | nil => rfl
  | cons a t ih =>
    obtain ⟨k, d⟩ := a
    have h' := (tableSorted_cons (k, d) t).1 h
    simp only [tableSet]
    split
    · rename_i hlt
      rw [tableSorted_cons]
      refine ⟨fun e he => ?_, h⟩
      rcases List.mem_cons.1 he with rfl | he
      · exact hlt
      · exact BitVec.lt_trans hlt (h'.1 e he)
    · split
      · rename_i _ he
        subst he
        rw [tableSorted_cons]
        exact h'
      · rename_i hlt he
        rw [tableSorted_cons]
        refine ⟨fun e hm => ?_, ih h'.2⟩
        rcases mem_tableSet _ _ _ _ hm with rfl | hm
        · simp only [BitVec.lt_def] at *
          have : k.toNat ≠ s.toNat := fun hn => he (BitVec.eq_of_toNat_eq hn)
          omega
        · exact h'.1 e hm

theorem tableSorted_filter (p : Sym × Count → Bool) (t : Table) (h : tableSorted t = true) :
    tableSorted (t.filter p) = true := by
  induction t with
  | nil => rfl
  | cons a t ih =>
    rw [tableSorted_cons] at h
    by_cases hp : p a = true
    · rw [List.filter_cons_of_pos hp, tableSorted_cons]
      exact ⟨fun e he => h.1 e (List.mem_filter.1 he).1, ih h.2⟩
    · rw [List.filter_cons_of_neg hp]
      exact ih h.2

theorem length_tableSet (t : Table) (s : Sym) (c : Count) :
    (tableSet t s c).length ≤ t.length + 1 ∧
      (tableSorted t = true → (tableGet t s).isSome = true → (tableSet t s c).length = t.length) := by
  induction t with
  | nil => simp [tableSet, tableGet]
  | cons a t ih =>
    obtain ⟨k, d⟩ := a
    simp only [tableSet]
    split
    · rename_i hlt
      refine ⟨by simp, fun hs hg => ?_⟩
      rw [tableGet_isSome] at hg
      obtain ⟨e, he, rfl⟩ := hg
      rcases List.mem_cons.1 he with rfl | he
      · exact absurd hlt (BitVec.lt_irrefl _)
      · exact absurd (BitVec.lt_trans hlt (((tableSorted_cons _ _).1 hs).1 e he)) (BitVec.lt_irrefl _)
    · split
      · simp
      · rename_i _ he
        refine ⟨by simpa using ih.1, fun hs hg => ?_⟩
        have := ih.2 ((tableSorted_cons _ _).1 hs).2 (by simpa [tableGet, he] using hg)
        simp [this]

/-- An insertion of a new symbol adds one entry. -/
theorem length_tableSet_new (t : Table) (s : Sym) (c : Count) (h : tableGet t s = none) :
    (tableSet t s c).length = t.length + 1 := by
  induction t with
  | nil => rfl
  | cons a t ih =>
    obtain ⟨k, d⟩ := a
    have hk : k ≠ s := (tableGet_eq_none _ _).1 h (k, d) List.mem_cons_self
    simp only [tableGet, hk, if_false] at h
    simp only [tableSet, hk, if_false]
    split <;> simp [ih h]

theorem tableOk_iff (t : Table) :
    tableOk t = true ↔ tableSorted t = true ∧ ∀ e ∈ t, isScalar e.1.toNat = true := by
  simp [tableOk, List.all_eq_true]

theorem tableOk_tableSet (t : Table) (s : Sym) (c : Count) (h : tableOk t = true)
    (hs : isScalar s.toNat = true) : tableOk (tableSet t s c) = true := by
  rw [tableOk_iff] at *
  refine ⟨tableSorted_tableSet _ _ _ h.1, fun e he => ?_⟩
  rcases mem_tableSet _ _ _ _ he with rfl | he
  · exact hs
  · exact h.2 e he

theorem tableOk_tableDel (t : Table) (s : Sym) (h : tableOk t = true) : tableOk (tableDel t s) = true := by
  rw [tableOk_iff] at *
  exact ⟨tableSorted_filter _ _ h.1, fun e he => h.2 e (List.mem_filter.1 he).1⟩

theorem length_tableDel (t : Table) (s : Sym) : (tableDel t s).length ≤ t.length :=
  List.length_filter_le _ _

/-- Two canonical tables with the same lookups are the same list. -/
theorem table_ext (t u : Table) (ht : tableSorted t = true) (hu : tableSorted u = true)
    (h : ∀ s, tableGet t s = tableGet u s) : t = u := by
  induction t generalizing u with
  | nil =>
    cases u with
    | nil => rfl
    | cons b u =>
      have := h b.1
      rw [tableGet_of_mem (b :: u) hu b.1 b.2 (by simp)] at this
      simp [tableGet] at this
  | cons a t ih =>
    have ha := tableGet_of_mem (a :: t) ht a.1 a.2 (by simp)
    have hau : (a.1, a.2) ∈ u := mem_of_tableGet _ _ _ ((h a.1) ▸ ha)
    cases u with
    | nil => simp at hau
    | cons b u =>
      have hb := tableGet_of_mem (b :: u) hu b.1 b.2 (by simp)
      have hbt : (b.1, b.2) ∈ a :: t := mem_of_tableGet _ _ _ ((h b.1).symm ▸ hb)
      have ht' := (tableSorted_cons _ _).1 ht
      have hu' := (tableSorted_cons _ _).1 hu
      have hab : a = b := by
        rcases List.mem_cons.1 hau with e | m1
        · exact e
        · rcases List.mem_cons.1 hbt with e | m2
          · exact e.symm
          · exact absurd (BitVec.lt_trans (hu'.1 _ m1) (ht'.1 _ m2)) (BitVec.lt_irrefl _)
      subst hab
      congr 1
      refine ih u ht'.2 hu'.2 fun s => ?_
      by_cases hs : a.1 = s
      · subst hs
        rw [(tableGet_eq_none t a.1).2 fun e he => (fun hh => absurd (hh ▸ ht'.1 e he) (BitVec.lt_irrefl _)),
          (tableGet_eq_none u a.1).2 fun e he => (fun hh => absurd (hh ▸ hu'.1 e he) (BitVec.lt_irrefl _))]
      · have := h s
        simpa [tableGet, hs] using this

end Sys2Proof.Machine
end

