-- ==== Sys2Proof/Laws/Utf8.lean ====
section
/-! SUPPORT. UTF-8 of a symbol (43_header_codec.md R141): decoding inverts encoding, and decoding accepts
nothing but the encodings of SCALAR symbols. -/

namespace Sys2Proof.Machine

@[simp] theorem contBits_contByte (x : BitVec 6) : contBits (contByte x) = some x := by
  have h1 : (contByte x).extractLsb' 6 2 = 0b10#2 := by
    apply BitVec.eq_of_getLsbD_eq
    intro i hi
    simp only [contByte, BitVec.getLsbD_extractLsb', hi, decide_true, Bool.true_and, BitVec.getLsbD_append]
    rw [if_neg (by omega)]
    congr 1
    omega
  have h2 : (contByte x).extractLsb' 0 6 = x := by
    apply BitVec.eq_of_getLsbD_eq
    intro i hi
    simp only [contByte, BitVec.getLsbD_extractLsb', hi, decide_true, Bool.true_and, BitVec.getLsbD_append,
      Nat.zero_add, if_true]
  simp [contBits, h1, h2]

theorem contBits_eq_some (b : Byte) (x : BitVec 6) (h : contBits b = some x) : b = contByte x := by
  simp only [contBits] at h
  split at h
  · rename_i h2
    cases h
    apply BitVec.eq_of_getLsbD_eq
    intro i hi
    simp only [contByte, BitVec.getLsbD_append, ← h2, BitVec.getLsbD_extractLsb']
    split
    · simp [*]
    · rw [show 6 + (i - 6) = i by omega]
      simp [show i - 6 < 2 by omega]
  · cases h

/-- A symbol below 2^k has no bit from k on. -/
theorem getLsbD_of_toNat_lt (s : Sym) (k i : Nat) (h : s.toNat < 2 ^ k) (hi : k ≤ i) : s.getLsbD i = false := by
  rw [BitVec.getLsbD, Nat.testBit_lt_two_pow]
  exact Nat.lt_of_lt_of_le h (Nat.pow_le_pow_right (by omega) hi)

theorem utf8dec_utf8 (s : Sym) (hs : isScalar s.toNat = true) (rest : List Byte) :
    utf8dec (utf8 s ++ rest) = some (s, rest) := by
  have hmax : s.toNat ≤ 0x10FFFF := by
    simp only [isScalar, Bool.or_eq_true, Bool.and_eq_true, decide_eq_true_eq] at hs
    omega
  simp only [utf8]
  split
  · rename_i h
    have e : (0#13 ++ (0#1 ++ s.extractLsb' 0 7 : Byte) : Sym) = s := by
      apply BitVec.eq_of_getLsbD_eq
      intro i hi
      simp only [BitVec.getLsbD_append, BitVec.getLsbD_extractLsb', BitVec.getLsbD_zero]
      by_cases h7 : i < 7
      · simp [h7, show i < 8 by omega]
      · rw [getLsbD_of_toNat_lt s 7 i h (by omega)]
        simp [h7]
    have hb : (0#1 ++ s.extractLsb' 0 7 : Byte).toNat < 0x80 := by
      rw [BitVec.toNat_append]
      simp
      omega
    simp only [List.cons_append, List.nil_append, utf8dec, if_pos hb, e]
  · rename_i h0
    split
    · rename_i h
      have e : (0#10 ++ (0b110#3 ++ s.extractLsb' 6 5 : Byte).extractLsb' 0 5 ++ s.extractLsb' 0 6 : Sym) = s := by
        apply BitVec.eq_of_getLsbD_eq
        intro i hi
        simp only [BitVec.getLsbD_append, BitVec.getLsbD_extractLsb', BitVec.getLsbD_zero]
        by_cases h6 : i < 6
        · simp [h6]
        · by_cases h11 : i < 11
          · simp [h6, show i - 6 < 5 by omega, show 6 + (i - 6) = i by omega]
          · rw [getLsbD_of_toNat_lt s 11 i h (by omega)]
            simp [h6, show ¬ i - 6 < 5 by omega]
      have hb : (0b110#3 ++ s.extractLsb' 6 5 : Byte).toNat = 0xC0 + s.toNat / 64 := by
        rw [BitVec.toNat_append, BitVec.extractLsb'_toNat]
        simp only [Nat.shiftRight_eq_div_pow]
        rw [Nat.mod_eq_of_lt (by omega), ← Nat.shiftLeft_add_eq_or_of_lt (by omega)]
        rfl
      simp only [List.cons_append, List.nil_append, utf8dec, hb, contBits_contByte, e]
      rw [if_neg (by omega), if_neg (by omega), if_pos (by omega)]
    · rename_i h1
      split
      · rename_i h
        have e : (0#5 ++ (0b1110#4 ++ s.extractLsb' 12 4 : Byte).extractLsb' 0 4 ++ s.extractLsb' 6 6
            ++ s.extractLsb' 0 6 : Sym) = s := by
          apply BitVec.eq_of_getLsbD_eq
          intro i hi
          simp only [BitVec.getLsbD_append, BitVec.getLsbD_extractLsb', BitVec.getLsbD_zero]
          by_cases h6 : i < 6
          · simp [h6]
          · by_cases h12 : i < 12
            · simp [h6, show i - 6 < 6 by omega, show 6 + (i - 6) = i by omega]
            · by_cases h16 : i < 16
              · simp [h6, show ¬ i - 6 < 6 by omega, show i - 6 - 6 < 4 by omega,
                  show 12 + (i - 6 - 6) = i by omega]
              · rw [getLsbD_of_toNat_lt s 16 i h (by omega)]
                simp [h6, show ¬ i - 6 < 6 by omega, show ¬ i - 6 - 6 < 4 by omega]
        have hb : (0b1110#4 ++ s.extractLsb' 12 4 : Byte).toNat = 0xE0 + s.toNat / 4096 := by
          rw [BitVec.toNat_append, BitVec.extractLsb'_toNat]
          simp only [Nat.shiftRight_eq_div_pow]
          rw [Nat.mod_eq_of_lt (by omega), ← Nat.shiftLeft_add_eq_or_of_lt (by omega)]
          rfl
        simp only [List.cons_append, List.nil_append, utf8dec, hb, contBits_contByte, e, hs]
        rw [if_neg (by omega), if_neg (by omega), if_neg (by omega), if_pos (by omega)]
        simp [h1]
      · rename_i h
        have e : ((0b11110#5 ++ s.extractLsb' 18 3 : Byte).extractLsb' 0 3 ++ s.extractLsb' 12 6
            ++ s.extractLsb' 6 6 ++ s.extractLsb' 0 6 : Sym) = s := by
          apply BitVec.eq_of_getLsbD_eq
          intro i hi
          simp only [BitVec.getLsbD_append, BitVec.getLsbD_extractLsb']
          by_cases h6 : i < 6
          · simp [h6]
          · by_cases h12 : i < 12
            · simp [h6, show i - 6 < 6 by omega, show 6 + (i - 6) = i by omega]
            · by_cases h18 : i < 18
              · simp [h6, show ¬ i - 6 < 6 by omega, show i - 6 - 6 < 6 by omega,
                  show 12 + (i - 6 - 6) = i by omega]
              · simp [h6, show ¬ i - 6 < 6 by omega, show ¬ i - 6 - 6 < 6 by omega,
                  show i - 6 - 6 - 6 < 3 by omega, show 18 + (i - 6 - 6 - 6) = i by omega]
        have hb : (0b11110#5 ++ s.extractLsb' 18 3 : Byte).toNat = 0xF0 + s.toNat / 262144 := by
          rw [BitVec.toNat_append, BitVec.extractLsb'_toNat]
          simp only [Nat.shiftRight_eq_div_pow]
          rw [Nat.mod_eq_of_lt (by omega), ← Nat.shiftLeft_add_eq_or_of_lt (by omega)]
          rfl
        simp only [List.cons_append, List.nil_append, utf8dec, hb, contBits_contByte, e, hs]
        rw [if_neg (by omega), if_neg (by omega), if_neg (by omega), if_neg (by omega), if_pos (by omega)]
        simp [h]

/-- A byte is its top `8 - k` bits followed by its low `k` bits. -/
theorem byte_split3 (b : Byte) (h : b.toNat / 32 = 6) : b = 0b110#3 ++ b.extractLsb' 0 5 := by
  apply BitVec.eq_of_toNat_eq
  rw [BitVec.toNat_append, BitVec.extractLsb'_toNat, ← Nat.shiftLeft_add_eq_or_of_lt (by omega)]
  simp [Nat.shiftLeft_eq]
  omega

theorem byte_split4 (b : Byte) (h : b.toNat / 16 = 14) : b = 0b1110#4 ++ b.extractLsb' 0 4 := by
  apply BitVec.eq_of_toNat_eq
  rw [BitVec.toNat_append, BitVec.extractLsb'_toNat, ← Nat.shiftLeft_add_eq_or_of_lt (by omega)]
  simp [Nat.shiftLeft_eq]
  omega

theorem byte_split5 (b : Byte) (h : b.toNat / 8 = 30) : b = 0b11110#5 ++ b.extractLsb' 0 3 := by
  apply BitVec.eq_of_toNat_eq
  rw [BitVec.toNat_append, BitVec.extractLsb'_toNat, ← Nat.shiftLeft_add_eq_or_of_lt (by omega)]
  simp [Nat.shiftLeft_eq]
  omega

theorem toNat_append {m n : Nat} (x : BitVec m) (y : BitVec n) : (x ++ y).toNat = x.toNat * 2 ^ n + y.toNat := by
  rw [BitVec.toNat_append, ← Nat.shiftLeft_add_eq_or_of_lt y.isLt, Nat.shiftLeft_eq]

/-- Decoding accepts the shortest form of a SCALAR symbol and nothing else (R141). -/
theorem utf8dec_sound (h : List Byte) (s : Sym) (r : List Byte) (hd : utf8dec h = some (s, r)) :
    isScalar s.toNat = true ∧ h = utf8 s ++ r := by
  cases h with
  | nil => simp [utf8dec] at hd
  | cons b0 h =>
    have hb0 := b0.isLt
    simp only [utf8dec] at hd
    split at hd
    · rename_i h0
      simp only [Option.some.injEq, Prod.mk.injEq] at hd
      obtain ⟨rfl, rfl⟩ := hd
      have e : (0#13 ++ b0 : Sym).toNat = b0.toNat := by rw [toNat_append]; simp
      refine ⟨by rw [e]; simp [isScalar]; omega, ?_⟩
      rw [utf8, if_pos (by omega)]
      simp only [List.cons_append, List.nil_append, List.cons.injEq, and_true]
      apply BitVec.eq_of_toNat_eq
      rw [toNat_append, BitVec.extractLsb'_toNat, e]
      simp
      omega
    · split at hd
      · cases hd
      · split at hd
        · split at hd
          · rename_i b1 h
            split at hd
            · rename_i x1 hx1
              simp only [Option.some.injEq, Prod.mk.injEq] at hd
              obtain ⟨rfl, rfl⟩ := hd
              have hb := contBits_eq_some _ _ hx1
              subst hb
              have e : (0#10 ++ b0.extractLsb' 0 5 ++ x1 : Sym).toNat = (b0.toNat % 32) * 64 + x1.toNat := by
                rw [toNat_append, toNat_append, BitVec.extractLsb'_toNat]; simp
              have hx := x1.isLt
              refine ⟨by rw [e]; simp [isScalar]; omega, ?_⟩
              rw [utf8, if_neg (by omega), if_pos (by omega)]
              simp only [List.cons_append, List.nil_append, List.cons.injEq, and_true]
              refine ⟨?_, ?_⟩
              · rw [byte_split3 b0 (by omega)]
                congr 1
                apply BitVec.eq_of_toNat_eq
                rw [BitVec.extractLsb'_toNat, BitVec.extractLsb'_toNat, ← byte_split3 b0 (by omega), e]
                simp [Nat.shiftRight_eq_div_pow]
                omega
              · congr 1
                apply BitVec.eq_of_toNat_eq
                rw [BitVec.extractLsb'_toNat, e]
                simp
                omega
            · cases hd
          · cases hd
        · split at hd
          · split at hd
            · rename_i b1 b2 h
              split at hd
              · rename_i x1 x2 hx1 hx2
                split at hd
                · cases hd
                · rename_i hg
                  simp only [Option.some.injEq, Prod.mk.injEq] at hd
                  obtain ⟨rfl, rfl⟩ := hd
                  simp only [Bool.or_eq_true, decide_eq_true_eq, Bool.not_eq_true', not_or,
                    Bool.not_eq_false] at hg
                  have hb1 := contBits_eq_some _ _ hx1
                  have hb2 := contBits_eq_some _ _ hx2
                  subst hb1 hb2
                  have e : (0#5 ++ b0.extractLsb' 0 4 ++ x1 ++ x2 : Sym).toNat =
                      (b0.toNat % 16) * 4096 + x1.toNat * 64 + x2.toNat := by
                    rw [toNat_append, toNat_append, toNat_append, BitVec.extractLsb'_toNat]; simp; omega
                  have hx := x1.isLt
                  have hy := x2.isLt
                  refine ⟨hg.2, ?_⟩
                  rw [utf8, if_neg (by omega), if_neg (by omega), if_pos (by omega)]
                  simp only [List.cons_append, List.nil_append, List.cons.injEq, and_true]
                  refine ⟨?_, ?_, ?_⟩
                  · rw [byte_split4 b0 (by omega)]
                    congr 1
                    apply BitVec.eq_of_toNat_eq
                    rw [BitVec.extractLsb'_toNat, BitVec.extractLsb'_toNat, ← byte_split4 b0 (by omega), e]
                    simp [Nat.shiftRight_eq_div_pow]
                    omega
                  · congr 1
                    apply BitVec.eq_of_toNat_eq
                    rw [BitVec.extractLsb'_toNat, e]
                    simp [Nat.shiftRight_eq_div_pow]
                    omega
                  · congr 1
                    apply BitVec.eq_of_toNat_eq
                    rw [BitVec.extractLsb'_toNat, e]
                    simp
                    omega
              · cases hd
            · cases hd
          · split at hd
            · split at hd
              · rename_i b1 b2 b3 h
                split at hd
                · rename_i x1 x2 x3 hx1 hx2 hx3
                  split at hd
                  · cases hd
                  · rename_i hg
                    simp only [Option.some.injEq, Prod.mk.injEq] at hd
                    obtain ⟨rfl, rfl⟩ := hd
                    simp only [Bool.or_eq_true, decide_eq_true_eq, Bool.not_eq_true', not_or,
                      Bool.not_eq_false] at hg
                    have hb1 := contBits_eq_some _ _ hx1
                    have hb2 := contBits_eq_some _ _ hx2
                    have hb3 := contBits_eq_some _ _ hx3
                    subst hb1 hb2 hb3
                    have e : (b0.extractLsb' 0 3 ++ x1 ++ x2 ++ x3 : Sym).toNat =
                        (b0.toNat % 8) * 262144 + x1.toNat * 4096 + x2.toNat * 64 + x3.toNat := by
                      rw [toNat_append, toNat_append, toNat_append, BitVec.extractLsb'_toNat]; simp; omega
                    have hx := x1.isLt
                    have hy := x2.isLt
                    have hz := x3.isLt
                    refine ⟨hg.2, ?_⟩
                    rw [utf8, if_neg (by omega), if_neg (by omega), if_neg (by omega)]
                    simp only [List.cons_append, List.nil_append, List.cons.injEq, and_true]
                    refine ⟨?_, ?_, ?_, ?_⟩
                    · rw [byte_split5 b0 (by omega)]
                      congr 1
                      apply BitVec.eq_of_toNat_eq
                      rw [BitVec.extractLsb'_toNat, BitVec.extractLsb'_toNat, ← byte_split5 b0 (by omega), e]
                      simp [Nat.shiftRight_eq_div_pow]
                      omega
                    · congr 1
                      apply BitVec.eq_of_toNat_eq
                      rw [BitVec.extractLsb'_toNat, e]
                      simp [Nat.shiftRight_eq_div_pow]
                      omega
                    · congr 1
                      apply BitVec.eq_of_toNat_eq
                      rw [BitVec.extractLsb'_toNat, e]
                      simp [Nat.shiftRight_eq_div_pow]
                      omega
                    · congr 1
                      apply BitVec.eq_of_toNat_eq
                      rw [BitVec.extractLsb'_toNat, e]
                      simp
                      omega
                · cases hd
              · cases hd
            · cases hd

end Sys2Proof.Machine
end

