-- ==== Sys2Proof/Laws/Header.lean ====
section
/-! SUPPORT. The header codec: each scanner inverts its renderer (43_header_codec.md R140 to R156). -/

namespace Sys2Proof.Machine

/-! ## Symbols -/

/-- No symbol other than the backslash has a UTF-8 form that begins with the byte 0x5C. -/
theorem utf8_head (s : Sym) (h : s.toNat ≠ 0x5C) : ∃ b bs, utf8 s = b :: bs ∧ b ≠ 0x5C#8 := by
  simp only [utf8]
  split
  · refine ⟨_, _, rfl, fun hc => h ?_⟩
    have := congrArg BitVec.toNat hc
    rw [toNat_append, BitVec.extractLsb'_toNat] at this
    simp at this
    omega
  · split
    · refine ⟨_, _, rfl, fun hc => ?_⟩
      have := congrArg BitVec.toNat hc
      rw [toNat_append, BitVec.extractLsb'_toNat] at this
      simp at this
      omega
    · split
      · refine ⟨_, _, rfl, fun hc => ?_⟩
        have := congrArg BitVec.toNat hc
        rw [toNat_append, BitVec.extractLsb'_toNat] at this
        simp at this
        omega
      · refine ⟨_, _, rfl, fun hc => ?_⟩
        have := congrArg BitVec.toNat hc
        rw [toNat_append, BitVec.extractLsb'_toNat] at this
        simp at this
        omega

/-- An escaped symbol is one of the seven of R140, and its letter reads back (R150). -/
theorem escapeLetter_some (s : Sym) (e : Byte) (h : escapeLetter s = some e) :
    escapedSymbol e = some s := by
  have key : ∀ n : Nat, s.toNat = n → s = BitVec.ofNat 21 n := by
    rintro n rfl
    simp
  simp only [escapeLetter] at h
  split at h <;> first | (cases h; rename_i hn; rw [key _ hn]; rfl) | cases h

/-- A symbol without an escape token is none of the seven. -/
theorem escapeLetter_none (s : Sym) (h : escapeLetter s = none) :
    s.toNat ≠ 0x5C ∧ mustEscape s = false := by
  have hne : ∀ n : Nat, n ∈ [0x0D, 0x09, 0x0A, 0x5C, 0x27, 0x22, 0x00] → s.toNat ≠ n := by
    intro n hn hs
    simp only [escapeLetter, hs] at h
    fin_cases hn <;> simp at h
  refine ⟨hne _ (by simp), ?_⟩
  have hs : ∀ n : Nat, n < 2 ^ 21 → s.toNat ≠ n → ¬ s = BitVec.ofNat 21 n := by
    rintro n hn h1 rfl
    rw [BitVec.toNat_ofNat, Nat.mod_eq_of_lt hn] at h1
    exact h1 rfl
  simp only [mustEscape, Bool.or_eq_false_iff, beq_eq_false_iff_ne]
  refine ⟨⟨⟨⟨⟨?_, ?_⟩, ?_⟩, ?_⟩, ?_⟩, ?_⟩ <;> exact hs _ (by norm_num) (hne _ (by simp))

/-- ScanSymbol inverts `render` (R140, R150). -/
theorem scanSymbol_render (s : Sym) (hs : isScalar s.toNat = true) (rest : List Byte) :
    scanSymbol (render s ++ rest) = .ok (s, rest) := by
  simp only [render]
  cases he : escapeLetter s with
  | some e => simp [scanSymbol, escapeLetter_some s e he]
  | none =>
    obtain ⟨h1, h2⟩ := escapeLetter_none s he
    obtain ⟨b, bs, hb, hne⟩ := utf8_head s h1
    have := utf8dec_utf8 s hs rest
    simp only [hb, List.cons_append] at this ⊢
    simp [scanSymbol, hne, this, h2]

/-! ## Counts -/

theorem toNat_digit (n : Nat) (h : n < 10) : (BitVec.ofNat 8 (0x30 + n)).toNat = 0x30 + n := by
  rw [BitVec.toNat_ofNat, Nat.mod_eq_of_lt (by omega)]

theorem decimalValue_append (acc : Nat) (xs ys : List Byte) :
    decimalValue acc (xs ++ ys) = (decimalValue acc xs).bind (fun a => decimalValue a ys) := by
  induction xs generalizing acc with
  | nil => rfl
  | cons x xs ih =>
    simp only [List.cons_append, decimalValue]
    split
    · exact ih _
    · rfl

/-- The decimal numeral reads back (R142, R151). -/
theorem decimalValue_decDigits (fuel n : Nat) (h : n < 10 ^ fuel) (hf : 0 < fuel) :
    decimalValue 0 (decDigits fuel n) = some n := by
  induction fuel generalizing n with
  | zero => omega
  | succ fuel ih =>
    simp only [decDigits]
    split
    · rename_i h10
      simp only [decimalValue, toNat_digit n h10]
      rw [if_pos (by omega)]
      simp
    · rename_i h10
      have hd : n / 10 < 10 ^ fuel := by
        rw [Nat.div_lt_iff_lt_mul (by omega)]
        rw [pow_succ] at h
        exact h
      have hf' : 0 < fuel := by
        rcases Nat.eq_zero_or_pos fuel with rfl | hp
        · simp at h; omega
        · exact hp
      rw [decimalValue_append, ih _ hd hf', Option.bind_some, decimalValue, toNat_digit _ (by omega),
        if_pos (by omega), decimalValue]
      congr 1
      omega

/-- Every byte of a numeral is a digit. -/
theorem decDigits_bytes (fuel n : Nat) : ∀ b ∈ decDigits fuel n, 0x30 ≤ b.toNat ∧ b.toNat ≤ 0x39 := by
  induction fuel generalizing n with
  | zero => simp [decDigits]
  | succ fuel ih =>
    intro b hb
    simp only [decDigits] at hb
    split at hb
    · rename_i h10
      simp only [List.mem_singleton] at hb
      subst hb
      rw [toNat_digit n h10]
      omega
    · rcases List.mem_append.1 hb with hb | hb
      · exact ih _ b hb
      · simp only [List.mem_singleton] at hb
        subst hb
        rw [toNat_digit _ (by omega)]
        omega

theorem decDigits_ne_nil (fuel n : Nat) (h : 0 < fuel) : decDigits fuel n ≠ [] := by
  cases fuel with
  | zero => omega
  | succ fuel =>
    simp only [decDigits]
    split <;> simp

/-- The count field ends at the first comma or brace. -/
theorem splitField_append (f : List Byte) (b : Byte) (r : List Byte)
    (hf : ∀ x ∈ f, x ≠ 0x2C#8 ∧ x ≠ 0x7D#8) (hb : b = 0x2C#8 ∨ b = 0x7D#8) :
    splitField (f ++ b :: r) = some (f, b :: r) := by
  induction f with
  | nil => simp [splitField, hb]
  | cons x f ih =>
    have hx := hf x (by simp)
    simp only [List.cons_append, splitField]
    rw [if_neg (by simp [hx.1, hx.2]), ih fun y hy => hf y (by simp [hy])]

/-- ScanCount reads any digit string of value below 2^64 (R151). -/
theorem scanCount_field (f : List Byte) (v : Nat) (b : Byte) (r : List Byte) (hne : f ≠ [])
    (hv : decimalValue 0 f = some v) (hlt : v < 2 ^ 64)
    (hf : ∀ x ∈ f, 0x30 ≤ x.toNat ∧ x.toNat ≤ 0x39) (hb : b = 0x2C#8 ∨ b = 0x7D#8) :
    scanCount (f ++ b :: r) = .ok (BitVec.ofNat 64 v, b :: r) := by
  have hs : splitField (f ++ b :: r) = some (f, b :: r) := by
    refine splitField_append f b r (fun x hx => ?_) hb
    have := hf x hx
    constructor <;> (rintro rfl; simp at this)
  simp only [scanCount, hs, hne, if_false, hv, hlt, if_true]

/-- ScanCount inverts `dec` (R142, R151). -/
theorem scanCount_decCount (c : Count) (b : Byte) (r : List Byte) (hb : b = 0x2C#8 ∨ b = 0x7D#8) :
    scanCount (decCount c ++ b :: r) = .ok (c, b :: r) := by
  have := scanCount_field (decCount c) c.toNat b r (decDigits_ne_nil _ _ (by omega))
    (decimalValue_decDigits 20 c.toNat (Nat.lt_of_lt_of_le c.isLt (by norm_num)) (by omega)) c.isLt
    (decDigits_bytes _ _) hb
  rw [this]
  simp

/-! ## Entries -/

/-- One entry with a symbol not yet in the table is added to it (R149, R152). -/
theorem scanEntry_text (maxSyms : Nat) (t : Table) (e : Sym × Count) (b : Byte) (r : List Byte)
    (hs : isScalar e.1.toNat = true) (hb : b = 0x2C#8 ∨ b = 0x7D#8) (hnew : tableGet t e.1 = none)
    (hcap : t.length ≠ maxSyms) :
    scanEntry maxSyms t (entryText e ++ b :: r) = .ok (tableSet t e.1 e.2, b :: r) := by
  simp only [scanEntry, entryText, List.append_assoc, List.cons_append, List.nil_append, expect, if_true,
    bind, Except.bind, scanSymbol_render e.1 hs, scanCount_decCount e.2 b r hb, hnew, Option.isSome_none,
    Bool.false_eq_true, if_false, hcap]

/-- A symbol above all of a table's symbols is appended. -/
theorem tableSet_append (t : Table) (s : Sym) (c : Count) (h : ∀ e ∈ t, e.1 < s) :
    tableSet t s c = t ++ [(s, c)] := by
  induction t with
  | nil => rfl
  | cons a t ih =>
    obtain ⟨k, d⟩ := a
    have hk : k < s := h (k, d) (by simp)
    rw [tableSet, if_neg (by simp only [BitVec.lt_def] at *; omega),
      if_neg (by rintro rfl; exact absurd hk (BitVec.lt_irrefl _)), ih fun e he => h e (by simp [he])]
    rfl

theorem entryText_length_pos (e : Sym × Count) : 0 < (entryText e).length := by simp [entryText]

/-- The entries of a canonical table read back one behind the other (R149, R156). -/
theorem scanEntries_text (maxSyms : Nat) (done todo : Table) (fuel : Nat) (r : List Byte)
    (hne : todo ≠ []) (hok : tableSorted (done ++ todo) = true)
    (hs : ∀ e ∈ todo, isScalar e.1.toNat = true) (hcap : (done ++ todo).length ≤ maxSyms)
    (hfuel : todo.length ≤ fuel) :
    scanEntries maxSyms fuel done (entriesText todo ++ 0x7D#8 :: r) = .ok (done ++ todo, r) := by
  induction todo generalizing done fuel with
  | nil => exact absurd rfl hne
  | cons e todo ih =>
    cases fuel with
    | zero => simp at hfuel
    | succ fuel =>
      have hlt : ∀ d ∈ done, d.1 < e.1 := by
        intro d hd
        induction done with
        | nil => simp at hd
        | cons a done ihd =>
          rw [List.cons_append, tableSorted_cons] at hok
          rcases List.mem_cons.1 hd with rfl | hd
          · exact hok.1 e (by simp)
          · refine ihd hok.2 (by simp at hcap ⊢; omega) hd
      have hnew : tableGet done e.1 = none := by
        rw [tableGet_eq_none]
        intro d hd heq
        exact absurd (heq ▸ hlt d hd) (BitVec.lt_irrefl _)
      have hset := tableSet_append done e.1 e.2 hlt
      have hlen : done.length ≠ maxSyms := by
        simp only [List.length_append, List.length_cons] at hcap
        omega
      cases todo with
      | nil =>
        simp only [entriesText, scanEntries]
        rw [scanEntry_text maxSyms done e 0x7D#8 r (hs e (by simp)) (.inr rfl) hnew hlen]
        simp [hset]
      | cons f todo =>
        have := ih (done ++ [e]) fuel (by simp) (by simpa using hok) (fun x hx => hs x (by simp [hx]))
          (by simpa using hcap) (by simpa using hfuel)
        simp only [entriesText, scanEntries, List.append_assoc, List.cons_append, List.nil_append]
        rw [scanEntry_text maxSyms done e 0x2C#8 _ (hs e (by simp)) (.inl rfl) hnew hlen]
        simp only [expect, if_true, hset]
        rw [if_neg (by decide)]
        simpa using this

theorem entriesText_length (t : Table) : t.length ≤ (entriesText t).length := by
  induction t with
  | nil => simp
  | cons e t ih =>
    have := entryText_length_pos e
    cases t with
    | nil => simp only [entriesText, List.length_cons, List.length_nil]; omega
    | cons f t => simp only [entriesText, List.length_append, List.length_cons] at ih ⊢; omega

theorem entriesText_head (e : Sym × Count) (t : Table) :
    ∃ bs, entriesText (e :: t) = 0x27#8 :: bs := by
  cases t with
  | nil => exact ⟨_, rfl⟩
  | cons f t => exact ⟨_, rfl⟩

/-- ScanHeader inverts `header` (R143, R149, R156). -/
theorem scanHeader_text (maxSyms : Nat) (t : Table) (pad : BitVec 3) (hok : tableOk t = true)
    (hcap : t.length ≤ maxSyms) : scanHeader maxSyms (headerText t pad) = .ok (t, pad) := by
  rw [tableOk_iff] at hok
  have htail : scanTail [0x3A#8, 0x3A#8, BitVec.ofNat 8 (0x30 + pad.toNat), 0x0A#8] = .ok pad := by
    revert pad
    decide
  have hlist : scanList maxSyms (headerText t pad) =
      .ok (t, [0x3A#8, 0x3A#8, BitVec.ofNat 8 (0x30 + pad.toNat), 0x0A#8]) := by
    cases t with
    | nil => simp [scanList, headerText, expect, entriesText]
    | cons e t =>
      obtain ⟨bs, hbs⟩ := entriesText_head e t
      have := scanEntries_text maxSyms [] (e :: t)
        (entriesText (e :: t) ++ 0x7D#8 :: [0x3A#8, 0x3A#8, BitVec.ofNat 8 (0x30 + pad.toNat), 0x0A#8]).length
        [0x3A#8, 0x3A#8, BitVec.ofNat 8 (0x30 + pad.toNat), 0x0A#8] (by simp) (by simpa using hok.1) hok.2
        (by simpa using hcap) (by have := entriesText_length (e :: t); simp at this ⊢; omega)
      simp only [List.nil_append] at this
      rw [hbs] at this
      simp only [scanList, headerText, List.cons_append, List.nil_append, expect, if_true, hbs] at this ⊢
      rw [if_neg (by decide)]
      exact this
  simp only [scanHeader, hlist, bind, Except.bind, htail]

/-! ## The prefix and the image -/

@[simp] theorem length_lengthText (n : Word) : (lengthText n).length = 32 := by simp [lengthText]

/-- ParsePrefix inverts `prefix` (R145, R148). -/
theorem parseLength_lengthText (n : Word) : parseLength 0 (lengthText n) = .ok n.toNat := by
  have gen : ∀ (k : Nat), k ≤ 32 → ∀ acc : Nat,
      parseLength acc (((List.range 32).map (fun i => if n.getLsbD (31 - i) then 0x31#8 else 0x30#8)).drop (32 - k))
        = .ok (acc * 2 ^ k + n.toNat % 2 ^ k) := by
    intro k
    induction k with
    | zero =>
      intro _ acc
      rw [List.drop_eq_nil_of_le (by simp)]
      simp [parseLength, Nat.mod_one]
    | succ k ih =>
      intro hk acc
      rw [List.drop_eq_getElem_cons (by simp; omega)]
      simp only [List.getElem_map, List.getElem_range, show 32 - (k + 1) + 1 = 32 - k by omega]
      rw [show 31 - (32 - (k + 1)) = k by omega]
      have hbit : n.toNat % 2 ^ (k + 1) = (if n.getLsbD k then 2 ^ k else 0) + n.toNat % 2 ^ k := by
        rw [Nat.mod_pow_succ, BitVec.getLsbD, Nat.testBit_eq_decide_div_mod_eq]
        rcases Nat.mod_two_eq_zero_or_one (n.toNat / 2 ^ k) with h | h <;> simp [h, Nat.add_comm]
      by_cases hb : n.getLsbD k = true
      · simp only [hb, if_true, parseLength]
        rw [if_neg (by decide), ih (by omega), hbit, hb]
        simp only [if_true]
        congr 1
        ring
      · simp only [hb, parseLength, if_true, Bool.false_eq_true, if_false]
        rw [ih (by omega), hbit]
        simp only [hb, Bool.false_eq_true, if_false]
        congr 1
        ring
  have := gen 32 (by omega) 0
  simp only [Nat.sub_self, List.drop_zero, Nat.zero_mul, Nat.zero_add] at this
  rw [Nat.mod_eq_of_lt n.isLt] at this
  exact this

/-- RDHDR's steps 1 to 5 on prefix, header and payload (R147). -/
theorem parseImage_parts (maxSyms maxPay : Nat) (n : Word) (h pay : List Byte) (hn : n.toNat = h.length) :
    parseImage maxSyms maxPay (lengthText n ++ h ++ pay) =
      match scanHeader maxSyms h with
      | .error f => .error f
      | .ok (t, pad) => if pay.length > maxPay then .error .capacity else .ok ⟨t, pad, pay, h.length⟩ := by
  have h1 : (lengthText n ++ h ++ pay).take 32 = lengthText n := by
    rw [List.append_assoc, List.take_left' (by simp)]
  have h2 : (lengthText n ++ h ++ pay).drop 32 = h ++ pay := by
    rw [List.append_assoc, List.drop_left' (by simp)]
  have h3 : (lengthText n ++ h ++ pay).drop (32 + h.length) = pay := by
    rw [← List.drop_drop, h2, List.drop_left]
  have h4 : (h ++ pay).take h.length = h := List.take_left
  simp only [parseImage, h1, parseLength_lengthText, hn, h2, h3, h4, List.length_append, length_lengthText]
  rw [if_neg (by omega), if_neg (by omega), show 32 + h.length + pay.length - 32 - h.length = pay.length by omega]
  all_goals rfl

/-- RDHDR's steps on an image WRHDR writes (R156). -/
theorem parseImage_imageText (maxSyms maxPay : Nat) (t : Table) (pad : BitVec 3) (pay : List Byte)
    (hok : tableOk t = true) (hcap : t.length ≤ maxSyms) (hlen : (headerText t pad).length < 2 ^ 32)
    (hpay : pay.length ≤ maxPay) :
    parseImage maxSyms maxPay (imageText t pad pay) = .ok ⟨t, pad, pay, (headerText t pad).length⟩ := by
  rw [imageText, parseImage_parts _ _ _ _ _ (by rw [BitVec.toNat_ofNat, Nat.mod_eq_of_lt hlen]),
    scanHeader_text maxSyms t pad hok hcap]
  simp only [if_neg (Nat.not_lt.2 hpay)]

end Sys2Proof.Machine
end

