-- ==== Sys2Proof/Laws/State.lean ====
section
/-! SUPPORT. What each update of the state leaves in each field. -/

namespace Sys2Proof.Machine

/-! ## raise -/

@[simp] theorem raise_done (f : Failure) (s : State) : (raise f s).done = true := rfl
@[simp] theorem raise_error (f : Failure) (s : State) : (raise f s).error = true := rfl
@[simp] theorem raise_treeValid (f : Failure) (s : State) : (raise f s).treeValid = s.treeValid := rfl
@[simp] theorem raise_ctValid (f : Failure) (s : State) : (raise f s).ctValid = s.ctValid := rfl
@[simp] theorem raise_busy (f : Failure) (s : State) : (raise f s).busy = false := rfl
@[simp] theorem raise_hosterr (f : Failure) (s : State) : (raise f s).hosterr = s.hosterr := rfl
@[simp] theorem raise_err (f : Failure) (s : State) : (raise f s).err = f.code := rfl
@[simp] theorem raise_errinfo (f : Failure) (s : State) : (raise f s).errinfo = f.info := rfl
@[simp] theorem raise_pad (f : Failure) (s : State) : (raise f s).pad = s.pad := rfl
@[simp] theorem raise_ftLen (f : Failure) (s : State) : (raise f s).ftLen = s.ftLen := rfl
@[simp] theorem raise_sinLen (f : Failure) (s : State) : (raise f s).sinLen = s.sinLen := rfl
@[simp] theorem raise_payLen (f : Failure) (s : State) : (raise f s).payLen = s.payLen := rfl
@[simp] theorem raise_imgLen (f : Failure) (s : State) : (raise f s).imgLen = s.imgLen := rfl
@[simp] theorem raise_soutLen (f : Failure) (s : State) : (raise f s).soutLen = s.soutLen := rfl
@[simp] theorem raise_hdrLen (f : Failure) (s : State) : (raise f s).hdrLen = s.hdrLen := rfl
@[simp] theorem raise_nodeCnt (f : Failure) (s : State) : (raise f s).nodeCnt = s.nodeCnt := rfl
@[simp] theorem raise_root (f : Failure) (s : State) : (raise f s).root = s.root := rfl
@[simp] theorem raise_ctLen (f : Failure) (s : State) : (raise f s).ctLen = s.ctLen := rfl
@[simp] theorem raise_ft (f : Failure) (s : State) : (raise f s).ft = s.ft := rfl
@[simp] theorem raise_node (f : Failure) (s : State) : (raise f s).node = s.node := rfl
@[simp] theorem raise_ct (f : Failure) (s : State) : (raise f s).ct = s.ct := rfl
@[simp] theorem raise_sin (f : Failure) (s : State) : (raise f s).sin = s.sin := rfl
@[simp] theorem raise_sout (f : Failure) (s : State) : (raise f s).sout = s.sout := rfl
@[simp] theorem raise_pay (f : Failure) (s : State) : (raise f s).pay = s.pay := rfl
@[simp] theorem raise_img (f : Failure) (s : State) : (raise f s).img = s.img := rfl
@[simp] theorem raise_input (f : Failure) (s : State) : (raise f s).input = s.input := rfl
@[simp] theorem raise_resp (f : Failure) (s : State) : (raise f s).resp = s.resp := rfl

/-! ## complete -/

@[simp] theorem complete_done (s : State) : (complete s).done = true := rfl
@[simp] theorem complete_error (s : State) : (complete s).error = false := rfl
@[simp] theorem complete_treeValid (s : State) : (complete s).treeValid = s.treeValid := rfl
@[simp] theorem complete_ctValid (s : State) : (complete s).ctValid = s.ctValid := rfl
@[simp] theorem complete_busy (s : State) : (complete s).busy = false := rfl
@[simp] theorem complete_hosterr (s : State) : (complete s).hosterr = s.hosterr := rfl
@[simp] theorem complete_err (s : State) : (complete s).err = .success := rfl
@[simp] theorem complete_errinfo (s : State) : (complete s).errinfo = 0#21 := rfl
@[simp] theorem complete_pad (s : State) : (complete s).pad = s.pad := rfl
@[simp] theorem complete_ftLen (s : State) : (complete s).ftLen = s.ftLen := rfl
@[simp] theorem complete_sinLen (s : State) : (complete s).sinLen = s.sinLen := rfl
@[simp] theorem complete_payLen (s : State) : (complete s).payLen = s.payLen := rfl
@[simp] theorem complete_imgLen (s : State) : (complete s).imgLen = s.imgLen := rfl
@[simp] theorem complete_soutLen (s : State) : (complete s).soutLen = s.soutLen := rfl
@[simp] theorem complete_hdrLen (s : State) : (complete s).hdrLen = s.hdrLen := rfl
@[simp] theorem complete_nodeCnt (s : State) : (complete s).nodeCnt = s.nodeCnt := rfl
@[simp] theorem complete_root (s : State) : (complete s).root = s.root := rfl
@[simp] theorem complete_ctLen (s : State) : (complete s).ctLen = s.ctLen := rfl
@[simp] theorem complete_ft (s : State) : (complete s).ft = s.ft := rfl
@[simp] theorem complete_node (s : State) : (complete s).node = s.node := rfl
@[simp] theorem complete_ct (s : State) : (complete s).ct = s.ct := rfl
@[simp] theorem complete_sin (s : State) : (complete s).sin = s.sin := rfl
@[simp] theorem complete_sout (s : State) : (complete s).sout = s.sout := rfl
@[simp] theorem complete_pay (s : State) : (complete s).pay = s.pay := rfl
@[simp] theorem complete_img (s : State) : (complete s).img = s.img := rfl
@[simp] theorem complete_input (s : State) : (complete s).input = s.input := rfl
@[simp] theorem complete_resp (s : State) : (complete s).resp = s.resp := rfl

/-! ## succeeded -/

@[simp] theorem succeeded_done (s : State) : (succeeded s).done = true := rfl
@[simp] theorem succeeded_error (s : State) : (succeeded s).error = false := rfl
@[simp] theorem succeeded_treeValid (s : State) : (succeeded s).treeValid = s.treeValid := rfl
@[simp] theorem succeeded_ctValid (s : State) : (succeeded s).ctValid = s.ctValid := rfl
@[simp] theorem succeeded_busy (s : State) : (succeeded s).busy = false := rfl
@[simp] theorem succeeded_hosterr (s : State) : (succeeded s).hosterr = s.hosterr := rfl
@[simp] theorem succeeded_err (s : State) : (succeeded s).err = .success := rfl
@[simp] theorem succeeded_errinfo (s : State) : (succeeded s).errinfo = 0#21 := rfl
@[simp] theorem succeeded_pad (s : State) : (succeeded s).pad = s.pad := rfl
@[simp] theorem succeeded_ftLen (s : State) : (succeeded s).ftLen = s.ftLen := rfl
@[simp] theorem succeeded_sinLen (s : State) : (succeeded s).sinLen = s.sinLen := rfl
@[simp] theorem succeeded_payLen (s : State) : (succeeded s).payLen = s.payLen := rfl
@[simp] theorem succeeded_imgLen (s : State) : (succeeded s).imgLen = s.imgLen := rfl
@[simp] theorem succeeded_soutLen (s : State) : (succeeded s).soutLen = s.soutLen := rfl
@[simp] theorem succeeded_hdrLen (s : State) : (succeeded s).hdrLen = s.hdrLen := rfl
@[simp] theorem succeeded_nodeCnt (s : State) : (succeeded s).nodeCnt = s.nodeCnt := rfl
@[simp] theorem succeeded_root (s : State) : (succeeded s).root = s.root := rfl
@[simp] theorem succeeded_ctLen (s : State) : (succeeded s).ctLen = s.ctLen := rfl
@[simp] theorem succeeded_ft (s : State) : (succeeded s).ft = s.ft := rfl
@[simp] theorem succeeded_node (s : State) : (succeeded s).node = s.node := rfl
@[simp] theorem succeeded_ct (s : State) : (succeeded s).ct = s.ct := rfl
@[simp] theorem succeeded_sin (s : State) : (succeeded s).sin = s.sin := rfl
@[simp] theorem succeeded_sout (s : State) : (succeeded s).sout = s.sout := rfl
@[simp] theorem succeeded_pay (s : State) : (succeeded s).pay = s.pay := rfl
@[simp] theorem succeeded_img (s : State) : (succeeded s).img = s.img := rfl
@[simp] theorem succeeded_input (s : State) : (succeeded s).input = s.input := rfl
@[simp] theorem succeeded_resp (s : State) : (succeeded s).resp = s.resp := rfl

/-! ## failed -/

@[simp] theorem failed_done (c : ResultCode) (x : Sym) (s : State) : (failed c x s).done = true := rfl
@[simp] theorem failed_error (c : ResultCode) (x : Sym) (s : State) : (failed c x s).error = true := rfl
@[simp] theorem failed_treeValid (c : ResultCode) (x : Sym) (s : State) : (failed c x s).treeValid = s.treeValid := rfl
@[simp] theorem failed_ctValid (c : ResultCode) (x : Sym) (s : State) : (failed c x s).ctValid = s.ctValid := rfl
@[simp] theorem failed_busy (c : ResultCode) (x : Sym) (s : State) : (failed c x s).busy = false := rfl
@[simp] theorem failed_hosterr (c : ResultCode) (x : Sym) (s : State) : (failed c x s).hosterr = s.hosterr := rfl
@[simp] theorem failed_err (c : ResultCode) (x : Sym) (s : State) : (failed c x s).err = c := rfl
@[simp] theorem failed_errinfo (c : ResultCode) (x : Sym) (s : State) : (failed c x s).errinfo = x := rfl
@[simp] theorem failed_pad (c : ResultCode) (x : Sym) (s : State) : (failed c x s).pad = s.pad := rfl
@[simp] theorem failed_ftLen (c : ResultCode) (x : Sym) (s : State) : (failed c x s).ftLen = s.ftLen := rfl
@[simp] theorem failed_sinLen (c : ResultCode) (x : Sym) (s : State) : (failed c x s).sinLen = s.sinLen := rfl
@[simp] theorem failed_payLen (c : ResultCode) (x : Sym) (s : State) : (failed c x s).payLen = s.payLen := rfl
@[simp] theorem failed_imgLen (c : ResultCode) (x : Sym) (s : State) : (failed c x s).imgLen = s.imgLen := rfl
@[simp] theorem failed_soutLen (c : ResultCode) (x : Sym) (s : State) : (failed c x s).soutLen = s.soutLen := rfl
@[simp] theorem failed_hdrLen (c : ResultCode) (x : Sym) (s : State) : (failed c x s).hdrLen = s.hdrLen := rfl
@[simp] theorem failed_nodeCnt (c : ResultCode) (x : Sym) (s : State) : (failed c x s).nodeCnt = s.nodeCnt := rfl
@[simp] theorem failed_root (c : ResultCode) (x : Sym) (s : State) : (failed c x s).root = s.root := rfl
@[simp] theorem failed_ctLen (c : ResultCode) (x : Sym) (s : State) : (failed c x s).ctLen = s.ctLen := rfl
@[simp] theorem failed_ft (c : ResultCode) (x : Sym) (s : State) : (failed c x s).ft = s.ft := rfl
@[simp] theorem failed_node (c : ResultCode) (x : Sym) (s : State) : (failed c x s).node = s.node := rfl
@[simp] theorem failed_ct (c : ResultCode) (x : Sym) (s : State) : (failed c x s).ct = s.ct := rfl
@[simp] theorem failed_sin (c : ResultCode) (x : Sym) (s : State) : (failed c x s).sin = s.sin := rfl
@[simp] theorem failed_sout (c : ResultCode) (x : Sym) (s : State) : (failed c x s).sout = s.sout := rfl
@[simp] theorem failed_pay (c : ResultCode) (x : Sym) (s : State) : (failed c x s).pay = s.pay := rfl
@[simp] theorem failed_img (c : ResultCode) (x : Sym) (s : State) : (failed c x s).img = s.img := rfl
@[simp] theorem failed_input (c : ResultCode) (x : Sym) (s : State) : (failed c x s).input = s.input := rfl
@[simp] theorem failed_resp (c : ResultCode) (x : Sym) (s : State) : (failed c x s).resp = s.resp := rfl

/-! ## startCommand -/

@[simp] theorem startCommand_done (s : State) : (startCommand s).done = s.done := rfl
@[simp] theorem startCommand_error (s : State) : (startCommand s).error = s.error := rfl
@[simp] theorem startCommand_treeValid (s : State) : (startCommand s).treeValid = s.treeValid := rfl
@[simp] theorem startCommand_ctValid (s : State) : (startCommand s).ctValid = s.ctValid := rfl
@[simp] theorem startCommand_busy (s : State) : (startCommand s).busy = true := rfl
@[simp] theorem startCommand_hosterr (s : State) : (startCommand s).hosterr = s.hosterr := rfl
@[simp] theorem startCommand_err (s : State) : (startCommand s).err = s.err := rfl
@[simp] theorem startCommand_errinfo (s : State) : (startCommand s).errinfo = s.errinfo := rfl
@[simp] theorem startCommand_pad (s : State) : (startCommand s).pad = s.pad := rfl
@[simp] theorem startCommand_ftLen (s : State) : (startCommand s).ftLen = s.ftLen := rfl
@[simp] theorem startCommand_sinLen (s : State) : (startCommand s).sinLen = s.sinLen := rfl
@[simp] theorem startCommand_payLen (s : State) : (startCommand s).payLen = s.payLen := rfl
@[simp] theorem startCommand_imgLen (s : State) : (startCommand s).imgLen = s.imgLen := rfl
@[simp] theorem startCommand_soutLen (s : State) : (startCommand s).soutLen = s.soutLen := rfl
@[simp] theorem startCommand_hdrLen (s : State) : (startCommand s).hdrLen = s.hdrLen := rfl
@[simp] theorem startCommand_nodeCnt (s : State) : (startCommand s).nodeCnt = s.nodeCnt := rfl
@[simp] theorem startCommand_root (s : State) : (startCommand s).root = s.root := rfl
@[simp] theorem startCommand_ctLen (s : State) : (startCommand s).ctLen = s.ctLen := rfl
@[simp] theorem startCommand_ft (s : State) : (startCommand s).ft = s.ft := rfl
@[simp] theorem startCommand_node (s : State) : (startCommand s).node = s.node := rfl
@[simp] theorem startCommand_ct (s : State) : (startCommand s).ct = s.ct := rfl
@[simp] theorem startCommand_sin (s : State) : (startCommand s).sin = s.sin := rfl
@[simp] theorem startCommand_sout (s : State) : (startCommand s).sout = s.sout := rfl
@[simp] theorem startCommand_pay (s : State) : (startCommand s).pay = s.pay := rfl
@[simp] theorem startCommand_img (s : State) : (startCommand s).img = s.img := rfl
@[simp] theorem startCommand_input (s : State) : (startCommand s).input = s.input := rfl
@[simp] theorem startCommand_resp (s : State) : (startCommand s).resp = s.resp := rfl

/-! ## invalidateCt -/

@[simp] theorem invalidateCt_done (s : State) : (invalidateCt s).done = s.done := rfl
@[simp] theorem invalidateCt_error (s : State) : (invalidateCt s).error = s.error := rfl
@[simp] theorem invalidateCt_treeValid (s : State) : (invalidateCt s).treeValid = s.treeValid := rfl
@[simp] theorem invalidateCt_ctValid (s : State) : (invalidateCt s).ctValid = false := rfl
@[simp] theorem invalidateCt_busy (s : State) : (invalidateCt s).busy = s.busy := rfl
@[simp] theorem invalidateCt_hosterr (s : State) : (invalidateCt s).hosterr = s.hosterr := rfl
@[simp] theorem invalidateCt_err (s : State) : (invalidateCt s).err = s.err := rfl
@[simp] theorem invalidateCt_errinfo (s : State) : (invalidateCt s).errinfo = s.errinfo := rfl
@[simp] theorem invalidateCt_pad (s : State) : (invalidateCt s).pad = s.pad := rfl
@[simp] theorem invalidateCt_ftLen (s : State) : (invalidateCt s).ftLen = s.ftLen := rfl
@[simp] theorem invalidateCt_sinLen (s : State) : (invalidateCt s).sinLen = s.sinLen := rfl
@[simp] theorem invalidateCt_payLen (s : State) : (invalidateCt s).payLen = s.payLen := rfl
@[simp] theorem invalidateCt_imgLen (s : State) : (invalidateCt s).imgLen = s.imgLen := rfl
@[simp] theorem invalidateCt_soutLen (s : State) : (invalidateCt s).soutLen = s.soutLen := rfl
@[simp] theorem invalidateCt_hdrLen (s : State) : (invalidateCt s).hdrLen = s.hdrLen := rfl
@[simp] theorem invalidateCt_nodeCnt (s : State) : (invalidateCt s).nodeCnt = s.nodeCnt := rfl
@[simp] theorem invalidateCt_root (s : State) : (invalidateCt s).root = s.root := rfl
@[simp] theorem invalidateCt_ctLen (s : State) : (invalidateCt s).ctLen = 0#32 := rfl
@[simp] theorem invalidateCt_ft (s : State) : (invalidateCt s).ft = s.ft := rfl
@[simp] theorem invalidateCt_node (s : State) : (invalidateCt s).node = s.node := rfl
@[simp] theorem invalidateCt_ct (s : State) : (invalidateCt s).ct = s.ct := rfl
@[simp] theorem invalidateCt_sin (s : State) : (invalidateCt s).sin = s.sin := rfl
@[simp] theorem invalidateCt_sout (s : State) : (invalidateCt s).sout = s.sout := rfl
@[simp] theorem invalidateCt_pay (s : State) : (invalidateCt s).pay = s.pay := rfl
@[simp] theorem invalidateCt_img (s : State) : (invalidateCt s).img = s.img := rfl
@[simp] theorem invalidateCt_input (s : State) : (invalidateCt s).input = s.input := rfl
@[simp] theorem invalidateCt_resp (s : State) : (invalidateCt s).resp = s.resp := rfl

/-! ## invalidateTree -/

@[simp] theorem invalidateTree_done (s : State) : (invalidateTree s).done = s.done := rfl
@[simp] theorem invalidateTree_error (s : State) : (invalidateTree s).error = s.error := rfl
@[simp] theorem invalidateTree_treeValid (s : State) : (invalidateTree s).treeValid = false := rfl
@[simp] theorem invalidateTree_ctValid (s : State) : (invalidateTree s).ctValid = false := rfl
@[simp] theorem invalidateTree_busy (s : State) : (invalidateTree s).busy = s.busy := rfl
@[simp] theorem invalidateTree_hosterr (s : State) : (invalidateTree s).hosterr = s.hosterr := rfl
@[simp] theorem invalidateTree_err (s : State) : (invalidateTree s).err = s.err := rfl
@[simp] theorem invalidateTree_errinfo (s : State) : (invalidateTree s).errinfo = s.errinfo := rfl
@[simp] theorem invalidateTree_pad (s : State) : (invalidateTree s).pad = s.pad := rfl
@[simp] theorem invalidateTree_ftLen (s : State) : (invalidateTree s).ftLen = s.ftLen := rfl
@[simp] theorem invalidateTree_sinLen (s : State) : (invalidateTree s).sinLen = s.sinLen := rfl
@[simp] theorem invalidateTree_payLen (s : State) : (invalidateTree s).payLen = s.payLen := rfl
@[simp] theorem invalidateTree_imgLen (s : State) : (invalidateTree s).imgLen = s.imgLen := rfl
@[simp] theorem invalidateTree_soutLen (s : State) : (invalidateTree s).soutLen = s.soutLen := rfl
@[simp] theorem invalidateTree_hdrLen (s : State) : (invalidateTree s).hdrLen = s.hdrLen := rfl
@[simp] theorem invalidateTree_nodeCnt (s : State) : (invalidateTree s).nodeCnt = 0#22 := rfl
@[simp] theorem invalidateTree_root (s : State) : (invalidateTree s).root = 0#22 := rfl
@[simp] theorem invalidateTree_ctLen (s : State) : (invalidateTree s).ctLen = 0#32 := rfl
@[simp] theorem invalidateTree_ft (s : State) : (invalidateTree s).ft = s.ft := rfl
@[simp] theorem invalidateTree_node (s : State) : (invalidateTree s).node = s.node := rfl
@[simp] theorem invalidateTree_ct (s : State) : (invalidateTree s).ct = s.ct := rfl
@[simp] theorem invalidateTree_sin (s : State) : (invalidateTree s).sin = s.sin := rfl
@[simp] theorem invalidateTree_sout (s : State) : (invalidateTree s).sout = s.sout := rfl
@[simp] theorem invalidateTree_pay (s : State) : (invalidateTree s).pay = s.pay := rfl
@[simp] theorem invalidateTree_img (s : State) : (invalidateTree s).img = s.img := rfl
@[simp] theorem invalidateTree_input (s : State) : (invalidateTree s).input = s.input := rfl
@[simp] theorem invalidateTree_resp (s : State) : (invalidateTree s).resp = s.resp := rfl

/-! ## refuseAccess -/

@[simp] theorem refuseAccess_done (s : State) : (refuseAccess s).done = s.done := rfl
@[simp] theorem refuseAccess_error (s : State) : (refuseAccess s).error = s.error := rfl
@[simp] theorem refuseAccess_treeValid (s : State) : (refuseAccess s).treeValid = s.treeValid := rfl
@[simp] theorem refuseAccess_ctValid (s : State) : (refuseAccess s).ctValid = s.ctValid := rfl
@[simp] theorem refuseAccess_busy (s : State) : (refuseAccess s).busy = s.busy := rfl
@[simp] theorem refuseAccess_hosterr (s : State) : (refuseAccess s).hosterr = true := rfl
@[simp] theorem refuseAccess_err (s : State) : (refuseAccess s).err = s.err := rfl
@[simp] theorem refuseAccess_errinfo (s : State) : (refuseAccess s).errinfo = s.errinfo := rfl
@[simp] theorem refuseAccess_pad (s : State) : (refuseAccess s).pad = s.pad := rfl
@[simp] theorem refuseAccess_ftLen (s : State) : (refuseAccess s).ftLen = s.ftLen := rfl
@[simp] theorem refuseAccess_sinLen (s : State) : (refuseAccess s).sinLen = s.sinLen := rfl
@[simp] theorem refuseAccess_payLen (s : State) : (refuseAccess s).payLen = s.payLen := rfl
@[simp] theorem refuseAccess_imgLen (s : State) : (refuseAccess s).imgLen = s.imgLen := rfl
@[simp] theorem refuseAccess_soutLen (s : State) : (refuseAccess s).soutLen = s.soutLen := rfl
@[simp] theorem refuseAccess_hdrLen (s : State) : (refuseAccess s).hdrLen = s.hdrLen := rfl
@[simp] theorem refuseAccess_nodeCnt (s : State) : (refuseAccess s).nodeCnt = s.nodeCnt := rfl
@[simp] theorem refuseAccess_root (s : State) : (refuseAccess s).root = s.root := rfl
@[simp] theorem refuseAccess_ctLen (s : State) : (refuseAccess s).ctLen = s.ctLen := rfl
@[simp] theorem refuseAccess_ft (s : State) : (refuseAccess s).ft = s.ft := rfl
@[simp] theorem refuseAccess_node (s : State) : (refuseAccess s).node = s.node := rfl
@[simp] theorem refuseAccess_ct (s : State) : (refuseAccess s).ct = s.ct := rfl
@[simp] theorem refuseAccess_sin (s : State) : (refuseAccess s).sin = s.sin := rfl
@[simp] theorem refuseAccess_sout (s : State) : (refuseAccess s).sout = s.sout := rfl
@[simp] theorem refuseAccess_pay (s : State) : (refuseAccess s).pay = s.pay := rfl
@[simp] theorem refuseAccess_img (s : State) : (refuseAccess s).img = s.img := rfl
@[simp] theorem refuseAccess_input (s : State) : (refuseAccess s).input = s.input := rfl
@[simp] theorem refuseAccess_resp (s : State) : (refuseAccess s).resp = s.resp := rfl

/-! ## loadTree -/

@[simp] theorem loadTree_done (n : List TreeNode) (s : State) : (loadTree n s).done = s.done := rfl
@[simp] theorem loadTree_error (n : List TreeNode) (s : State) : (loadTree n s).error = s.error := rfl
@[simp] theorem loadTree_treeValid (n : List TreeNode) (s : State) : (loadTree n s).treeValid = true := rfl
@[simp] theorem loadTree_ctValid (n : List TreeNode) (s : State) : (loadTree n s).ctValid = s.ctValid := rfl
@[simp] theorem loadTree_busy (n : List TreeNode) (s : State) : (loadTree n s).busy = s.busy := rfl
@[simp] theorem loadTree_hosterr (n : List TreeNode) (s : State) : (loadTree n s).hosterr = s.hosterr := rfl
@[simp] theorem loadTree_err (n : List TreeNode) (s : State) : (loadTree n s).err = s.err := rfl
@[simp] theorem loadTree_errinfo (n : List TreeNode) (s : State) : (loadTree n s).errinfo = s.errinfo := rfl
@[simp] theorem loadTree_pad (n : List TreeNode) (s : State) : (loadTree n s).pad = s.pad := rfl
@[simp] theorem loadTree_ftLen (n : List TreeNode) (s : State) : (loadTree n s).ftLen = s.ftLen := rfl
@[simp] theorem loadTree_sinLen (n : List TreeNode) (s : State) : (loadTree n s).sinLen = s.sinLen := rfl
@[simp] theorem loadTree_payLen (n : List TreeNode) (s : State) : (loadTree n s).payLen = s.payLen := rfl
@[simp] theorem loadTree_imgLen (n : List TreeNode) (s : State) : (loadTree n s).imgLen = s.imgLen := rfl
@[simp] theorem loadTree_soutLen (n : List TreeNode) (s : State) : (loadTree n s).soutLen = s.soutLen := rfl
@[simp] theorem loadTree_hdrLen (n : List TreeNode) (s : State) : (loadTree n s).hdrLen = s.hdrLen := rfl
@[simp] theorem loadTree_nodeCnt (n : List TreeNode) (s : State) : (loadTree n s).nodeCnt = BitVec.ofNat 22 n.length := rfl
@[simp] theorem loadTree_root (n : List TreeNode) (s : State) : (loadTree n s).root = BitVec.ofNat 22 (n.length - 1) := rfl
@[simp] theorem loadTree_ctLen (n : List TreeNode) (s : State) : (loadTree n s).ctLen = s.ctLen := rfl
@[simp] theorem loadTree_ft (n : List TreeNode) (s : State) : (loadTree n s).ft = s.ft := rfl
@[simp] theorem loadTree_node (n : List TreeNode) (s : State) : (loadTree n s).node = s.node.writeAll n := rfl
@[simp] theorem loadTree_ct (n : List TreeNode) (s : State) : (loadTree n s).ct = s.ct := rfl
@[simp] theorem loadTree_sin (n : List TreeNode) (s : State) : (loadTree n s).sin = s.sin := rfl
@[simp] theorem loadTree_sout (n : List TreeNode) (s : State) : (loadTree n s).sout = s.sout := rfl
@[simp] theorem loadTree_pay (n : List TreeNode) (s : State) : (loadTree n s).pay = s.pay := rfl
@[simp] theorem loadTree_img (n : List TreeNode) (s : State) : (loadTree n s).img = s.img := rfl
@[simp] theorem loadTree_input (n : List TreeNode) (s : State) : (loadTree n s).input = s.input := rfl
@[simp] theorem loadTree_resp (n : List TreeNode) (s : State) : (loadTree n s).resp = s.resp := rfl

/-! ## loadCodes -/

@[simp] theorem loadCodes_done (es : List CodeEntry) (s : State) : (loadCodes es s).done = s.done := rfl
@[simp] theorem loadCodes_error (es : List CodeEntry) (s : State) : (loadCodes es s).error = s.error := rfl
@[simp] theorem loadCodes_treeValid (es : List CodeEntry) (s : State) : (loadCodes es s).treeValid = s.treeValid := rfl
@[simp] theorem loadCodes_ctValid (es : List CodeEntry) (s : State) : (loadCodes es s).ctValid = true := rfl
@[simp] theorem loadCodes_busy (es : List CodeEntry) (s : State) : (loadCodes es s).busy = s.busy := rfl
@[simp] theorem loadCodes_hosterr (es : List CodeEntry) (s : State) : (loadCodes es s).hosterr = s.hosterr := rfl
@[simp] theorem loadCodes_err (es : List CodeEntry) (s : State) : (loadCodes es s).err = s.err := rfl
@[simp] theorem loadCodes_errinfo (es : List CodeEntry) (s : State) : (loadCodes es s).errinfo = s.errinfo := rfl
@[simp] theorem loadCodes_pad (es : List CodeEntry) (s : State) : (loadCodes es s).pad = s.pad := rfl
@[simp] theorem loadCodes_ftLen (es : List CodeEntry) (s : State) : (loadCodes es s).ftLen = s.ftLen := rfl
@[simp] theorem loadCodes_sinLen (es : List CodeEntry) (s : State) : (loadCodes es s).sinLen = s.sinLen := rfl
@[simp] theorem loadCodes_payLen (es : List CodeEntry) (s : State) : (loadCodes es s).payLen = s.payLen := rfl
@[simp] theorem loadCodes_imgLen (es : List CodeEntry) (s : State) : (loadCodes es s).imgLen = s.imgLen := rfl
@[simp] theorem loadCodes_soutLen (es : List CodeEntry) (s : State) : (loadCodes es s).soutLen = s.soutLen := rfl
@[simp] theorem loadCodes_hdrLen (es : List CodeEntry) (s : State) : (loadCodes es s).hdrLen = s.hdrLen := rfl
@[simp] theorem loadCodes_nodeCnt (es : List CodeEntry) (s : State) : (loadCodes es s).nodeCnt = s.nodeCnt := rfl
@[simp] theorem loadCodes_root (es : List CodeEntry) (s : State) : (loadCodes es s).root = s.root := rfl
@[simp] theorem loadCodes_ctLen (es : List CodeEntry) (s : State) : (loadCodes es s).ctLen = BitVec.ofNat 32 es.length := rfl
@[simp] theorem loadCodes_ft (es : List CodeEntry) (s : State) : (loadCodes es s).ft = s.ft := rfl
@[simp] theorem loadCodes_node (es : List CodeEntry) (s : State) : (loadCodes es s).node = s.node := rfl
@[simp] theorem loadCodes_ct (es : List CodeEntry) (s : State) : (loadCodes es s).ct = s.ct.writeAll es := rfl
@[simp] theorem loadCodes_sin (es : List CodeEntry) (s : State) : (loadCodes es s).sin = s.sin := rfl
@[simp] theorem loadCodes_sout (es : List CodeEntry) (s : State) : (loadCodes es s).sout = s.sout := rfl
@[simp] theorem loadCodes_pay (es : List CodeEntry) (s : State) : (loadCodes es s).pay = s.pay := rfl
@[simp] theorem loadCodes_img (es : List CodeEntry) (s : State) : (loadCodes es s).img = s.img := rfl
@[simp] theorem loadCodes_input (es : List CodeEntry) (s : State) : (loadCodes es s).input = s.input := rfl
@[simp] theorem loadCodes_resp (es : List CodeEntry) (s : State) : (loadCodes es s).resp = s.resp := rfl

/-! ## spoilNode -/

@[simp] theorem spoilNode_done (s : State) : (spoilNode s).done = s.done := rfl
@[simp] theorem spoilNode_error (s : State) : (spoilNode s).error = s.error := rfl
@[simp] theorem spoilNode_treeValid (s : State) : (spoilNode s).treeValid = s.treeValid := rfl
@[simp] theorem spoilNode_ctValid (s : State) : (spoilNode s).ctValid = s.ctValid := rfl
@[simp] theorem spoilNode_busy (s : State) : (spoilNode s).busy = s.busy := rfl
@[simp] theorem spoilNode_hosterr (s : State) : (spoilNode s).hosterr = s.hosterr := rfl
@[simp] theorem spoilNode_err (s : State) : (spoilNode s).err = s.err := rfl
@[simp] theorem spoilNode_errinfo (s : State) : (spoilNode s).errinfo = s.errinfo := rfl
@[simp] theorem spoilNode_pad (s : State) : (spoilNode s).pad = s.pad := rfl
@[simp] theorem spoilNode_ftLen (s : State) : (spoilNode s).ftLen = s.ftLen := rfl
@[simp] theorem spoilNode_sinLen (s : State) : (spoilNode s).sinLen = s.sinLen := rfl
@[simp] theorem spoilNode_payLen (s : State) : (spoilNode s).payLen = s.payLen := rfl
@[simp] theorem spoilNode_imgLen (s : State) : (spoilNode s).imgLen = s.imgLen := rfl
@[simp] theorem spoilNode_soutLen (s : State) : (spoilNode s).soutLen = s.soutLen := rfl
@[simp] theorem spoilNode_hdrLen (s : State) : (spoilNode s).hdrLen = s.hdrLen := rfl
@[simp] theorem spoilNode_nodeCnt (s : State) : (spoilNode s).nodeCnt = s.nodeCnt := rfl
@[simp] theorem spoilNode_root (s : State) : (spoilNode s).root = s.root := rfl
@[simp] theorem spoilNode_ctLen (s : State) : (spoilNode s).ctLen = s.ctLen := rfl
@[simp] theorem spoilNode_ft (s : State) : (spoilNode s).ft = s.ft := rfl
@[simp] theorem spoilNode_node (s : State) : (spoilNode s).node = s.node.spoil := rfl
@[simp] theorem spoilNode_ct (s : State) : (spoilNode s).ct = s.ct := rfl
@[simp] theorem spoilNode_sin (s : State) : (spoilNode s).sin = s.sin := rfl
@[simp] theorem spoilNode_sout (s : State) : (spoilNode s).sout = s.sout := rfl
@[simp] theorem spoilNode_pay (s : State) : (spoilNode s).pay = s.pay := rfl
@[simp] theorem spoilNode_img (s : State) : (spoilNode s).img = s.img := rfl
@[simp] theorem spoilNode_input (s : State) : (spoilNode s).input = s.input := rfl
@[simp] theorem spoilNode_resp (s : State) : (spoilNode s).resp = s.resp := rfl

/-! ## spoilCt -/

@[simp] theorem spoilCt_done (s : State) : (spoilCt s).done = s.done := rfl
@[simp] theorem spoilCt_error (s : State) : (spoilCt s).error = s.error := rfl
@[simp] theorem spoilCt_treeValid (s : State) : (spoilCt s).treeValid = s.treeValid := rfl
@[simp] theorem spoilCt_ctValid (s : State) : (spoilCt s).ctValid = s.ctValid := rfl
@[simp] theorem spoilCt_busy (s : State) : (spoilCt s).busy = s.busy := rfl
@[simp] theorem spoilCt_hosterr (s : State) : (spoilCt s).hosterr = s.hosterr := rfl
@[simp] theorem spoilCt_err (s : State) : (spoilCt s).err = s.err := rfl
@[simp] theorem spoilCt_errinfo (s : State) : (spoilCt s).errinfo = s.errinfo := rfl
@[simp] theorem spoilCt_pad (s : State) : (spoilCt s).pad = s.pad := rfl
@[simp] theorem spoilCt_ftLen (s : State) : (spoilCt s).ftLen = s.ftLen := rfl
@[simp] theorem spoilCt_sinLen (s : State) : (spoilCt s).sinLen = s.sinLen := rfl
@[simp] theorem spoilCt_payLen (s : State) : (spoilCt s).payLen = s.payLen := rfl
@[simp] theorem spoilCt_imgLen (s : State) : (spoilCt s).imgLen = s.imgLen := rfl
@[simp] theorem spoilCt_soutLen (s : State) : (spoilCt s).soutLen = s.soutLen := rfl
@[simp] theorem spoilCt_hdrLen (s : State) : (spoilCt s).hdrLen = s.hdrLen := rfl
@[simp] theorem spoilCt_nodeCnt (s : State) : (spoilCt s).nodeCnt = s.nodeCnt := rfl
@[simp] theorem spoilCt_root (s : State) : (spoilCt s).root = s.root := rfl
@[simp] theorem spoilCt_ctLen (s : State) : (spoilCt s).ctLen = s.ctLen := rfl
@[simp] theorem spoilCt_ft (s : State) : (spoilCt s).ft = s.ft := rfl
@[simp] theorem spoilCt_node (s : State) : (spoilCt s).node = s.node := rfl
@[simp] theorem spoilCt_ct (s : State) : (spoilCt s).ct = s.ct.spoil := rfl
@[simp] theorem spoilCt_sin (s : State) : (spoilCt s).sin = s.sin := rfl
@[simp] theorem spoilCt_sout (s : State) : (spoilCt s).sout = s.sout := rfl
@[simp] theorem spoilCt_pay (s : State) : (spoilCt s).pay = s.pay := rfl
@[simp] theorem spoilCt_img (s : State) : (spoilCt s).img = s.img := rfl
@[simp] theorem spoilCt_input (s : State) : (spoilCt s).input = s.input := rfl
@[simp] theorem spoilCt_resp (s : State) : (spoilCt s).resp = s.resp := rfl

/-! ## spoilSout -/

@[simp] theorem spoilSout_done (s : State) : (spoilSout s).done = s.done := rfl
@[simp] theorem spoilSout_error (s : State) : (spoilSout s).error = s.error := rfl
@[simp] theorem spoilSout_treeValid (s : State) : (spoilSout s).treeValid = s.treeValid := rfl
@[simp] theorem spoilSout_ctValid (s : State) : (spoilSout s).ctValid = s.ctValid := rfl
@[simp] theorem spoilSout_busy (s : State) : (spoilSout s).busy = s.busy := rfl
@[simp] theorem spoilSout_hosterr (s : State) : (spoilSout s).hosterr = s.hosterr := rfl
@[simp] theorem spoilSout_err (s : State) : (spoilSout s).err = s.err := rfl
@[simp] theorem spoilSout_errinfo (s : State) : (spoilSout s).errinfo = s.errinfo := rfl
@[simp] theorem spoilSout_pad (s : State) : (spoilSout s).pad = s.pad := rfl
@[simp] theorem spoilSout_ftLen (s : State) : (spoilSout s).ftLen = s.ftLen := rfl
@[simp] theorem spoilSout_sinLen (s : State) : (spoilSout s).sinLen = s.sinLen := rfl
@[simp] theorem spoilSout_payLen (s : State) : (spoilSout s).payLen = s.payLen := rfl
@[simp] theorem spoilSout_imgLen (s : State) : (spoilSout s).imgLen = s.imgLen := rfl
@[simp] theorem spoilSout_soutLen (s : State) : (spoilSout s).soutLen = s.soutLen := rfl
@[simp] theorem spoilSout_hdrLen (s : State) : (spoilSout s).hdrLen = s.hdrLen := rfl
@[simp] theorem spoilSout_nodeCnt (s : State) : (spoilSout s).nodeCnt = s.nodeCnt := rfl
@[simp] theorem spoilSout_root (s : State) : (spoilSout s).root = s.root := rfl
@[simp] theorem spoilSout_ctLen (s : State) : (spoilSout s).ctLen = s.ctLen := rfl
@[simp] theorem spoilSout_ft (s : State) : (spoilSout s).ft = s.ft := rfl
@[simp] theorem spoilSout_node (s : State) : (spoilSout s).node = s.node := rfl
@[simp] theorem spoilSout_ct (s : State) : (spoilSout s).ct = s.ct := rfl
@[simp] theorem spoilSout_sin (s : State) : (spoilSout s).sin = s.sin := rfl
@[simp] theorem spoilSout_sout (s : State) : (spoilSout s).sout = s.sout.spoil := rfl
@[simp] theorem spoilSout_pay (s : State) : (spoilSout s).pay = s.pay := rfl
@[simp] theorem spoilSout_img (s : State) : (spoilSout s).img = s.img := rfl
@[simp] theorem spoilSout_input (s : State) : (spoilSout s).input = s.input := rfl
@[simp] theorem spoilSout_resp (s : State) : (spoilSout s).resp = s.resp := rfl

/-! ## decodeStart -/

@[simp] theorem decodeStart_done (s : State) : (decodeStart s).done = s.done := rfl
@[simp] theorem decodeStart_error (s : State) : (decodeStart s).error = s.error := rfl
@[simp] theorem decodeStart_treeValid (s : State) : (decodeStart s).treeValid = false := rfl
@[simp] theorem decodeStart_ctValid (s : State) : (decodeStart s).ctValid = false := rfl
@[simp] theorem decodeStart_busy (s : State) : (decodeStart s).busy = s.busy := rfl
@[simp] theorem decodeStart_hosterr (s : State) : (decodeStart s).hosterr = s.hosterr := rfl
@[simp] theorem decodeStart_err (s : State) : (decodeStart s).err = s.err := rfl
@[simp] theorem decodeStart_errinfo (s : State) : (decodeStart s).errinfo = s.errinfo := rfl
@[simp] theorem decodeStart_pad (s : State) : (decodeStart s).pad = s.pad := rfl
@[simp] theorem decodeStart_ftLen (s : State) : (decodeStart s).ftLen = s.ftLen := rfl
@[simp] theorem decodeStart_sinLen (s : State) : (decodeStart s).sinLen = s.sinLen := rfl
@[simp] theorem decodeStart_payLen (s : State) : (decodeStart s).payLen = s.payLen := rfl
@[simp] theorem decodeStart_imgLen (s : State) : (decodeStart s).imgLen = s.imgLen := rfl
@[simp] theorem decodeStart_soutLen (s : State) : (decodeStart s).soutLen = 0#32 := rfl
@[simp] theorem decodeStart_hdrLen (s : State) : (decodeStart s).hdrLen = s.hdrLen := rfl
@[simp] theorem decodeStart_nodeCnt (s : State) : (decodeStart s).nodeCnt = 0#22 := rfl
@[simp] theorem decodeStart_root (s : State) : (decodeStart s).root = 0#22 := rfl
@[simp] theorem decodeStart_ctLen (s : State) : (decodeStart s).ctLen = 0#32 := rfl
@[simp] theorem decodeStart_ft (s : State) : (decodeStart s).ft = s.ft := rfl
@[simp] theorem decodeStart_node (s : State) : (decodeStart s).node = s.node := rfl
@[simp] theorem decodeStart_ct (s : State) : (decodeStart s).ct = s.ct := rfl
@[simp] theorem decodeStart_sin (s : State) : (decodeStart s).sin = s.sin := rfl
@[simp] theorem decodeStart_sout (s : State) : (decodeStart s).sout = s.sout := rfl
@[simp] theorem decodeStart_pay (s : State) : (decodeStart s).pay = s.pay := rfl
@[simp] theorem decodeStart_img (s : State) : (decodeStart s).img = s.img := rfl
@[simp] theorem decodeStart_input (s : State) : (decodeStart s).input = s.input := rfl
@[simp] theorem decodeStart_resp (s : State) : (decodeStart s).resp = s.resp := rfl

/-! ## rdhdrStart -/

@[simp] theorem rdhdrStart_done (s : State) : (rdhdrStart s).done = s.done := rfl
@[simp] theorem rdhdrStart_error (s : State) : (rdhdrStart s).error = s.error := rfl
@[simp] theorem rdhdrStart_treeValid (s : State) : (rdhdrStart s).treeValid = false := rfl
@[simp] theorem rdhdrStart_ctValid (s : State) : (rdhdrStart s).ctValid = false := rfl
@[simp] theorem rdhdrStart_busy (s : State) : (rdhdrStart s).busy = s.busy := rfl
@[simp] theorem rdhdrStart_hosterr (s : State) : (rdhdrStart s).hosterr = s.hosterr := rfl
@[simp] theorem rdhdrStart_err (s : State) : (rdhdrStart s).err = s.err := rfl
@[simp] theorem rdhdrStart_errinfo (s : State) : (rdhdrStart s).errinfo = s.errinfo := rfl
@[simp] theorem rdhdrStart_pad (s : State) : (rdhdrStart s).pad = 0#3 := rfl
@[simp] theorem rdhdrStart_ftLen (s : State) : (rdhdrStart s).ftLen = 0#32 := rfl
@[simp] theorem rdhdrStart_sinLen (s : State) : (rdhdrStart s).sinLen = s.sinLen := rfl
@[simp] theorem rdhdrStart_payLen (s : State) : (rdhdrStart s).payLen = 0#32 := rfl
@[simp] theorem rdhdrStart_imgLen (s : State) : (rdhdrStart s).imgLen = s.imgLen := rfl
@[simp] theorem rdhdrStart_soutLen (s : State) : (rdhdrStart s).soutLen = s.soutLen := rfl
@[simp] theorem rdhdrStart_hdrLen (s : State) : (rdhdrStart s).hdrLen = 0#32 := rfl
@[simp] theorem rdhdrStart_nodeCnt (s : State) : (rdhdrStart s).nodeCnt = 0#22 := rfl
@[simp] theorem rdhdrStart_root (s : State) : (rdhdrStart s).root = 0#22 := rfl
@[simp] theorem rdhdrStart_ctLen (s : State) : (rdhdrStart s).ctLen = 0#32 := rfl
@[simp] theorem rdhdrStart_ft (s : State) : (rdhdrStart s).ft = [] := rfl
@[simp] theorem rdhdrStart_node (s : State) : (rdhdrStart s).node = s.node := rfl
@[simp] theorem rdhdrStart_ct (s : State) : (rdhdrStart s).ct = s.ct := rfl
@[simp] theorem rdhdrStart_sin (s : State) : (rdhdrStart s).sin = s.sin := rfl
@[simp] theorem rdhdrStart_sout (s : State) : (rdhdrStart s).sout = s.sout := rfl
@[simp] theorem rdhdrStart_pay (s : State) : (rdhdrStart s).pay = s.pay := rfl
@[simp] theorem rdhdrStart_img (s : State) : (rdhdrStart s).img = s.img := rfl
@[simp] theorem rdhdrStart_input (s : State) : (rdhdrStart s).input = s.input := rfl
@[simp] theorem rdhdrStart_resp (s : State) : (rdhdrStart s).resp = s.resp := rfl

/-! ## withTable -/

@[simp] theorem withTable_done (t : Table) (s : State) : (withTable t s).done = s.done := rfl
@[simp] theorem withTable_error (t : Table) (s : State) : (withTable t s).error = s.error := rfl
@[simp] theorem withTable_treeValid (t : Table) (s : State) : (withTable t s).treeValid = false := rfl
@[simp] theorem withTable_ctValid (t : Table) (s : State) : (withTable t s).ctValid = false := rfl
@[simp] theorem withTable_busy (t : Table) (s : State) : (withTable t s).busy = s.busy := rfl
@[simp] theorem withTable_hosterr (t : Table) (s : State) : (withTable t s).hosterr = s.hosterr := rfl
@[simp] theorem withTable_err (t : Table) (s : State) : (withTable t s).err = s.err := rfl
@[simp] theorem withTable_errinfo (t : Table) (s : State) : (withTable t s).errinfo = s.errinfo := rfl
@[simp] theorem withTable_pad (t : Table) (s : State) : (withTable t s).pad = s.pad := rfl
@[simp] theorem withTable_ftLen (t : Table) (s : State) : (withTable t s).ftLen = BitVec.ofNat 32 t.length := rfl
@[simp] theorem withTable_sinLen (t : Table) (s : State) : (withTable t s).sinLen = s.sinLen := rfl
@[simp] theorem withTable_payLen (t : Table) (s : State) : (withTable t s).payLen = s.payLen := rfl
@[simp] theorem withTable_imgLen (t : Table) (s : State) : (withTable t s).imgLen = s.imgLen := rfl
@[simp] theorem withTable_soutLen (t : Table) (s : State) : (withTable t s).soutLen = s.soutLen := rfl
@[simp] theorem withTable_hdrLen (t : Table) (s : State) : (withTable t s).hdrLen = s.hdrLen := rfl
@[simp] theorem withTable_nodeCnt (t : Table) (s : State) : (withTable t s).nodeCnt = 0#22 := rfl
@[simp] theorem withTable_root (t : Table) (s : State) : (withTable t s).root = 0#22 := rfl
@[simp] theorem withTable_ctLen (t : Table) (s : State) : (withTable t s).ctLen = 0#32 := rfl
@[simp] theorem withTable_ft (t : Table) (s : State) : (withTable t s).ft = t := rfl
@[simp] theorem withTable_node (t : Table) (s : State) : (withTable t s).node = s.node := rfl
@[simp] theorem withTable_ct (t : Table) (s : State) : (withTable t s).ct = s.ct := rfl
@[simp] theorem withTable_sin (t : Table) (s : State) : (withTable t s).sin = s.sin := rfl
@[simp] theorem withTable_sout (t : Table) (s : State) : (withTable t s).sout = s.sout := rfl
@[simp] theorem withTable_pay (t : Table) (s : State) : (withTable t s).pay = s.pay := rfl
@[simp] theorem withTable_img (t : Table) (s : State) : (withTable t s).img = s.img := rfl
@[simp] theorem withTable_input (t : Table) (s : State) : (withTable t s).input = s.input := rfl
@[simp] theorem withTable_resp (t : Table) (s : State) : (withTable t s).resp = s.resp := rfl

end Sys2Proof.Machine
end

