-- ==== Sys2Proof/Laws/Outcomes.lean ====
section
/-! SUPPORT. What a command or an access can answer: the results of the checks, the registers read, and the
fields each command can change. -/

namespace Sys2Proof.Machine

variable {p : Params}

/-! ## Words and runs -/

/-- A word is its upper 28 bits and its opcode. -/
theorem word_split (w : Word) : w.toNat = (w.extractLsb' 4 28).toNat * 16 + (w.extractLsb' 0 4).toNat := by
  simp [BitVec.extractLsb'_toNat, Nat.shiftRight_eq_div_pow]; omega

/-- The word of a command decodes to it. -/
theorem decode_encode (i : Instr) : decodeWord (encodeWord i) = .ok i := by cases i <;> rfl

/-- `exec` is the commands of the instance of Config. -/
theorem exec_eq (i : Instr) (s : State) : exec i s = execOn Config.params i s := by cases i <;> rfl

/-- On that instance they are one. -/
theorem exec_of_execOn {i : Instr} {s t : State} (h : execOn p i s = .next t) : p = Config.params →
    exec i s = .next t := by
  rintro rfl; rw [exec_eq]; exact h

/-- A command always answers a next state, and leaves the input. -/
theorem exec_answers (p : Params) (i : Instr) (s : State) : ∃ t, execOn p i s = .next t ∧ t.input = s.input := by
  cases i <;> refine ⟨_, rfl, ?_⟩
  case nop => rfl
  case clr => rfl
  case build => split <;> rfl
  case assign => split <;> rfl
  case encode => simp only [encodeOn]; split <;> rfl
  case wrhdr => simp only [wrhdrOn]; split <;> rfl
  case rdhdr => simp only [rdhdrOn]; split <;> rfl
  case decode =>
    simp only [decodeOn]
    split
    · rfl
    · split <;> rfl

/-- An access always answers a next state, and leaves the port. -/
theorem perform_answers (e : PortEvent) (s : State) : ∃ t, perform p e s = .next t ∧ t.input = s.input := by
  cases e with
  | writeCsr n v =>
    simp only [perform]
    split
    · unfold runCommand
      split
      · obtain ⟨t, h, hp⟩ := exec_answers p ‹_› (startCommand s)
        exact ⟨t, h, hp⟩
      · exact ⟨_, rfl, rfl⟩
    · refine ⟨_, rfl, ?_⟩
      unfold hostWriteReg; repeat' split
      all_goals rfl
  | readCsr n => refine ⟨_, rfl, ?_⟩; unfold hostReadCsr; split <;> rfl
  | ftSet n c => refine ⟨_, rfl, ?_⟩; unfold hostFtSet; split <;> rfl
  | ftDel n => refine ⟨_, rfl, ?_⟩; unfold hostFtDel; split <;> rfl
  | ftGet n => exact ⟨_, rfl, rfl⟩
  | read sp i => refine ⟨_, rfl, ?_⟩; unfold hostRead; split <;> rfl
  | write sp i v => refine ⟨_, rfl, ?_⟩; unfold hostWrite; repeat' split
                    all_goals rfl
  | reset => exact ⟨_, rfl, rfl⟩

/-- Without an event a step changes nothing. -/
theorem stepOn_idle {s : State} (h : s.input = none) : stepOn p s = .next s := by simp [stepOn, h]

/-- A step performs the event at the input. -/
theorem stepOn_event {s : State} {e : PortEvent} (h : s.input = some e) :
    stepOn p s = perform p e { s with input := none } := by simp [stepOn, h]

/-- A command does not depend on BUSY. -/
theorem exec_busy (i : Instr) (s : State) (b : Bool) : execOn p i { s with busy := b } = execOn p i s := by
  cases i
  case nop => rfl
  case clr => rfl
  case build =>
    show Host.Outcome.next (match buildTree s.ft with | .error f => _ | .ok n => _) = _
    simp only [execOn, execBuild]
    cases buildTree s.ft <;> rfl
  case assign =>
    have : assignResult { s with busy := b } = assignResult s := rfl
    simp only [execOn, execAssign, this]
    cases assignResult s <;> rfl
  case encode =>
    have : encodeResult p { s with busy := b } = encodeResult p s := rfl
    simp only [execOn, encodeOn, this]
    cases encodeResult p s <;> rfl
  case wrhdr => simp only [execOn, wrhdrOn]; split <;> rfl
  case rdhdr =>
    have : imgElems { s with busy := b } = imgElems s := rfl
    simp only [execOn, rdhdrOn, this]
    cases parseImage p.maxSyms.toNat p.maxPay.toNat (imgElems s) <;> rfl
  case decode =>
    simp only [execOn, decodeOn]
    cases buildTree s.ft with
    | error f => rfl
    | ok n =>
      have : decodeSymbols p (loadTree n (decodeStart { s with busy := b })) = decodeSymbols p
          (loadTree n (decodeStart s)) := rfl
      simp only [this]
      cases decodeSymbols p (loadTree n (decodeStart s)) <;> rfl

/-- A command line runs its command. -/
theorem command_run (i : Instr) (s : State) : perform p (commandLine i) s = execOn p i s := by
  have : decodeWord (encodeWord i) = .ok i := by cases i <;> rfl
  simp only [perform, commandLine, if_true, runCommand, this, startCommand]
  exact exec_busy i s true

/-- A run of one command is that command. -/
theorem runUntilError_single {i s t} (h : runUntilError p [i] s = .next t) : execOn p i s = .next t := by
  simp only [runUntilError, command_run] at h
  split at h
  · split at h <;> (rw [‹execOn p i s = _›]; exact h)
  · cases h
  · cases h

/-- A run without a failure is its first command and a run of the rest. -/
theorem runUntilError_cons {i : Instr} {is : List Instr} {s t : State} (h : runUntilError p (i :: is) s = .next t)
    (he : t.error = false) :
    ∃ m, execOn p i s = .next m ∧ m.error = false ∧ runUntilError p is m = .next t := by
  simp only [runUntilError, command_run] at h
  split at h
  · rename_i m hm
    split at h
    · cases h; simp_all
    · refine ⟨m, hm, ?_, h⟩; cases hh : m.error <;> simp_all
  · cases h
  · cases h

/-- A run goes on behind a command that succeeds. -/
theorem runUntilError_next {i : Instr} {is : List Instr} {s t : State} (h : execOn p i s = .next t)
    (he : t.error = false) : runUntilError p (i :: is) s = runUntilError p is t := by
  simp only [runUntilError, command_run, h, he, Bool.false_eq_true, if_false]

/-- A run always answers a next state. -/
theorem runUntilError_answers (is : List Instr) (s : State) : ∃ t, runUntilError p is s = .next t := by
  induction is generalizing s with
  | nil => exact ⟨s, rfl⟩
  | cons i is ih =>
    obtain ⟨t, ht, _⟩ := exec_answers p i s
    simp only [runUntilError, command_run, ht]
    split
    · exact ⟨t, rfl⟩
    · exact ih t

/-! ## Host accesses -/

/-- A register reads exactly if it is assigned. -/
theorem csrValue_isSome (n : Nat) (s : State) : (csrValue p n s).isSome = csrAssigned n := by
  rcases Nat.lt_or_ge n 0x15 with h | h
  · interval_cases n <;> rfl
  · have : csrAssigned n = false := by simp [csrAssigned]; omega
    rw [this]
    unfold csrValue; split <;> first | rfl | omega

/-- An element reads exactly if R64 allows it. -/
theorem elemValue_isSome (sp i) (s : State) : (elemValue p sp i s).isSome = readable p sp i s := by
  cases sp <;> simp only [elemValue, readable] <;> split <;> simp_all

/-- A register write that R64 does not accept is refused. -/
theorem hostWriteReg_refused (n v) (s : State) (h : n ≠ 0) :
    hostWriteReg p n v s = if csrAccepts p n v then hostWriteReg p n v s else refuseAccess s := by
  split
  · rfl
  · rename_i ha
    simp only [csrAccepts] at ha
    unfold hostWriteReg
    split <;> simp_all [BitVec.le_def]

/-- Only CLR changes HOSTERR (R23). -/
theorem exec_hosterr (i : Instr) (s t : State) (h : execOn p i s = .next t) (hi : i ≠ .clr) : t.hosterr =
    s.hosterr := by
  cases i <;> simp only [execOn, execNop, execBuild, execAssign, encodeOn, wrhdrOn, rdhdrOn, decodeOn,
      execClr] at h hi
  all_goals (repeat' split at h)
  all_goals (cases h)
  all_goals simp_all

/-! ## Results of the parts of a command -/

/-- Where a sequence fails. -/
theorem bind_error {α β : Type} {x : Except Failure α} {g : α → Except Failure β} {f : Failure}
    (h : (x >>= g) = .error f) : x = .error f ∨ ∃ a, x = .ok a ∧ g a = .error f := by
  cases x with
  | error e => left; simpa [bind, Except.bind] using h
  | ok a => right; exact ⟨a, rfl, h⟩

/-- A sequence that does not fail. -/
theorem bind_ok {α β : Type} {x : Except Failure α} {g : α → Except Failure β} {b : β}
    (h : (x >>= g) = .ok b) : ∃ a, x = .ok a ∧ g a = .ok b := by
  cases x with
  | error e => cases h
  | ok a => exact ⟨a, rfl, h⟩

theorem codes_build (t : Table) (f) (h : buildTree t = .error f) : f = .emptyAlphabet := by
  unfold buildTree at h; split at h <;> simp_all

theorem codes_assign (s) (f) (h : assignResult s = .error f) : f = .sequence ∨ f = .degenerateAlphabet := by
  unfold assignResult assignCodes at h; repeat' split at h
  all_goals simp_all

theorem codes_push (m p b f) (h : Packer.push m p b = .error f) : f = .capacity := by
  unfold Packer.push at h; simp only at h; repeat' split at h
  all_goals simp_all

theorem codes_pushAll (m bs) : ∀ p f, Packer.pushAll m p bs = .error f → f = .capacity := by
  induction bs with
  | nil => intro p f h; simp [Packer.pushAll] at h
  | cons b bs ih =>
    intro p f h
    simp only [Packer.pushAll] at h
    split at h
    · cases h; exact codes_push _ _ _ _ ‹_›
    · exact ih _ _ h

theorem codes_packSymbols (m ct ss) : ∀ p f, packSymbols m ct p ss = .error f → f = .capacity ∨ ∃ u, f =
    .unknownSymbol u := by
  induction ss with
  | nil => intro p f h; simp [packSymbols] at h
  | cons b bs ih =>
    intro p f h
    simp only [packSymbols] at h
    split at h
    · cases h; exact .inr ⟨_, rfl⟩
    · split at h
      · cases h; exact .inl (codes_pushAll _ _ _ _ ‹_›)
      · exact ih _ _ h

theorem codes_encode (s) (f) (h : encodeResult p s = .error f) : f = .sequence ∨ f = .capacity ∨ ∃ u, f =
    .unknownSymbol u := by
  unfold encodeResult pack Packer.flush at h; repeat' split at h
  all_goals simp_all
  have := codes_packSymbols _ _ _ _ _ ‹_›
  grind

theorem codes_expect (b h f) (e : expect b h = .error f) : f = .invalidHeader := by
  unfold expect at e; repeat' split at e
  all_goals simp_all

theorem codes_scanSymbol (h f) (e : scanSymbol h = .error f) : f = .invalidHeader := by
  unfold scanSymbol at e; repeat' split at e
  all_goals simp_all

theorem codes_scanCount (h f) (e : scanCount h = .error f) : f = .invalidHeader ∨ f = .invalidHeaderValue := by
  unfold scanCount at e; repeat' split at e
  all_goals simp_all

/-- The failures of the header scanner. -/
def hdrCodes (f : Failure) : Prop := f = .invalidHeader ∨ f = .invalidHeaderValue ∨ f = .capacity

theorem codes_scanEntry (m t h f) (e : scanEntry m t h = .error f) : hdrCodes f := by
  unfold scanEntry at e
  obtain e | ⟨_, _, e⟩ := bind_error e
  · exact .inl (codes_expect _ _ _ e)
  obtain e | ⟨_, _, e⟩ := bind_error e
  · exact .inl (codes_scanSymbol _ _ e)
  obtain e | ⟨_, _, e⟩ := bind_error e
  · exact .inl (codes_expect _ _ _ e)
  obtain e | ⟨_, _, e⟩ := bind_error e
  · exact .inl (codes_expect _ _ _ e)
  obtain e | ⟨_, _, e⟩ := bind_error e
  · exact .inl (codes_expect _ _ _ e)
  obtain e | ⟨_, _, e⟩ := bind_error e
  · rcases codes_scanCount _ _ e with h | h
    · exact .inl h
    · exact .inr (.inl h)
  simp only at e
  repeat' split at e
  · cases e; exact .inl rfl
  · cases e; exact .inr (.inr rfl)
  · cases e

theorem codes_scanEntries (m n) : ∀ t h f, scanEntries m n t h = .error f → hdrCodes f := by
  induction n with
  | zero => intro t h f e; cases e; exact .inl rfl
  | succ n ih =>
    intro t h f e
    simp only [scanEntries] at e
    repeat' split at e
    · cases e; exact codes_scanEntry _ _ _ _ ‹_›
    · cases e; exact .inl rfl
    · cases e
    · cases e; exact .inl (codes_expect _ _ _ ‹_›)
    · exact ih _ _ _ e

theorem codes_scanTail (h f) (e : scanTail h = .error f) : f = .invalidHeader := by
  unfold scanTail at e
  obtain e | ⟨_, _, e⟩ := bind_error e
  · exact codes_expect _ _ _ e
  obtain e | ⟨_, _, e⟩ := bind_error e
  · exact codes_expect _ _ _ e
  repeat' split at e
  · cases e; rfl
  · cases e; rfl
  · obtain e | ⟨_, _, e⟩ := bind_error e
    · exact codes_expect _ _ _ e
    split at e <;> cases e
    rfl

theorem codes_scanHeader (m h f) (e : scanHeader m h = .error f) : hdrCodes f := by
  unfold scanHeader at e
  obtain e | ⟨_, _, e⟩ := bind_error e
  · unfold scanList at e
    repeat' split at e
    · cases e; exact .inl (codes_expect _ _ _ ‹_›)
    · cases e; exact .inl rfl
    · cases e
    · exact codes_scanEntries _ _ _ _ _ e
  obtain e | ⟨_, _, e⟩ := bind_error e
  · exact .inl (codes_scanTail _ _ e)
  · cases e

theorem codes_parseLength (h) : ∀ a f, parseLength a h = .error f → f = .invalidHeader := by
  induction h with
  | nil => intro a f h; cases h
  | cons b bs ih =>
    intro a f h
    simp only [parseLength] at h
    repeat' split at h
    · exact ih _ _ h
    · exact ih _ _ h
    · cases h; rfl

theorem codes_parseImage (a b img f) (e : parseImage a b img = .error f) : f = .ioFailure ∨ hdrCodes f := by
  unfold parseImage at e
  repeat' split at e
  · cases e; exact .inl rfl
  · cases e; exact .inr (.inl (codes_parseLength _ _ _ ‹_›))
  · cases e; exact .inl rfl
  · cases e; exact .inr (codes_scanHeader _ _ _ ‹_›)
  · cases e; exact .inr (.inr (.inr rfl))
  · cases e

theorem codes_walk (node r m bs) : ∀ c o f, walk node r m c o bs = .error f → f = .capacity := by
  induction bs with
  | nil => intro c o f h; cases h
  | cons b bs ih =>
    intro c o f h
    simp only [walk] at h
    repeat' split at h
    all_goals first | (cases h; rfl) | exact ih _ _ _ h

theorem codes_payloadBits (s : State) (f : Failure) (e : payloadBits s = .error f) : f = .corruptPayload := by
  unfold payloadBits at e
  repeat' split at e
  all_goals cases e
  rfl

theorem codes_decode (s : State) (f : Failure) (e : decodeSymbols p s = .error f) :
    f = .degenerateAlphabet ∨ f = .corruptPayload ∨ f = .capacity := by
  unfold decodeSymbols at e
  repeat' split at e
  · cases e; exact .inl rfl
  · cases e; exact .inr (.inl (codes_payloadBits _ _ ‹_›))
  · cases e; exact .inr (.inr (codes_walk _ _ _ _ _ _ _ ‹_›))
  · cases e
  · cases e; exact .inr (.inl rfl)

/-! ## Derived state -/

/-- Only RDHDR and CLR change the table. -/
theorem exec_ft (i : Instr) (s t : State) (h : execOn p i s = .next t) (hi : t.ft ≠ s.ft) : i = .rdhdr ∨ i =
    .clr := by
  cases i <;> simp only [execOn, execNop, execBuild, execAssign, encodeOn, wrhdrOn, decodeOn] at h <;>
      try simp
  all_goals (repeat' split at h) <;> cases h <;> exact hi rfl

theorem build_derived (s t : State) (h : exec .build s = .next t) : t.ctValid = false ∧ t.ctLen = 0#32 := by
  simp only [exec, execBuild] at h
  (repeat' split at h) <;> cases h <;> exact ⟨rfl, rfl⟩

theorem decode_derived (s t : State) (h : execOn p .decode s = .next t) : t.ctValid = false ∧ t.ctLen = 0#32 := by
  simp only [execOn, decodeOn] at h
  (repeat' split at h) <;> cases h <;> exact ⟨rfl, rfl⟩

theorem rdhdr_derived (s t : State) (h : execOn p .rdhdr s = .next t) : t.treeValid = false ∧ t.nodeCnt = 0#22 ∧
    t.root = 0#22 ∧ t.ctValid = false ∧ t.ctLen = 0#32 := by
  simp only [execOn, rdhdrOn] at h
  (repeat' split at h) <;> cases h <;> exact ⟨rfl, rfl, rfl, rfl, rfl⟩

theorem clr_derived (s t : State) (h : exec .clr s = .next t) : t.treeValid = false ∧ t.nodeCnt = 0#22 ∧
    t.root = 0#22 ∧ t.ctValid = false ∧ t.ctLen = 0#32 := by
  simp only [exec, execClr] at h
  cases h; exact ⟨rfl, rfl, rfl, rfl, rfl⟩

end Sys2Proof.Machine
end

