-- ==== Sys2Proof/Laws/Pack.lean ====
section
/-! SUPPORT. What Pack makes: the bytes read back most significant bit first are the codes of the input
followed by the zero filler (42_bitpacker_encoder.md R131, R132), and exactly when it fails (R135). -/

namespace Sys2Proof.Machine

/-- ACC after shifting in the bits of a list. -/
def accOf (bs : Bits) : Byte := bs.foldl (fun a b => (a <<< 1) ||| (if b then 1#8 else 0#8)) 0#8

theorem accOf_snoc (bs : Bits) (b : Bool) :
    accOf (bs ++ [b]) = (accOf bs <<< 1) ||| (if b then 1#8 else 0#8) := by
  simp [accOf, List.foldl_append]

/-- A full accumulator holds its eight bits, first bit most significant. -/
theorem byteBits_accOf : ∀ b0 b1 b2 b3 b4 b5 b6 b7 : Bool,
    byteBits (accOf [b0, b1, b2, b3, b4, b5, b6, b7]) = [b0, b1, b2, b3, b4, b5, b6, b7] := by
  decide

theorem byteBits_accOf_of_length (bs : Bits) (h : bs.length = 8) : byteBits (accOf bs) = bs := by
  match bs, h with
  | [b0, b1, b2, b3, b4, b5, b6, b7], _ => exact byteBits_accOf b0 b1 b2 b3 b4 b5 b6 b7

theorem accOf_append_zeros (bs : Bits) (k : Nat) :
    accOf (bs ++ List.replicate k false) = accOf bs <<< k := by
  induction k with
  | zero => simp
  | succ k ih =>
    rw [List.replicate_succ', ← List.append_assoc, accOf_snoc, ih]
    simp [BitVec.shiftLeft_add]

/-- The final partial byte: its bits, then zeros (R132). -/
theorem byteBits_flush (bs : Bits) (h : bs.length ≤ 8) :
    byteBits (accOf bs <<< (8 - bs.length)) = bs ++ List.replicate (8 - bs.length) false := by
  rw [← accOf_append_zeros]
  exact byteBits_accOf_of_length _ (by simp; omega)

@[simp] theorem bytesBits_append (xs ys : List Byte) : bytesBits (xs ++ ys) = bytesBits xs ++ bytesBits ys := by
  induction xs with
  | nil => rfl
  | cons x xs ih => simp [bytesBits, ih]

@[simp] theorem length_bytesBits (xs : List Byte) : (bytesBits xs).length = 8 * xs.length := by
  induction xs with
  | nil => rfl
  | cons x xs ih => simp [bytesBits, byteBits, ih]; omega

/-- The packer that has emitted `out` and holds the bits `held`. -/
def Packer.holding (out : List Byte) (held : Bits) : Packer := ⟨accOf held, held.length, out⟩

theorem push_holding (maxPay : Nat) (out : List Byte) (held : Bits) (b : Bool) :
    (Packer.holding out held).push maxPay b =
      if held.length + 1 = 8 then
        if out.length = maxPay then .error .capacity
        else .ok (.holding (out ++ [accOf (held ++ [b])]) [])
      else .ok (.holding out (held ++ [b])) := by
  simp only [Packer.push, Packer.holding, accOf_snoc, List.length_append, List.length_cons, List.length_nil,
    Nat.zero_add]
  rfl

/-- Appending bits succeeds exactly if every full byte fits, and then loses no bit. -/
theorem pushAll_holding (maxPay : Nat) (bs : Bits) (out : List Byte) (held : Bits) (hh : held.length < 8)
    (ho : out.length ≤ maxPay) :
    (out.length + (held.length + bs.length) / 8 ≤ maxPay →
      ∃ out' held', (Packer.holding out held).pushAll maxPay bs = .ok (.holding out' held') ∧
        held'.length < 8 ∧ out'.length ≤ maxPay ∧ bytesBits out' ++ held' = bytesBits out ++ held ++ bs) ∧
    (maxPay < out.length + (held.length + bs.length) / 8 →
      (Packer.holding out held).pushAll maxPay bs = .error .capacity) := by
  induction bs generalizing out held with
  | nil =>
    refine ⟨fun _ => ⟨out, held, rfl, hh, ho, by simp⟩, fun h => ?_⟩
    simp only [List.length_nil] at h
    omega
  | cons b bs ih =>
    simp only [Packer.pushAll, push_holding, List.length_cons]
    by_cases h8 : held.length + 1 = 8
    · simp only [h8, if_true]
      by_cases hf : out.length = maxPay
      · simp only [hf, if_true, implies_true, and_true]
        intro hc
        omega
      · simp only [hf, if_false]
        have := ih (out ++ [accOf (held ++ [b])]) [] (by simp) (by simp; omega)
        refine ⟨fun hc => ?_, fun hc => this.2 (by simp; omega)⟩
        obtain ⟨out', held', h1, h2, h3, h4⟩ := this.1 (by simp; omega)
        refine ⟨out', held', h1, h2, h3, ?_⟩
        rw [h4, bytesBits_append]
        simp only [bytesBits, List.append_nil]
        rw [byteBits_accOf_of_length _ (by simpa using h8)]
        simp
    · simp only [h8, if_false]
      have := ih out (held ++ [b]) (by simp; omega) ho
      refine ⟨fun hc => ?_, fun hc => this.2 (by simp; omega)⟩
      obtain ⟨out', held', h1, h2, h3, h4⟩ := this.1 (by simp; omega)
      exact ⟨out', held', h1, h2, h3, by rw [h4]; simp⟩

/-- The loop over the symbols, all of them known. -/
theorem packSymbols_holding (maxPay : Nat) (ct : List CodeEntry) (ss rest : List Sym) (out : List Byte)
    (held : Bits) (hk : allKnown ct ss = true) (hh : held.length < 8) (ho : out.length ≤ maxPay) :
    (out.length + (held.length + (codeBits ct ss).length) / 8 ≤ maxPay →
      ∃ out' held', packSymbols maxPay ct (.holding out held) (ss ++ rest) =
          packSymbols maxPay ct (.holding out' held') rest ∧
        held'.length < 8 ∧ out'.length ≤ maxPay ∧
        bytesBits out' ++ held' = bytesBits out ++ held ++ codeBits ct ss) ∧
    (maxPay < out.length + (held.length + (codeBits ct ss).length) / 8 →
      packSymbols maxPay ct (.holding out held) (ss ++ rest) = .error .capacity) := by
  induction ss generalizing out held with
  | nil =>
    refine ⟨fun _ => ⟨out, held, rfl, hh, ho, by simp [codeBits]⟩, fun h => ?_⟩
    simp only [codeBits, List.flatMap_nil, List.length_nil] at h
    omega
  | cons s ss ih =>
    simp only [allKnown, List.all_cons, Bool.and_eq_true] at hk
    obtain ⟨c, hc⟩ := Option.isSome_iff_exists.1 hk.1
    have hcb : codeBits ct (s :: ss) = c ++ codeBits ct ss := by simp [codeBits, hc]
    simp only [hcb, List.length_append, List.cons_append, packSymbols, hc]
    have hp := pushAll_holding maxPay c out held hh ho
    by_cases hfit : out.length + (held.length + c.length) / 8 ≤ maxPay
    · obtain ⟨o1, h1, e1, l1, m1, b1⟩ := hp.1 hfit
      have hlen := congrArg List.length b1
      simp only [List.length_append, length_bytesBits] at hlen
      have := ih o1 h1 hk.2 l1 m1
      simp only [e1]
      refine ⟨fun hc' => ?_, fun hc' => this.2 (by omega)⟩
      obtain ⟨o2, h2, e2, l2, m2, b2⟩ := this.1 (by omega)
      exact ⟨o2, h2, e2, l2, m2, by rw [b2, b1]; simp⟩
    · simp only [hp.2 (by omega), implies_true, and_true]
      intro hc'
      omega

/-- Pack on known symbols: success exactly if the payload fits, and then the payload read back is the
codes and the filler (R131, R132, R134). -/
theorem pack_known (maxPay : Nat) (ct : List CodeEntry) (ss : List Sym) (hk : allKnown ct ss = true) :
    (((codeBits ct ss).length + 7) / 8 ≤ maxPay →
      ∃ bytes, ∃ pad : BitVec 3, pack maxPay ct ss = .ok (bytes, pad) ∧
        pad.toNat = (8 - (codeBits ct ss).length % 8) % 8 ∧ bytes.length = ((codeBits ct ss).length + 7) / 8 ∧
        bytesBits bytes = codeBits ct ss ++ List.replicate pad.toNat false) ∧
    (maxPay < ((codeBits ct ss).length + 7) / 8 → pack maxPay ct ss = .error .capacity) := by
  have hp := packSymbols_holding maxPay ct ss [] [] [] hk (by simp) (by simp)
  simp only [List.append_nil, bytesBits, List.nil_append, List.length_nil, Nat.zero_add, packSymbols] at hp
  have h0 : (⟨0#8, 0, []⟩ : Packer) = .holding [] [] := rfl
  simp only [pack, h0]
  by_cases hfit : (codeBits ct ss).length / 8 ≤ maxPay
  · obtain ⟨out, held, e, l, m, b⟩ := hp.1 hfit
    simp only [e]
    have hlen := congrArg List.length b
    simp only [List.length_append, length_bytesBits] at hlen
    simp only [Packer.flush, Packer.holding]
    by_cases hz : 0 < held.length
    · simp only [hz, if_true]
      by_cases hcap : out.length = maxPay
      · simp only [hcap, if_true, implies_true, and_true]
        intro hc
        omega
      · simp only [hcap, if_false]
        refine ⟨fun _ => ⟨_, _, rfl, ?_, ?_, ?_⟩, fun hc => by omega⟩
        · rw [BitVec.toNat_ofNat]
          omega
        · simp
          omega
        · rw [bytesBits_append, ← b, List.append_assoc]
          simp only [bytesBits, List.append_nil, byteBits_flush held (by omega), BitVec.toNat_ofNat]
          rw [Nat.mod_eq_of_lt (by omega)]
    · have hn : held = [] := List.length_eq_zero_iff.1 (by omega)
      subst hn
      simp only [List.length_nil, Nat.lt_irrefl, if_false]
      refine ⟨fun _ => ⟨_, _, rfl, ?_, ?_, ?_⟩, fun hc => by simp at hlen; omega⟩
      · simp at hlen ⊢
        omega
      · simp at hlen ⊢
        omega
      · simpa using b
  · simp only [hp.2 (by omega), implies_true, and_true]
    intro hc
    omega

/-- Pack that meets an unknown symbol (R133, R135). -/
theorem pack_unknown (maxPay : Nat) (ct : List CodeEntry) (ss rest : List Sym) (u : Sym)
    (hk : allKnown ct ss = true) (hu : lookupCode ct u = none) :
    pack maxPay ct (ss ++ u :: rest) =
      .error (if (codeBits ct ss).length / 8 ≤ maxPay then .unknownSymbol u else .capacity) := by
  have hp := packSymbols_holding maxPay ct ss (u :: rest) [] [] hk (by simp) (by simp)
  simp only [List.length_nil, Nat.zero_add] at hp
  have h0 : (⟨0#8, 0, []⟩ : Packer) = .holding [] [] := rfl
  simp only [pack, h0]
  by_cases hfit : (codeBits ct ss).length / 8 ≤ maxPay
  · obtain ⟨out, held, e, -⟩ := hp.1 hfit
    simp [e, packSymbols, hu, hfit]
  · simp [hp.2 (by omega), hfit]

end Sys2Proof.Machine
end

