-- ==== Sys2Proof/Laws/Inv.lean ====
section
/-! SUPPORT. What the invariant gives, and that the commands keep it. -/

namespace Sys2Proof.Machine

variable {p : Params}

/-! ## The invariant, part by part -/

/-- The table fits the instance, and the instance the index width. -/
theorem Inv.ftLength {s : State} (h : Inv p s) : s.ft.length ≤ p.maxSyms.toNat ∧
    p.maxSyms.toNat ≤ 1112064 := by
  have h1 := h.table; have h2 := h.params
  simp only [tableFits, Params.wf, Params.symsOk, Bool.and_eq_true, decide_eq_true_eq] at h1 h2
  omega

theorem memoriesOk_iff (s : State) : memoriesOk p s = true ↔
    (s.node.wf = true ∧ s.ct.wf = true ∧ s.sin.wf = true ∧ s.sout.wf = true ∧ s.pay.wf = true ∧ s.img.wf =
    true ∧
   s.node.below (2 * p.maxSyms.toNat - 1) = true ∧ s.ct.below p.maxSyms.toNat = true ∧
       s.sin.below p.maxIn.toNat = true ∧
   s.sout.below p.maxOut.toNat = true ∧ s.pay.below p.maxPay.toNat = true ∧
       s.img.below p.maxImg.toNat = true) := by
  simp only [memoriesOk, Bool.and_eq_true, and_assoc]

theorem lengthsFit_iff (s : State) : lengthsFit p s = true ↔ s.sinLen ≤ p.maxIn ∧
    s.payLen ≤ p.maxPay ∧ s.imgLen ≤ p.maxImg ∧ s.soutLen ≤ p.maxOut := by
  simp only [lengthsFit, Bool.and_eq_true, decide_eq_true_eq, and_assoc]

theorem Inv.mems {s : State} (h : Inv p s) : s.node.wf = true ∧ s.ct.wf = true ∧ s.sin.wf = true ∧ s.sout.wf = true ∧
    s.pay.wf = true ∧ s.img.wf = true ∧
   s.node.below (2 * p.maxSyms.toNat - 1) = true ∧ s.ct.below p.maxSyms.toNat = true ∧
       s.sin.below p.maxIn.toNat = true ∧
   s.sout.below p.maxOut.toNat = true ∧ s.pay.below p.maxPay.toNat = true ∧
       s.img.below p.maxImg.toNat = true := by
  have := h.memories
  simp only [memoriesOk, Bool.and_eq_true] at this
  simp_all

theorem Inv.lens {s : State} (h : Inv p s) : s.sinLen ≤ p.maxIn ∧ s.payLen ≤ p.maxPay ∧
    s.imgLen ≤ p.maxImg ∧ s.soutLen ≤ p.maxOut := by
  have := h.lengths
  simp only [lengthsFit, Bool.and_eq_true, decide_eq_true_eq] at this
  simp_all

theorem Inv.flgs {s : State} (h : Inv p s) : s.busy = false ∧ (s.error = true → s.done = true) ∧
    (s.error = decide (s.err ≠ .success)) ∧
   (s.ctValid = true → s.treeValid = true) ∧ (s.err = .unknownSymbol ∨ s.errinfo = 0#21) := by
  have := h.flags
  simp only [flagsOk, Bool.and_eq_true, Bool.or_eq_true, decide_eq_true_eq, beq_iff_eq,
      Bool.not_eq_true'] at this
  refine ⟨this.1.1.1.1, ?_, this.1.1.2, ?_, this.2⟩
  · intro h; rcases this.1.1.1.2 with h' | h' <;> simp_all
  · intro h; rcases this.1.2 with h' | h' <;> simp_all

theorem treeHeld_congr (s t : State) (h1 : t.ft = s.ft) (h2 : t.node = s.node) (h3 : t.nodeCnt = s.nodeCnt)
   (h4 : t.root = s.root) : treeHeld t = treeHeld s := by
  unfold treeHeld nodeElems; rw [h1, h2, h3, h4]

theorem codesHeld_congr (s t : State) (h2 : t.node = s.node) (h3 : t.nodeCnt = s.nodeCnt)
   (h4 : t.root = s.root) (h5 : t.ct = s.ct) (h6 : t.ctLen = s.ctLen) : codesHeld t = codesHeld s := by
  have : nodeAt t = nodeAt s := by funext i; simp only [nodeAt, h2]
  unfold codesHeld ctElems; rw [this, h3, h4, h5, h6]

/-- The invariant where table, tree and codes are untouched. -/
theorem Inv.simple {s t : State} (h : Inv p s) (hf : flagsOk t = true) (hl : lengthsFit p t = true)
    (hm : memoriesOk p t = true)
    (e2 : t.ft = s.ft) (e3 : t.ftLen = s.ftLen) (e4 : t.node = s.node)
        (e5 : t.nodeCnt = s.nodeCnt)
    (e6 : t.root = s.root) (e7 : t.treeValid = s.treeValid) (e8 : t.ctValid = s.ctValid) (e9 : t.ct = s.ct)
        (e10 : t.ctLen = s.ctLen) : Inv p t where
  params := h.params
  flags := hf
  table := by simpa only [tableFits, e2, e3] using h.table
  lengths := hl
  cleared := by simpa only [derivedCleared, e5, e6, e7, e8, e10] using h.cleared
  memories := hm
  tree := by rw [e7, treeHeld_congr s t e2 e4 e5 e6]; exact h.tree
  codes := by rw [e8, codesHeld_congr s t e4 e5 e6 e9 e10]; exact h.codes

/-- The invariant where the derived state is invalid. -/
theorem Inv.invalid {s t : State} (h : Inv p s) (hf : flagsOk t = true) (hl : lengthsFit p t = true)
    (hm : memoriesOk p t = true) (ht : tableFits p t = true)
    (e5 : t.nodeCnt = 0#22)
    (e6 : t.root = 0#22) (e7 : t.treeValid = false) (e8 : t.ctValid = false) (e10 : t.ctLen = 0#32) :
        Inv p t where
  params := h.params
  flags := hf
  table := ht
  lengths := hl
  cleared := by simp [derivedCleared, *]
  memories := hm
  tree := by rw [e7]; intro h; cases h
  codes := by rw [e8]; intro h; cases h

/-- The invariant where a tree has just been built. -/
theorem Inv.loaded {s : State} (h : Inv p s) (nodes : List TreeNode) (hb : buildTree s.ft = .ok nodes)
   {t : State} (hf : flagsOk t = true) (hl : lengthsFit p t = true)
    (hm : memoriesOk p t = true)
    (e2 : t.ft = s.ft) (e3 : t.ftLen = s.ftLen) (e4 : t.node = s.node.writeAll nodes)
    (e5 : t.nodeCnt = BitVec.ofNat 22 nodes.length)
    (e6 : t.root = BitVec.ofNat 22 (nodes.length - 1)) (e7 : t.treeValid = true) (e8 : t.ctValid = false)
        (e10 : t.ctLen = 0#32) : Inv p t := by
  have hlen := buildTree_length _ _ hb
  have hft := h.ftLength
  have hlt : nodes.length < 2 ^ 22 := by omega
  exact {
    params := h.params
    flags := hf
    table := by simpa only [tableFits, e2, e3] using h.table
    lengths := hl
    cleared := by simp [derivedCleared, *]
    memories := hm
    tree := by
      intro _
      unfold treeHeld nodeElems
      rw [e2, hb, e4, e5, e6]
      simp only [BitVec.toNat_ofNat, Nat.mod_eq_of_lt hlt, Nat.mod_eq_of_lt
          (show nodes.length - 1 < 2 ^ 22 by omega), readAll_writeAll, Bool.and_eq_true, decide_eq_true_eq,
          and_self]
    codes := by rw [e8]; intro h; cases h }

/-- The invariant says nothing of the input. -/
theorem Inv.input {s : State} (h : Inv p s) (i : Option PortEvent) : Inv p { s with input := i } :=
  ⟨h.params, h.flags, h.table, h.lengths, h.cleared, h.memories, h.tree, h.codes⟩

/-- Nor of the answer. -/
theorem Inv.resp {s : State} (h : Inv p s) (r : Response) : Inv p { s with resp := r } :=
  ⟨h.params, h.flags, h.table, h.lengths, h.cleared, h.memories, h.tree, h.codes⟩

/-- Nor of HOSTERR. -/
theorem Inv.refuse {s : State} (h : Inv p s) : Inv p (refuseAccess s) :=
  ⟨h.params, h.flags, h.table, h.lengths, h.cleared, h.memories, h.tree, h.codes⟩

/-! ## The tree and the codes of a state -/

theorem nodeElems_loadTree (nodes : List TreeNode) (s : State) (h : nodes.length < 2 ^ 22) :
    nodeElems (loadTree nodes s) = nodes := by
  unfold nodeElems
  simp only [loadTree_nodeCnt, loadTree_node, BitVec.toNat_ofNat, Nat.mod_eq_of_lt h]
  exact readAll_writeAll _ _ _

theorem ctElems_loadCodes (es : List CodeEntry) (s : State) (h : es.length < 2 ^ 32) :
    ctElems (loadCodes es s) = es := by
  unfold ctElems
  simp only [loadCodes_ctLen, loadCodes_ct, BitVec.toNat_ofNat, Nat.mod_eq_of_lt h]
  exact readAll_writeAll _ _ _

/-- A valid tree: the node store is what BuildTree gives, and a tree with the table's leaves stands at ROOT. -/
theorem Inv.treeAt {s : State} (h : Inv p s) (hv : s.treeValid = true) : ∃ nodes tr, buildTree s.ft = .ok nodes ∧
    s.nodeCnt.toNat = nodes.length ∧ s.root.toNat = nodes.length - 1 ∧ nodeElems s = nodes ∧
    TreeAt (nodeAt s) s.root.toNat tr ∧ tr.leaves.Perm (s.ft.map fun e => (e.1, e.2.setWidth 85)) ∧
      tr.Summed := by
  have := h.tree hv
  unfold treeHeld at this
  split at this
  · cases this
  · rename_i nodes hb
    simp only [Bool.and_eq_true, decide_eq_true_eq] at this
    obtain ⟨⟨h1, h2⟩, h3⟩ := this
    have hft := h.ftLength
    obtain ⟨tr, ht, hp, hs⟩ := buildTree_builds _ _ hb (by omega)
    refine ⟨nodes, tr, hb, h1, h2, h3, ?_, hp, hs⟩
    rw [h2]
    apply ht.treeAt
    intro j n hj
    have hjl : j < nodes.length := by
      by_contra hc; rw [List.getElem?_eq_none (by omega)] at hj; cases hj
    have e : nodes[j] = n := by rw [List.getElem?_eq_getElem hjl] at hj; simpa using hj
    rw [← e]
    simp only [← h3, nodeElems, getElem_readAll, nodeAt]

/-- One code per entry. -/
theorem assign_length {s : State} (h : Inv p s) (hv : s.treeValid = true) (es)
    (ha : assignCodes (nodeAt s) s.root.toNat s.nodeCnt.toNat = .ok es) :
   es.length = s.ft.length := by
  obtain ⟨nodes, tr, hb, h1, h2, h3, ht, hp, hs⟩ := h.treeAt hv
  have hl := hp.length_eq
  have hsz := tr.size_eq
  have := buildTree_length _ _ hb
  simp only [List.length_map] at hl
  have := assignCodes_paths _ _ _ _ _ ht (by omega) ha
  have := this.1.length_eq
  simpa [hl] using this

/-- BUILD of a non-empty table. -/
theorem build_ok {s : State} (h : Inv p s) (hne : s.ft ≠ []) : ∃ nodes, buildTree s.ft = .ok nodes ∧
    exec .build s = .next (complete (loadTree nodes (invalidateTree s))) ∧ nodes.length = 2 * s.ft.length - 1 ∧
        nodes.length < 2 ^ 22 := by
  have hb := buildTree_ok _ hne
  have hl := buildTree_length _ _ hb
  have := h.ftLength
  refine ⟨_, hb, ?_, hl.1, by omega⟩
  simp only [exec, execBuild, hb]

/-- The root of a valid tree is a Leaf exactly if the table has one entry. -/
theorem root_leaf {s : State} (h : Inv p s) (hv : s.treeValid = true) : (nodeAt s s.root.toNat).isLeaf = true ↔
    s.ft.length = 1 := by
  obtain ⟨nodes, tr, hb, h1, h2, h3, ht, hp, hs⟩ := h.treeAt hv
  have hl := hp.length_eq
  simp only [List.length_map] at hl
  rw [← hl]
  cases ht with
  | leaf h => simp [h, TreeNode.isLeaf, HTree.leaves]
  | node h hl hr =>
    have h1 : ∀ t : HTree, 0 < t.leaves.length := HTree.leaves_length_pos
    simp [h, TreeNode.isLeaf, HTree.leaves]; have := h1 ‹_›; grind

/-! ## Results of the parts of a command -/

/-- An input with an unknown symbol has a first one. -/
theorem first_unknown (ct : List CodeEntry) (ss : List Sym) (h : allKnown ct ss = false) :
    ∃ xs u ys, ss = xs ++ u :: ys ∧ allKnown ct xs = true ∧ lookupCode ct u = none := by
  induction ss with
  | nil => simp [allKnown] at h
  | cons x ss ih =>
    cases hx : lookupCode ct x with
    | none => exact ⟨[], x, ss, rfl, rfl, hx⟩
    | some c =>
      simp only [allKnown, List.all_cons, hx, Option.isSome_some, Bool.true_and] at h
      obtain ⟨xs, u, ys, rfl, h1, h2⟩ := ih h
      refine ⟨x :: xs, u, ys, rfl, ?_, h2⟩
      simp only [allKnown, List.all_cons, hx, Option.isSome_some, Bool.true_and]; exact h1

/-- What the packer has done when it succeeds. -/
theorem pack_ok (maxPay : Nat) (ct : List CodeEntry) (ss : List Sym) (r) (h : pack maxPay ct ss = .ok r) :
    allKnown ct ss = true ∧ r.1.length = ((codeBits ct ss).length + 7) / 8 ∧ r.1.length ≤ maxPay ∧
    r.2.toNat = (8 - (codeBits ct ss).length % 8) % 8 ∧ bytesBits r.1 = codeBits ct ss ++
        List.replicate r.2.toNat false := by
  cases hk : allKnown ct ss with
  | false =>
    obtain ⟨xs, u, ys, rfl, h1, h2⟩ := first_unknown _ _ hk
    rw [pack_unknown _ _ _ _ _ h1 h2] at h; cases h
  | true =>
    obtain ⟨a, b⟩ := pack_known maxPay ct ss hk
    by_cases hc : ((codeBits ct ss).length + 7) / 8 ≤ maxPay
    · obtain ⟨bytes, pad, h1, h2, h3, h4⟩ := a hc
      rw [h1] at h; cases h
      refine ⟨rfl, h3, ?_, h2, h4⟩
      show bytes.length ≤ maxPay
      omega
    · rw [b (by omega)] at h; cases h

/-- The walk never emits more than SOUT holds. -/
theorem walk_length (node r m bs) : ∀ c o c' o', walk node r m c o bs = .ok (c', o') → o.length ≤ m →
    o'.length ≤ m := by
  induction bs with
  | nil => intro c o c' o' h; cases h; exact id
  | cons b bs ih =>
    intro c o c' o' h ho
    simp only [walk] at h
    repeat' split at h
    all_goals first | cases h | skip
    all_goals first | (exact ih _ _ _ _ h ho) | (refine ih _ _ _ _ h ?_; simp; omega)

theorem scanSymbol_scalar (h : List Byte) (s r) (e : scanSymbol h = .ok (s, r)) : isScalar s.toNat = true := by
  unfold scanSymbol at e
  split at e
  · cases e
  · split at e
    · split at e
      · cases e
      · split at e
        · cases e
        · cases e
          rename_i hs
          unfold escapedSymbol at hs
          split at hs <;> cases hs <;> rfl
    · split at e
      · cases e
      · rename_i hd
        split at e <;> cases e
        exact (utf8dec_sound _ _ _ hd).1

theorem scanEntry_ok (m t h t' h') (e : scanEntry m t h = .ok (t', h')) (ht : tableOk t = true)
    (hl : t.length ≤ m) :
    tableOk t' = true ∧ t'.length ≤ m := by
  unfold scanEntry at e
  obtain ⟨_, _, e⟩ := bind_ok e
  obtain ⟨⟨s, _⟩, hs, e⟩ := bind_ok e
  obtain ⟨_, _, e⟩ := bind_ok e
  obtain ⟨_, _, e⟩ := bind_ok e
  obtain ⟨_, _, e⟩ := bind_ok e
  obtain ⟨⟨c, _⟩, _, e⟩ := bind_ok e
  simp only at e
  split at e
  · cases e
  · split at e
    · cases e
    · cases e
      refine ⟨tableOk_tableSet _ _ _ ht (scanSymbol_scalar _ _ _ hs), ?_⟩
      have := (length_tableSet t s c).1
      omega

theorem scanEntries_ok (m n) : ∀ t h t' h', scanEntries m n t h = .ok (t', h') → tableOk t = true →
    t.length ≤ m →
    tableOk t' = true ∧ t'.length ≤ m := by
  induction n with
  | zero => intro t h t' h' e; cases e
  | succ n ih =>
    intro t h t' h' e ht hl
    simp only [scanEntries] at e
    repeat' split at e
    all_goals first | cases e; done | skip
    · cases e; exact scanEntry_ok _ _ _ _ _ ‹_› ht hl
    · have := scanEntry_ok _ _ _ _ _ ‹scanEntry _ _ _ = _› ht hl
      exact ih _ _ _ _ e this.1 this.2

theorem scanHeader_ok (m h t p) (e : scanHeader m h = .ok (t, p)) : tableOk t = true ∧ t.length ≤ m := by
  unfold scanHeader at e
  obtain ⟨⟨t', _⟩, hl, e⟩ := bind_ok e
  obtain ⟨_, _, e⟩ := bind_ok e
  cases e
  unfold scanList at hl
  repeat' split at hl
  · cases hl
  · cases hl
  · cases hl; exact ⟨rfl, Nat.zero_le _⟩
  · exact scanEntries_ok _ _ _ _ _ _ hl rfl (Nat.zero_le _)

/-- What RDHDR has read fits the instance. -/
theorem parseImage_ok (a b img r) (e : parseImage a b img = .ok r) :
    tableOk r.table = true ∧ r.table.length ≤ a ∧ r.pay.length ≤ b ∧ r.hdrLen + r.pay.length + 32 =
        img.length := by
  unfold parseImage at e
  repeat' split at e
  all_goals first | cases e; done | skip
  cases e
  have := scanHeader_ok _ _ _ _ ‹_›
  refine ⟨this.1, this.2, ?_, ?_⟩
  · simp; omega
  · simp; omega

theorem decodeSymbols_length (s : State) (out) (h : decodeSymbols p s = .ok out) :
    out.length ≤ p.maxOut.toNat := by
  unfold decodeSymbols at h
  repeat' split at h
  all_goals first | (cases h; done) | skip
  cases h
  exact walk_length _ _ _ _ _ _ _ _ ‹_› (by simp)

theorem word_zero_le (x : Word) : 0#32 ≤ x := by simp [BitVec.le_def]

theorem payload_len {maxPay : Word} (n : Nat) (h : n ≤ maxPay.toNat) : BitVec.ofNat 32 n ≤ maxPay := by
  rw [BitVec.le_def, BitVec.toNat_ofNat]
  exact Nat.le_trans (Nat.mod_le _ _) h

theorem length_imageText (t p pay) : (imageText t p pay).length = 32 +
    (headerText t p).length + pay.length := by
  simp [imageText]; omega

theorem flagsOk_complete (s : State) (h : s.ctValid = true → s.treeValid = true) : flagsOk (complete s) =
    true := by
  simp only [flagsOk, complete_busy, complete_error, complete_done, complete_err, complete_ctValid,
      complete_treeValid, complete_errinfo]
  cases h1 : s.ctValid <;> cases h2 : s.treeValid <;> simp_all

theorem flagsOk_raise (f : Failure) (s : State) (h : s.ctValid = true → s.treeValid = true) : flagsOk
    (raise f s) = true := by
  simp only [flagsOk, raise_busy, raise_error, raise_done, raise_err, raise_ctValid, raise_treeValid,
      raise_errinfo]
  cases f <;> cases h1 : s.ctValid <;> cases h2 : s.treeValid <;> simp_all [Failure.code, Failure.info]

/-- The invariant where the codes have just been assigned. -/
theorem inv_loadCodes {s : State} (h : Inv p s) (es : List CodeEntry) (hr : assignResult s = .ok es) :
    Inv p (complete (loadCodes es (invalidateCt s))) := by
  unfold assignResult at hr
  split at hr
  · rename_i hv
    have hl := assign_length h hv es hr
    have hft := h.ftLength
    have hm := Inv.mems h
    exact {
      params := h.params
      flags := by apply flagsOk_complete; intro _; exact hv
      table := h.table
      lengths := h.lengths
      cleared := by
        have := h.cleared
        simp_all [derivedCleared]
      memories := by
        have : (s.ct.writeAll es).wf = true := wf_writeAll _ _ hm.2.1
        have : (s.ct.writeAll es).below p.maxSyms.toNat = true := below_writeAll _ _ _ hm.2.2.2.2.2.2.2.1
            (by omega)
        simp_all [memoriesOk]
      tree := h.tree
      codes := by
        intro _
        unfold codesHeld
        have e1 : nodeAt (complete (loadCodes es (invalidateCt s))) = nodeAt s := rfl
        have e2 : ctElems (complete (loadCodes es (invalidateCt s))) = es := ctElems_loadCodes es
            (invalidateCt s) (by omega)
        simp only [e1, e2, complete_root, complete_nodeCnt, loadCodes_root, loadCodes_nodeCnt,
            invalidateCt_root, invalidateCt_nodeCnt, hr]
        simp
        omega }
  · cases hr

/-! ## The commands -/

theorem inv_nop {s t : State} (h : Inv p s) (e : exec .nop s = .next t) : Inv p t := by
  cases e
  exact { params := h.params, flags := flagsOk_complete _ (Inv.flgs h).2.2.2.1, table := h.table, lengths :=
      h.lengths, cleared := h.cleared, memories := by exact h.memories, tree := h.tree, codes := h.codes }

theorem inv_build {s t : State} (h : Inv p s) (e : exec .build s = .next t) : Inv p t := by
  simp only [exec, execBuild] at e
  have hm := Inv.mems h
  have hft := h.ftLength
  split at e <;> cases e
  · apply h.invalid
    · apply flagsOk_raise; simp
    · exact h.lengths
    · rw [memoriesOk_iff]; simp; tauto
    · exact h.table
    all_goals rfl
  · rename_i nodes hb
    have hlen := buildTree_length _ _ hb
    apply h.loaded nodes hb
    · apply flagsOk_complete; simp
    · exact h.lengths
    · rw [memoriesOk_iff]; simp
      have := wf_writeAll s.node nodes hm.1
      have := below_writeAll s.node nodes (2 * p.maxSyms.toNat - 1) hm.2.2.2.2.2.2.1 (by omega)
      tauto
    all_goals rfl

theorem inv_assign {s t : State} (h : Inv p s) (e : exec .assign s = .next t) : Inv p t := by
  simp only [exec, execAssign] at e
  have hm := Inv.mems h
  split at e <;> cases e
  · exact {
      params := h.params
      flags := by apply flagsOk_raise; simp
      table := h.table
      lengths := h.lengths
      cleared := by have := h.cleared; simp only [derivedCleared, Bool.and_eq_true, Bool.or_eq_true,
          decide_eq_true_eq] at this ⊢; exact ⟨this.1, .inr rfl⟩
      memories := by rw [memoriesOk_iff]; simp; tauto
      tree := h.tree
      codes := by intro hh; cases hh }
  · exact inv_loadCodes h _ ‹_›

theorem inv_encode {s t : State} (h : Inv p s) (e : execOn p .encode s = .next t) : Inv p t := by
  simp only [execOn, encodeOn] at e
  have hm := Inv.mems h
  have hl := Inv.lens h
  have hf := Inv.flgs h
  split at e <;> cases e
  · apply h.simple
    · apply flagsOk_raise; exact hf.2.2.2.1
    · refine (lengthsFit_iff _).2 ⟨?_, ?_, ?_, ?_⟩ <;>
        first
        | exact hl.1 | exact hl.2.1 | exact hl.2.2.1 | exact hl.2.2.2
        | exact word_zero_le _
    · rw [memoriesOk_iff]; simp; tauto
    all_goals rfl
  · rename_i r hr
    unfold encodeResult at hr
    split at hr
    · have := pack_ok _ _ _ _ hr
      apply h.simple
      · apply flagsOk_complete; exact hf.2.2.2.1
      · refine (lengthsFit_iff _).2 ⟨?_, ?_, ?_, ?_⟩ <;>
        first
        | exact hl.1 | exact hl.2.1 | exact hl.2.2.1 | exact hl.2.2.2
        | exact word_zero_le _ | exact payload_len _ (by omega)
      · rw [memoriesOk_iff]; simp
        have := wf_writeAll s.pay r.1 hm.2.2.2.2.1
        have := below_writeAll s.pay r.1 p.maxPay.toNat hm.2.2.2.2.2.2.2.2.2.2.1 (by tauto)
        tauto
      all_goals rfl
    · cases hr

theorem inv_wrhdr {s t : State} (h : Inv p s) (e : execOn p .wrhdr s = .next t) : Inv p t := by
  simp only [execOn, wrhdrOn] at e
  have hm := Inv.mems h
  have hl := Inv.lens h
  have hf := Inv.flgs h
  split at e <;> cases e
  · apply h.simple
    · apply flagsOk_raise; exact hf.2.2.2.1
    · refine (lengthsFit_iff _).2 ⟨?_, ?_, ?_, ?_⟩ <;>
        first
        | exact hl.1 | exact hl.2.1 | exact hl.2.2.1 | exact hl.2.2.2
        | exact word_zero_le _
    · rw [memoriesOk_iff]; simp; tauto
    all_goals rfl
  · rename_i hc
    apply h.simple
    · apply flagsOk_complete; exact hf.2.2.2.1
    · refine (lengthsFit_iff _).2 ⟨?_, ?_, ?_, ?_⟩ <;>
        first
        | exact hl.1 | exact hl.2.1 | exact hl.2.2.1 | exact hl.2.2.2
        | exact word_zero_le _ | exact payload_len _ (by omega)
    · rw [memoriesOk_iff]; simp
      have := wf_writeAll s.img (imageText s.ft s.pad (payElems s)) hm.2.2.2.2.2.1
      have := below_writeAll s.img (imageText s.ft s.pad
          (payElems s)) p.maxImg.toNat hm.2.2.2.2.2.2.2.2.2.2.2
          (by rw [length_imageText]; simp only [payElems, length_readAll]; omega)
      tauto
    all_goals rfl

theorem inv_rdhdr {s t : State} (h : Inv p s) (e : execOn p .rdhdr s = .next t) : Inv p t := by
  simp only [execOn, rdhdrOn] at e
  have hm := Inv.mems h
  have hl := Inv.lens h
  split at e <;> cases e
  · apply h.invalid
    · apply flagsOk_raise; simp
    · refine (lengthsFit_iff _).2 ⟨?_, ?_, ?_, ?_⟩ <;>
        first
        | exact hl.1 | exact hl.2.1 | exact hl.2.2.1 | exact hl.2.2.2
        | exact word_zero_le _
    · rw [memoriesOk_iff]; simp; tauto
    · simp [tableFits, tableOk, tableSorted]
    all_goals rfl
  · rename_i r hr
    have := parseImage_ok _ _ _ _ hr
    apply h.invalid
    · apply flagsOk_complete; simp
    · refine (lengthsFit_iff _).2 ⟨?_, ?_, ?_, ?_⟩ <;>
        first
        | exact hl.1 | exact hl.2.1 | exact hl.2.2.1 | exact hl.2.2.2
        | exact word_zero_le _ | exact payload_len _ (by omega)
    · rw [memoriesOk_iff]; simp
      have := wf_writeAll s.pay r.pay hm.2.2.2.2.1
      have := below_writeAll s.pay r.pay p.maxPay.toNat hm.2.2.2.2.2.2.2.2.2.2.1 (by tauto)
      tauto
    · simp [tableFits, this]
    all_goals rfl

theorem inv_decode {s t : State} (h : Inv p s) (e : execOn p .decode s = .next t) : Inv p t := by
  simp only [execOn, decodeOn] at e
  have hm := Inv.mems h
  have hl := Inv.lens h
  have hft := h.ftLength
  split at e
  · cases e
    apply h.invalid
    · apply flagsOk_raise; simp
    · refine (lengthsFit_iff _).2 ⟨?_, ?_, ?_, ?_⟩ <;>
        first
        | exact hl.1 | exact hl.2.1 | exact hl.2.2.1 | exact hl.2.2.2
        | exact word_zero_le _
    · rw [memoriesOk_iff]; simp; tauto
    · exact h.table
    all_goals rfl
  · rename_i nodes hb
    have hlen := buildTree_length _ _ hb
    have := wf_writeAll s.node nodes hm.1
    have := below_writeAll s.node nodes (2 * p.maxSyms.toNat - 1) hm.2.2.2.2.2.2.1 (by omega)
    split at e <;> cases e
    · apply h.loaded nodes hb
      · apply flagsOk_raise; simp
      · refine (lengthsFit_iff _).2 ⟨?_, ?_, ?_, ?_⟩ <;>
        first
        | exact hl.1 | exact hl.2.1 | exact hl.2.2.1 | exact hl.2.2.2
        | exact word_zero_le _
      · rw [memoriesOk_iff]; simp
        tauto
      all_goals rfl
    · rename_i out ho
      have hol : out.length ≤ p.maxOut.toNat := decodeSymbols_length
          (loadTree nodes (decodeStart s)) _ ho
      apply h.loaded nodes hb
      · apply flagsOk_complete; simp
      · refine (lengthsFit_iff _).2 ⟨?_, ?_, ?_, ?_⟩ <;>
        first
        | exact hl.1 | exact hl.2.1 | exact hl.2.2.1 | exact hl.2.2.2
        | exact word_zero_le _ | exact payload_len _ (by omega)
      · rw [memoriesOk_iff]; simp
        have := wf_writeAll s.sout out hm.2.2.2.1
        have := below_writeAll s.sout out p.maxOut.toNat hm.2.2.2.2.2.2.2.2.2.1 hol
        tauto
      all_goals rfl

/-- A changed table invalidates what was derived. -/
theorem inv_table {s : State} (h : Inv p s) (t : Table) (ht : tableOk t = true)
    (hl : t.length ≤ p.maxSyms.toNat) :
    Inv p (withTable t s) := by
  have hm := Inv.mems h
  have hf := Inv.flgs h
  apply h.invalid
  · have := h.flags; simp only [flagsOk, Bool.and_eq_true] at this ⊢; exact ⟨⟨this.1.1, rfl⟩, this.2⟩
  · exact h.lengths
  · rw [memoriesOk_iff]; simpa using hm
  · simp [tableFits, ht, hl]
  all_goals rfl

end Sys2Proof.Machine
end

