-- ==== Sys2Proof/Laws/Merge.lean ====
section
/-! SUPPORT. The merge loop of BuildTree: what its queue holds at every pass, and the order it merges in
(40_tree_builder.md R101, R102). -/

namespace Sys2Proof.Machine

variable {p : Params}

/-! ## The queue -/

/-- The key of R101. -/
def Pending.key (x : Pending) : Nat × Nat × Nat := (x.weight.toNat, x.cat, x.tb)

theorem before_iff (a b : Pending) : a.before b = true ↔ keyBefore a.key b.key := by
  simp only [Pending.before, keyBefore, Pending.key, Bool.or_eq_true, Bool.and_eq_true, decide_eq_true_eq,
      BitVec.lt_def,
    BitVec.toNat_inj]

theorem keyBefore_trans {a b c} (h : keyBefore a b) (h' : keyBefore b c) : keyBefore a c := by
  obtain ⟨a1, a2, a3⟩ := a; obtain ⟨b1, b2, b3⟩ := b; obtain ⟨c1, c2, c3⟩ := c
  simp only [keyBefore] at *; omega

theorem keyBefore_total {a b} (h : a ≠ b) (h' : ¬ keyBefore a b) : keyBefore b a := by
  obtain ⟨a1, a2, a3⟩ := a; obtain ⟨b1, b2, b3⟩ := b
  simp only [keyBefore, ne_eq, Prod.mk.injEq] at *; omega

/-- Ascending keys. -/
def QSorted (q : List Pending) : Prop := q.Pairwise (fun a b => keyBefore a.key b.key)

theorem enqueue_sorted (x : Pending) (q : List Pending) (h : QSorted q) (hx : ∀ y ∈ q, x.key ≠ y.key) : QSorted
    (enqueue x q) := by
  induction q with
  | nil => simp [enqueue, QSorted]
  | cons y q ih =>
    simp only [enqueue]
    simp only [QSorted, List.pairwise_cons] at h
    split
    · rename_i hb
      rw [before_iff] at hb
      simp only [QSorted, List.pairwise_cons, List.mem_cons, forall_eq_or_imp]
      exact ⟨⟨hb, fun z hz => keyBefore_trans hb (h.1 z hz)⟩, h.1, h.2⟩
    · rename_i hb
      rw [before_iff] at hb
      simp only [QSorted, List.pairwise_cons]
      refine ⟨?_, ih h.2 (fun z hz => hx z (List.mem_cons_of_mem _ hz))⟩
      intro z hz
      have := (enqueue_perm x q).mem_iff.1 hz
      rcases List.mem_cons.1 this with rfl | hz
      · exact keyBefore_total (hx y (List.mem_cons_self)) hb
      · exact h.1 z hz

theorem foldr_enqueue_sorted (xs : List Pending) (h : xs.Pairwise (fun a b => a.key ≠ b.key)) : QSorted
    (xs.foldr enqueue []) := by
  induction xs with
  | nil => simp [QSorted]
  | cons x xs ih =>
    simp only [List.pairwise_cons] at h
    exact enqueue_sorted _ _ (ih h.2) (fun y hy => h.1 y ((foldr_enqueue_perm xs).mem_iff.1 hy))

theorem keyOf_append (n : Nat) (pre more : List TreeNode) (i : Nat) (h : i < pre.length) : keyOf n
    (pre ++ more) i = keyOf n pre i := by
  simp only [keyOf, List.getElem?_append_left h]

/-! ## The loop -/

/-- What the queue holds when the nodes so far are `pre`: every node that is no child yet, keys ascending. -/
structure LoopInv (n : Nat) (pre : List TreeNode) (q : List Pending) : Prop where
  sorted : QSorted q
  keys : ∀ x ∈ q, keyOf n pre x.idx = x.key ∧ x.cat ≤ 1 ∧ (x.cat = 1 → x.tb + n < pre.length)
  perm : (pre.flatMap childrenOf ++ q.map Pending.idx).Perm (List.range pre.length)
  sum : (q.map (fun x => x.weight.toNat)).sum < 2 ^ 85

theorem LoopInv.idx_lt {n pre q} (h : LoopInv n pre q) (x) (hx : x ∈ q) : x.idx < pre.length := by
  have := h.perm.mem_iff (a := x.idx)
  simpa using this.1 (List.mem_append_right _ (List.mem_map_of_mem hx))

/-- One pass keeps it. -/
theorem LoopInv.step {n pre a b q} (h : LoopInv n pre (a :: b :: q)) (hn : n ≤ pre.length)
    (hb : pre.length < 2 ^ 22) :
    LoopInv n (pre ++ [.internal (a.weight + b.weight) (BitVec.ofNat 22 a.idx) (BitVec.ofNat 22 b.idx)])
      (enqueue ⟨pre.length, a.weight + b.weight, 1, pre.length - n⟩ q) ∧ (a.weight + b.weight).toNat =
          a.weight.toNat + b.weight.toNat := by
  have ha := h.idx_lt a (by simp)
  have hbb := h.idx_lt b (by simp)
  have hs := h.sum
  simp only [List.map_cons, List.sum_cons] at hs
  have hw : (a.weight + b.weight).toNat = a.weight.toNat + b.weight.toNat := by
    rw [BitVec.toNat_add, Nat.mod_eq_of_lt (by omega)]
  refine ⟨⟨?_, ?_, ?_, ?_⟩, hw⟩
  · apply enqueue_sorted
    · have := h.sorted; simp only [QSorted, List.pairwise_cons] at this; exact this.2.2
    · intro y hy hk
      have := h.keys y (by simp [hy])
      simp only [Pending.key, Prod.mk.injEq] at hk
      have := this.2.2 hk.2.1.symm
      omega
  · intro x hx
    rcases List.mem_cons.1 ((enqueue_perm _ q).mem_iff.1 hx) with rfl | hx
    · refine ⟨?_, by simp, by simp; omega⟩
      simp [keyOf, Pending.key]
    · have := h.keys x (by simp [hx])
      rw [keyOf_append _ _ _ _ (h.idx_lt x (by simp [hx]))]
      refine ⟨this.1, this.2.1, fun hc => ?_⟩
      have := this.2.2 hc
      simp; omega
  · have hp := h.perm
    rw [List.length_append, List.length_singleton, List.range_succ]
    have e : ((pre ++ [TreeNode.internal (a.weight + b.weight) (BitVec.ofNat 22 a.idx)
        (BitVec.ofNat 22 b.idx)]).flatMap childrenOf) =
       pre.flatMap childrenOf ++ [a.idx, b.idx] := by
      simp [childrenOf, Nat.mod_eq_of_lt (show a.idx < 4194304 by omega), Nat.mod_eq_of_lt
          (show b.idx < 4194304 by omega)]
    rw [e]
    have h1 := (enqueue_perm ⟨pre.length, a.weight + b.weight, 1, pre.length - n⟩ q).map Pending.idx
    have h2 : (pre.flatMap childrenOf ++ [a.idx, b.idx] ++ List.map Pending.idx
        (enqueue ⟨pre.length, a.weight + b.weight, 1, pre.length - n⟩ q)).Perm
       (pre.flatMap childrenOf ++ [a.idx, b.idx] ++ (pre.length :: q.map Pending.idx)) :=
           List.Perm.append_left _ h1
    refine h2.trans ?_
    refine (List.perm_middle).trans ?_
    refine List.Perm.trans ?_ (List.perm_append_comm (l₁ := [pre.length]))
    simp only [List.singleton_append]
    apply List.Perm.cons
    simpa using hp
  · have h1 := (enqueue_perm ⟨pre.length, a.weight + b.weight, 1, pre.length - n⟩ q).map
      (fun x => x.weight.toNat)
    rw [h1.sum_eq]
    simp only [List.map_cons, List.sum_cons, hw]; omega

theorem take_nodes (pre more : List TreeNode) : (pre ++ more).take pre.length = pre := by simp

/-- The Internal of creation number `k` takes the two smallest of those that are no child yet. -/
theorem mergeLoop_order (n : Nat) (fuel seq : Nat) (pre : List TreeNode) (q : List Pending)
    (hpre : pre.length = n + seq)
    (hb : pre.length + q.length ≤ 2 ^ 22) (hf : q.length ≤ fuel + 1) (h : LoopInv n pre q) (k : Nat)
        (hk : seq ≤ k) (hk2 : k + 1 < seq + q.length) :
    let nodes := pre ++ mergeLoop n fuel seq q
    ∃ w l r, nodes[n + k]? = some (.internal w l r) ∧
      w.toNat = (keyOf n nodes l.toNat).1 + (keyOf n nodes r.toNat).1 ∧
      pendingAt n nodes k l.toNat ∧ pendingAt n nodes k r.toNat ∧ l ≠ r ∧
      (∀ i, pendingAt n nodes k i → i ≠ l.toNat → keyBefore (keyOf n nodes l.toNat) (keyOf n nodes i)) ∧
      (∀ i, pendingAt n nodes k i → i ≠ l.toNat → i ≠ r.toNat →
        keyBefore (keyOf n nodes r.toNat) (keyOf n nodes i)) := by
  induction fuel generalizing seq pre q with
  | zero => exact absurd hk2 (by omega)
  | succ fuel ih =>
    match q, h with
    | [], h => exact absurd hk2 (by simp; omega)
    | [x], h => exact absurd hk2 (by simp; omega)
    | a :: b :: q, h =>
      simp only [List.length_cons] at hb hf hk2
      obtain ⟨hi, hw⟩ := h.step (by omega) (by omega)
      have hseq : pre.length - n = seq := by omega
      rw [hseq, hpre] at hi
      have e : pre ++ mergeLoop n (fuel + 1) seq (a :: b :: q) =
          (pre ++ [TreeNode.internal (a.weight + b.weight) (BitVec.ofNat 22 a.idx) (BitVec.ofNat 22 b.idx)]) ++
          mergeLoop n fuel (seq + 1) (enqueue ⟨n + seq, a.weight + b.weight, 1, seq⟩ q) := by
        simp [mergeLoop]
      rcases Nat.eq_or_lt_of_le hk with rfl | hlt
      · clear ih
        have hal := h.idx_lt a (by simp)
        have hbl := h.idx_lt b (by simp)
        have ea : (BitVec.ofNat 22 a.idx).toNat = a.idx := by simp; omega
        have eb : (BitVec.ofNat 22 b.idx).toNat = b.idx := by simp; omega
        have hnd : (pre.flatMap childrenOf ++ (a :: b :: q).map Pending.idx).Nodup :=
            h.perm.nodup_iff.2 List.nodup_range
        have pend : ∀ i, pendingAt n (pre ++ mergeLoop n (fuel + 1) seq (a :: b :: q)) seq i ↔ i ∈
            (a :: b :: q).map Pending.idx := by
          intro i
          rw [pendingAt, ← hpre, take_nodes]
          have hm := h.perm.mem_iff (a := i)
          simp only [List.mem_append, List.mem_range] at hm
          constructor
          · rintro ⟨h1, h2⟩
            exact (hm.2 h1).resolve_left h2
          · intro hi
            refine ⟨hm.1 (.inr hi), ?_⟩
            intro hc
            exact (List.nodup_append.1 hnd).2.2 i hc i hi rfl
        have kk : ∀ x ∈ (a :: b :: q), keyOf n (pre ++ mergeLoop n (fuel + 1) seq (a :: b :: q)) x.idx =
            x.key := by
          intro x hx
          rw [keyOf_append _ _ _ _ (h.idx_lt x hx)]; exact (h.keys x hx).1
        have hs := h.sorted
        simp only [QSorted, List.pairwise_cons, List.mem_cons, forall_eq_or_imp] at hs
        have hndq := (List.nodup_append.1 hnd).2.1
        simp only [List.map_cons, List.nodup_cons, List.mem_cons] at hndq
        refine ⟨a.weight + b.weight, BitVec.ofNat 22 a.idx, BitVec.ofNat 22 b.idx, ?_, ?_, ?_, ?_, ?_, ?_, ?_⟩
        · rw [e, ← hpre]; simp
        · rw [ea, eb, kk a (by simp), kk b (by simp), hw]; rfl
        · rw [ea, pend]; simp
        · rw [eb, pend]; simp
        · intro hc
          have := congrArg BitVec.toNat hc
          rw [ea, eb] at this
          exact hndq.1 (.inl this)
        · intro i hi hne
          rw [ea] at hne ⊢
          rw [pend] at hi
          obtain ⟨x, hx, rfl⟩ := List.mem_map.1 hi
          rw [kk a (by simp), kk x hx]
          simp only [List.mem_cons] at hx
          rcases hx with rfl | rfl | hx
          · exact absurd rfl hne
          · exact hs.1.1
          · exact hs.1.2 x hx
        · intro i hi hne hne2
          rw [ea] at hne; rw [eb] at hne2 ⊢
          rw [pend] at hi
          obtain ⟨x, hx, rfl⟩ := List.mem_map.1 hi
          rw [kk b (by simp), kk x hx]
          simp only [List.mem_cons] at hx
          rcases hx with rfl | rfl | hx
          · exact absurd rfl hne
          · exact absurd rfl hne2
          · exact hs.2.1 x hx
      · intro nodes
        have := ih (seq + 1) (pre ++ [TreeNode.internal (a.weight + b.weight) (BitVec.ofNat 22 a.idx)
            (BitVec.ofNat 22 b.idx)]) (enqueue ⟨n + seq, a.weight + b.weight, 1, seq⟩ q)
          (by simp; omega) (by simp; omega) (by simp; omega) hi hlt (by simp; omega)
        simp only [← e] at this
        exact this

/-- In the end every node but the last is a child, once, and stands below its parent. -/
theorem mergeLoop_perm (n : Nat) (fuel seq : Nat) (pre : List TreeNode) (q : List Pending)
    (hpre : pre.length = n + seq)
    (hb : pre.length + q.length ≤ 2 ^ 22) (hf : q.length ≤ fuel + 1) (h : LoopInv n pre q) (hq : q ≠ [])
        (hlast : ∀ x, q = [x] → x.idx = pre.length - 1) (hp : pre ≠ [])
    (hc : ∀ i node, pre[i]? = some node → ∀ c ∈ childrenOf node, c < i) :
    let nodes := pre ++ mergeLoop n fuel seq q
    (nodes.flatMap childrenOf).Perm (List.range (nodes.length - 1)) ∧
        (∀ i node, nodes[i]? = some node → ∀ c ∈ childrenOf node, c < i) := by
  induction fuel generalizing seq pre q with
  | zero =>
    match q, h, hq with
    | [x], h, _ =>
      simp only [mergeLoop, List.append_nil]
      refine ⟨?_, hc⟩
      have := h.perm
      have hl : 0 < pre.length := List.length_pos_iff.2 hp
      rw [show pre.length = (pre.length - 1) + 1 by omega, List.range_succ] at this
      simp only [List.map_cons, List.map_nil, hlast x rfl] at this
      exact (List.perm_append_right_iff _).1 this
    | _ :: _ :: _, h, _ => simp at hf
  | succ fuel ih =>
    match q, h, hq with
    | [x], h, _ =>
      simp only [mergeLoop, List.append_nil]
      refine ⟨?_, hc⟩
      have := h.perm
      have hl : 0 < pre.length := List.length_pos_iff.2 hp
      rw [show pre.length = (pre.length - 1) + 1 by omega, List.range_succ] at this
      simp only [List.map_cons, List.map_nil, hlast x rfl] at this
      exact (List.perm_append_right_iff _).1 this
    | a :: b :: q, h, _ =>
      simp only [List.length_cons] at hb hf
      obtain ⟨hi, hw⟩ := h.step (by omega) (by omega)
      have hseq : pre.length - n = seq := by omega
      rw [hseq, hpre] at hi
      have e : pre ++ mergeLoop n (fuel + 1) seq (a :: b :: q) =
          (pre ++ [TreeNode.internal (a.weight + b.weight) (BitVec.ofNat 22 a.idx) (BitVec.ofNat 22 b.idx)]) ++
          mergeLoop n fuel (seq + 1) (enqueue ⟨n + seq, a.weight + b.weight, 1, seq⟩ q) := by
        simp [mergeLoop]
      have hal := h.idx_lt a (by simp)
      have hbl := h.idx_lt b (by simp)
      have := ih (seq + 1) (pre ++ [TreeNode.internal (a.weight + b.weight) (BitVec.ofNat 22 a.idx)
          (BitVec.ofNat 22 b.idx)]) (enqueue ⟨n + seq, a.weight + b.weight, 1, seq⟩ q)
          (by simp; omega) (by simp; omega) (by simp; omega) hi
              (by intro hh; have := congrArg List.length hh; simp at this)
          (by
            intro x hx
            have hx' : x ∈ enqueue ⟨n + seq, a.weight + b.weight, 1, seq⟩ q := by rw [hx]; simp
            have hlen := congrArg List.length hx
            simp at hlen
            subst hlen
            simp [enqueue] at hx
            rw [← hx]; simp; omega)
          (by simp)
          (by
            intro i node hn c hcc
            rcases Nat.lt_or_ge i pre.length with hl | hl
            · rw [List.getElem?_append_left hl] at hn; exact hc i node hn c hcc
            · rcases Nat.eq_or_lt_of_le hl with rfl | hl
              · simp at hn
                subst hn
                simp [childrenOf] at hcc
                rcases hcc with rfl | rfl
                · exact Nat.lt_of_le_of_lt (Nat.mod_le _ _) hal
                · exact Nat.lt_of_le_of_lt (Nat.mod_le _ _) hbl
              · rw [List.getElem?_eq_none (by simp; omega)] at hn; cases hn)
      simp only [← e] at this
      exact this

/-! ## Where it starts -/

theorem mem_leafPendings (i : Nat) (t : Table) (x) (h : x ∈ leafPendings i t) : ∃ j e, t[j]? = some e ∧ x =
    ⟨i + j, e.2.setWidth 85, 0, e.1.toNat⟩ := by
  induction t generalizing i with
  | nil => simp [leafPendings] at h
  | cons e t ih =>
    simp only [leafPendings, List.mem_cons] at h
    rcases h with rfl | h
    · exact ⟨0, e, rfl, rfl⟩
    · obtain ⟨j, e', h1, rfl⟩ := ih _ h
      exact ⟨j + 1, e', by simpa using h1, by simp; omega⟩

theorem leafPendings_map_idx (i : Nat) (t : Table) : (leafPendings i t).map Pending.idx =
    List.range' i t.length := by
  induction t generalizing i with
  | nil => rfl
  | cons e t ih => simp [leafPendings, ih, List.range'_succ]

theorem leafPendings_sum (i : Nat) (t : Table) : ((leafPendings i t).map (fun x => x.weight.toNat)).sum =
    (t.map (fun e => e.2.toNat)).sum := by
  induction t generalizing i with
  | nil => rfl
  | cons e t ih => simp [leafPendings, ih]; omega

theorem leafPendings_keys (i : Nat) (t : Table) (h : tableSorted t = true) : (leafPendings i t).Pairwise
    (fun a b => a.key ≠ b.key) := by
  induction t generalizing i with
  | nil => simp [leafPendings]
  | cons e t ih =>
    rw [tableSorted_cons] at h
    simp only [leafPendings, List.pairwise_cons]
    refine ⟨?_, ih _ h.2⟩
    intro x hx
    obtain ⟨j, e', h1, rfl⟩ := mem_leafPendings _ _ _ hx
    have := h.1 e' (List.mem_of_getElem? h1)
    simp only [Pending.key, ne_eq, Prod.mk.injEq, not_and]
    intro _ _ hc
    rw [BitVec.lt_def] at this; omega

/-- The sum of all counts. -/
theorem countSum_le (t : Table) : (t.map (fun e => e.2.toNat)).sum ≤ t.length * (2 ^ 64 - 1) := by
  induction t with
  | nil => simp
  | cons e t ih => have := e.2.isLt; simp only [List.map_cons, List.sum_cons, List.length_cons]; omega

/-- It holds of the leaves. -/
theorem loopInv_init (t : Table) (h : tableSorted t = true) (hl : t.length ≤ 1112064) : LoopInv t.length
    (leafNodes t) (initialQueue t) where
  sorted := foldr_enqueue_sorted _ (leafPendings_keys 0 t h)
  keys := by
    intro x hx
    obtain ⟨j, e, h1, rfl⟩ := mem_leafPendings _ _ _ ((foldr_enqueue_perm _).mem_iff.1 hx)
    refine ⟨?_, by simp, by simp⟩
    simp [keyOf, leafNodes, h1, Pending.key]
  perm := by
    have h1 := (foldr_enqueue_perm (leafPendings 0 t)).map Pending.idx
    rw [leafPendings_map_idx, ← List.range_eq_range'] at h1
    have h2 : (leafNodes t).flatMap childrenOf = [] := by
      rw [List.flatMap_eq_nil_iff]
      intro x hx
      obtain ⟨e, _, rfl⟩ := List.mem_map.1 hx
      rfl
    rw [h2]; simpa [initialQueue] using h1
  sum := by
    have h1 := (foldr_enqueue_perm (leafPendings 0 t)).map (fun x => x.weight.toNat)
    rw [initialQueue, h1.sum_eq, leafPendings_sum]
    have := countSum_le t
    omega

theorem initialQueue_last (t : Table) : ∀ x, initialQueue t = [x] → x.idx = (leafNodes t).length - 1 := by
  intro x hx
  have hlen := congrArg List.length hx
  simp at hlen
  match t, hlen with
  | [e], _ =>
    simp [initialQueue, leafPendings, enqueue] at hx
    rw [← hx]; rfl

/-! ## A valid tree -/

/-- The node store of a valid tree. -/
theorem valid_nodes {s : State} (h : Inv p s) (hv : s.treeValid = true) : s.ft ≠ [] ∧ nodeElems s =
    leafNodes s.ft ++ mergeLoop s.ft.length s.ft.length 0 (initialQueue s.ft) ∧
   s.nodeCnt.toNat = (nodeElems s).length ∧ s.root.toNat = (nodeElems s).length - 1 := by
  obtain ⟨nodes, tr, hb, h1, h2, h3, _⟩ := h.treeAt hv
  have hne := (buildTree_length _ _ hb).2
  rw [buildTree_ok _ hne] at hb
  cases hb
  exact ⟨hne, h3, by rw [h3, h1], by rw [h3, h2]⟩

theorem nodeElems_get (s : State) (i : Nat) (h : i < s.nodeCnt.toNat) : (nodeElems s)[i]? = some
    (nodeAt s i) := by
  have : i < (nodeElems s).length := by simpa [nodeElems] using h
  rw [List.getElem?_eq_getElem this]
  simp only [nodeElems, getElem_readAll, nodeAt]

/-- The exact sum of the leaves' weights. -/
def HTree.sumN (t : HTree) : Nat := (t.leaves.map (fun e => e.2.toNat)).sum

/-- No weight wraps (R107). -/
theorem summed_toNat (t : HTree) (h : t.Summed) (hb : t.sumN < 2 ^ 85) : t.weight.toNat = t.sumN := by
  induction t with
  | leaf s w => simp [HTree.weight, HTree.sumN, HTree.leaves]
  | node w l r ihl ihr =>
    have e : (HTree.node w l r).sumN = l.sumN + r.sumN := by simp [HTree.sumN, HTree.leaves]
    rw [e] at hb ⊢
    simp only [HTree.weight]
    rw [h.1, BitVec.toNat_add, ihl h.2.1 (by omega), ihr h.2.2 (by omega), Nat.mod_eq_of_lt (by omega)]

theorem treeAt_weight {node i t} (h : TreeAt node i t) : (node i).weight = t.weight := by
  cases h <;> simp [*, TreeNode.weight, HTree.weight]

end Sys2Proof.Machine
end

