-- ==== Sys2Proof/Laws/Assign.lean ====
section
/-! SUPPORT. The order in which ASSIGN records the leaves (41_code_assigner.md R121), and a valid code table. -/

namespace Sys2Proof.Machine

variable {p : Params}

/-- Being to the left is decided where two paths part. -/
theorem leftOf_append (x y u v : Bits) (h : leftOf x y = true) : leftOf (x ++ u) (y ++ v) = true := by
  induction x generalizing y with
  | nil => simp [leftOf] at h
  | cons a x ih =>
    cases y with
    | nil => simp [leftOf] at h
    | cons b y =>
      simp only [leftOf, List.cons_append, Bool.or_eq_true, Bool.and_eq_true] at h ⊢
      rcases h with h | h
      · exact .inl h
      · exact .inr ⟨h.1, ih _ h.2⟩

theorem leftOf_snoc (x : Bits) : leftOf (x ++ [false]) (x ++ [true]) = true := by
  induction x with
  | nil => rfl
  | cons a x ih => simp [leftOf, ih]

/-- Every code recorded extends a prefix in the queue. -/
theorem bfs_extends (node : Nat → TreeNode) (fuel : Nat) (q : List (Nat × Bits)) : ∀ e ∈ bfs node fuel q,
    e.len = e.code.length ∧ ∃ x ∈ q, x.2 <+: e.code := by
  induction fuel generalizing q with
  | zero => intro e he; cases he
  | succ fuel ih =>
    intro e he
    match q with
    | [] => cases he
    | (i, p) :: q =>
      simp only [bfs] at he
      split at he
      · rcases List.mem_cons.1 he with rfl | he
        · exact ⟨rfl, (i, p), by simp, List.prefix_rfl⟩
        · obtain ⟨h, x, hx, hp⟩ := ih q e he
          exact ⟨h, x, by simp [hx], hp⟩
      · obtain ⟨h, x, hx, hp⟩ := ih _ e he
        refine ⟨h, ?_⟩
        simp only [List.mem_append, List.mem_cons, List.not_mem_nil, or_false] at hx
        rcases hx with hx | rfl | rfl
        · exact ⟨x, by simp [hx], hp⟩
        · exact ⟨(i, p), by simp, (List.prefix_append _ _).trans hp⟩
        · exact ⟨(i, p), by simp, (List.prefix_append _ _).trans hp⟩

/-- Shallower, or as deep and to the left. -/
def bfsRel (a b : CodeEntry) : Prop := a.len < b.len ∨ (a.len = b.len ∧ leftOf a.code b.code = true)

/-- A queue of two levels, each left to right, is recorded in that order. -/
theorem bfs_sorted (node : Nat → TreeNode) (fuel : Nat) (A B : List (Nat × Bits)) (d : Nat)
    (hA : ∀ x ∈ A, x.2.length = d) (hB : ∀ x ∈ B, x.2.length = d + 1)
    (hL : (B ++ A).Pairwise (fun x y => leftOf x.2 y.2 = true)) : (bfs node fuel (A ++ B)).Pairwise bfsRel := by
  induction fuel generalizing A B d with
  | zero => simp [bfs]
  | succ fuel ih =>
    have main : ∀ (i : Nat) (p : Bits) (A B : List (Nat × Bits)) (d : Nat),
        (∀ x ∈ (i, p) :: A, x.2.length = d) → (∀ x ∈ B, x.2.length = d + 1) →
        ((B ++ (i, p) :: A).Pairwise (fun x y => leftOf x.2 y.2 = true)) →
            (bfs node (fuel + 1) ((i, p) :: (A ++ B))).Pairwise bfsRel := by
      intro i p A B d hA hB hL
      have hp : p.length = d := hA (i, p) (by simp)
      have hA' : ∀ x ∈ A, x.2.length = d := fun x hx => hA x (by simp [hx])
      have hL1 := List.pairwise_append.1 hL
      have hL2 := List.pairwise_cons.1 hL1.2.1
      simp only [bfs]
      split
      · rw [List.pairwise_cons]
        constructor
        · intro e he
          obtain ⟨hlen, x, hx, hpre⟩ := bfs_extends _ _ _ e he
          have hle := hpre.length_le
          rw [bfsRel]; simp only [hp, hlen]
          rcases List.mem_append.1 hx with hx | hx
          · have hxl := hA' x hx
            rcases Nat.lt_or_ge d e.code.length with h | h
            · exact .inl h
            · right
              have : x.2 = e.code := hpre.eq_of_length (by omega)
              rw [← this]
              exact ⟨by omega, hL2.1 x hx⟩
          · have := hB x hx
            left; omega
        · apply ih A B d hA' hB
          rw [List.pairwise_append]
          exact ⟨hL1.1, hL2.2, fun x hx y hy => hL1.2.2 x hx y (by simp [hy])⟩
      · rename_i w l r _
        rw [List.append_assoc]
        apply ih A (B ++ [(l.toNat, p ++ [false]), (r.toNat, p ++ [true])]) d hA'
        · intro x hx
          simp only [List.mem_append, List.mem_cons, List.not_mem_nil, or_false] at hx
          rcases hx with hx | rfl | rfl
          · exact hB x hx
          · simp [hp]
          · simp [hp]
        · rw [List.append_assoc, List.pairwise_append]
          refine ⟨hL1.1, ?_, ?_⟩
          · simp only [List.cons_append, List.nil_append, List.pairwise_cons, List.mem_cons, forall_eq_or_imp]
            refine ⟨⟨leftOf_snoc p, ?_⟩, ?_, hL2.2⟩
            · intro y hy; have := leftOf_append _ _ [false] [] (hL2.1 y hy); simpa using this
            · intro y hy; have := leftOf_append _ _ [true] [] (hL2.1 y hy); simpa using this
          · intro x hx y hy
            simp only [List.cons_append, List.nil_append, List.mem_cons] at hy
            have hxp := hL1.2.2 x hx (i, p) (by simp)
            rcases hy with rfl | rfl | hy
            · have := leftOf_append _ _ [] [false] hxp; simpa using this
            · have := leftOf_append _ _ [] [true] hxp; simpa using this
            · exact hL1.2.2 x hx y (by simp [hy])
    match A with
    | (i, p) :: A => exact main i p A B d hA hB hL
    | [] =>
      match B with
      | [] => simp [bfs]
      | (i, p) :: B =>
        have := main i p B [] (d + 1) hB (by simp) (by simpa using hL)
        simpa using this

/-- A valid code table holds the paths of a tree that stands at ROOT. -/
theorem valid_codes {s : State} (h : Inv p s) (hc : s.ctValid = true) : ∃ tr, TreeAt (nodeAt s) s.root.toNat tr ∧
    ((ctElems s).map (fun e => (e.sym, e.code))).Perm (tr.paths []) ∧ (∀ e ∈ ctElems s, e.len = e.code.length) ∧
        (∃ w l r, tr = .node w l r) ∧
    tr.leaves.Perm (s.ft.map fun e => (e.1, e.2.setWidth 85)) ∧ s.treeValid = true := by
  have hv := (Inv.flgs h).2.2.2.1 hc
  obtain ⟨nodes, tr, hb, h1, h2', h3, ht, hp, hs⟩ := h.treeAt hv
  have := h.codes hc
  unfold codesHeld at this
  split at this
  · cases this
  · rename_i es hr
    simp only [Bool.and_eq_true, decide_eq_true_eq] at this
    have hsz := tr.size_eq
    have hbl := buildTree_length _ _ hb
    have hll := hp.length_eq
    simp only [List.length_map] at hll
    have hpaths := assignCodes_paths _ _ _ _ _ ht (by omega) hr
    rw [← this.2] at hpaths
    exact ⟨tr, ht, hpaths.1, hpaths.2.1, hpaths.2.2, hp, hv⟩

/-- A table has no symbol twice. -/
theorem sorted_nodup (t : Table) (h : tableSorted t = true) : (t.map Prod.fst).Nodup := by
  induction t with
  | nil => simp
  | cons e t ih =>
    rw [tableSorted_cons] at h
    simp only [List.map_cons, List.nodup_cons]
    refine ⟨?_, ih h.2⟩
    intro hc
    obtain ⟨e', he, heq⟩ := List.mem_map.1 hc
    have := h.1 e' he
    rw [heq] at this
    exact absurd this (by rw [BitVec.lt_def]; omega)

end Sys2Proof.Machine
end

