-- ==== Sys2Proof/Laws/PerInstr.lean ====
section
/-! SUPPORT. Families stated per instruction; LAWS.json names them. -/

namespace Sys2Proof.Laws

/-- Of one instruction: it is well-formed, its word is a command word (30_encoding.md R80), and the word
reads back as the instruction (R82, R89). -/
def RoundTrip.Statement (i : Instr) : Prop :=
  i.wf = true ∧ cmdWordOk (encodeWord i) = true ∧ decodeTableWord 32 (encodeWord i).toNat = some i

theorem RoundTrip.nop : RoundTrip.Statement .nop := ⟨rfl, rfl, rfl⟩
theorem RoundTrip.build : RoundTrip.Statement .build := ⟨rfl, rfl, rfl⟩
theorem RoundTrip.assign : RoundTrip.Statement .assign := ⟨rfl, rfl, rfl⟩
theorem RoundTrip.encode : RoundTrip.Statement .encode := ⟨rfl, rfl, rfl⟩
theorem RoundTrip.wrhdr : RoundTrip.Statement .wrhdr := ⟨rfl, rfl, rfl⟩
theorem RoundTrip.rdhdr : RoundTrip.Statement .rdhdr := ⟨rfl, rfl, rfl⟩
theorem RoundTrip.decode : RoundTrip.Statement .decode := ⟨rfl, rfl, rfl⟩
theorem RoundTrip.clr : RoundTrip.Statement .clr := ⟨rfl, rfl, rfl⟩

end Sys2Proof.Laws
end

