-- ==== Sys2Proof/Laws/Walk.lean ====
section
/-! SUPPORT. What the decoder's walk does on codes: a code emits its symbol, a proper part of a code
leaves the cursor inside the tree (44_bitunpacker_decoder.md R174, R175). -/

namespace Sys2Proof.Machine

variable {node : Nat → TreeNode}

/-- From an Internal, the bits of a path emit its symbol and return to the root. -/
theorem walk_path {root maxOut i : Nat} {t : HTree} (h : TreeAt node i t) (s : Sym) (c : Bits)
    (hc : (s, c) ∈ t.paths []) (hne : c ≠ []) (out : List Sym) (bs : Bits) :
    walk node root maxOut i out (c ++ bs) =
      if out.length = maxOut then .error .capacity else walk node root maxOut root (out ++ [s]) bs := by
  induction h generalizing c with
  | leaf => simp [HTree.paths] at hc; exact absurd hc.2 hne
  | @node i w l r tl tr hn hl hr ihl ihr =>
    have down : ∀ (b : Bool) (j : NodeIdx) (u : HTree), TreeAt node j.toNat u →
        (if b then (node i).right.toNat else (node i).left.toNat) = j.toNat →
        (∀ c, (s, c) ∈ u.paths [] → c ≠ [] → walk node root maxOut j.toNat out (c ++ bs) =
          if out.length = maxOut then .error .capacity else walk node root maxOut root (out ++ [s]) bs) →
        ∀ c, (s, c) ∈ u.paths [] → walk node root maxOut i out (b :: (c ++ bs)) =
          if out.length = maxOut then .error .capacity else walk node root maxOut root (out ++ [s]) bs := by
      intro b j u hu hj hrec c hc
      rw [walk, hj]
      cases hu with
      | leaf hs =>
        simp only [HTree.paths, List.mem_singleton, Prod.mk.injEq] at hc
        obtain ⟨rfl, rfl⟩ := hc
        simp [hs]
      | node hs hl' hr' =>
        simp only [hs]
        exact hrec c hc (HTree.paths_nonempty _ _ _ _ hc)
    rw [HTree.paths_node] at hc
    rcases List.mem_append.1 hc with hc | hc
    · obtain ⟨e, he, hx⟩ := List.mem_map.1 hc
      cases hx
      exact down false l tl hl (by simp [hn, TreeNode.left]) ihl _ he
    · obtain ⟨e, he, hx⟩ := List.mem_map.1 hc
      cases hx
      exact down true r tr hr (by simp [hn, TreeNode.right]) ihr _ he

/-- A table all of whose codes are paths of the tree. -/
def CodesOf (t : HTree) (es : List CodeEntry) : Prop := ∀ e ∈ es, (e.sym, e.code) ∈ t.paths []

theorem lookupCode_mem (es : List CodeEntry) (s : Sym) (c : Bits) (h : lookupCode es s = some c) :
    ∃ e ∈ es, e.sym = s ∧ e.code = c := by
  induction es with
  | nil => simp [lookupCode] at h
  | cons e es ih =>
    by_cases he : e.sym = s
    · simp only [lookupCode, he, if_true, Option.some.injEq] at h
      exact ⟨e, by simp, he, h⟩
    · simp only [lookupCode, he, if_false] at h
      obtain ⟨e', h1, h2⟩ := ih h
      exact ⟨e', by simp [h1], h2⟩

theorem lookupCode_isSome (es : List CodeEntry) (s : Sym) :
    (lookupCode es s).isSome = true ↔ ∃ e ∈ es, e.sym = s := by
  induction es with
  | nil => simp [lookupCode]
  | cons e es ih =>
    by_cases he : e.sym = s
    · simp [lookupCode, he]
    · simp [lookupCode, he, ih]

/-- The codes of an input walk back to the input; the walk stops for Capacity when SOUT is full. -/
theorem walk_codeBits {root maxOut : Nat} {w : Weight} {l r : HTree}
    (h : TreeAt node root (.node w l r)) (es : List CodeEntry) (he : CodesOf (.node w l r) es)
    (ss : List Sym) (hk : allKnown es ss = true) (out : List Sym) (bs : Bits)
    (hcap : out.length + ss.length ≤ maxOut) :
    walk node root maxOut root out (codeBits es ss ++ bs) = walk node root maxOut root (out ++ ss) bs := by
  induction ss generalizing out with
  | nil => simp [codeBits]
  | cons s ss ih =>
    simp only [allKnown, List.all_cons, Bool.and_eq_true, List.length_cons] at hk hcap
    obtain ⟨c, hc⟩ := Option.isSome_iff_exists.1 hk.1
    obtain ⟨e, hm, rfl, rfl⟩ := lookupCode_mem _ _ _ hc
    have hp := he e hm
    have := walk_path (root := root) (maxOut := maxOut) h e.sym e.code hp (HTree.paths_nonempty _ _ _ _ hp) out
      (codeBits es ss ++ bs)
    simp only [codeBits, List.flatMap_cons, hc, Option.getD_some, List.append_assoc] at this ⊢
    rw [this, if_neg (by omega)]
    have := ih hk.2 (out ++ [e.sym]) (by simp; omega)
    simpa [codeBits] using this

/-- A proper, non-empty part of a code leaves the cursor on an Internal below the start. -/
theorem walk_partial {root maxOut i : Nat} {t : HTree} (h : TreeAt node i t) (s : Sym) (c d : Bits)
    (hc : (s, c ++ d) ∈ t.paths []) (hd : d ≠ []) (out : List Sym) :
    ∃ j u, walk node root maxOut i out c = .ok (j, out) ∧ TreeAt node j u ∧ (c ≠ [] → u.size < t.size) := by
  induction h generalizing c with
  | leaf => simp [HTree.paths] at hc; exact absurd hc.2.2 hd
  | @node i w l r tl tr hn hl hr ihl ihr =>
    cases c with
    | nil => exact ⟨i, _, by simp [walk], .node hn hl hr, by simp⟩
    | cons b c =>
      have down : ∀ (j : NodeIdx) (u : HTree), TreeAt node j.toNat u →
          (if b then (node i).right.toNat else (node i).left.toNat) = j.toNat →
          u.size < (HTree.node w tl tr).size → (s, c ++ d) ∈ u.paths [] →
          (∃ k v, walk node root maxOut j.toNat out c = .ok (k, out) ∧ TreeAt node k v ∧
            (c ≠ [] → v.size < u.size)) →
          ∃ k v, walk node root maxOut i out (b :: c) = .ok (k, out) ∧ TreeAt node k v ∧
            (b :: c ≠ [] → v.size < (HTree.node w tl tr).size) := by
        intro j u hu hj hsz hm hrec
        obtain ⟨k, v, h1, h2, h3⟩ := hrec
        refine ⟨k, v, ?_, h2, fun _ => ?_⟩
        · rw [walk, hj]
          cases hu with
          | leaf hs =>
            simp only [HTree.paths, List.mem_singleton, Prod.mk.injEq, List.append_eq_nil_iff] at hm
            exact absurd hm.2.2 hd
          | node hs _ _ => simpa only [hs] using h1
        · by_cases hcn : c = []
          · subst hcn
            simp only [walk, Except.ok.injEq, Prod.mk.injEq, and_true] at h1
            subst h1
            rw [h2.unique hu]
            exact hsz
          · exact Nat.lt_trans (h3 hcn) hsz
      rw [HTree.paths_node] at hc
      rcases List.mem_append.1 hc with hc | hc
      · obtain ⟨e, he, hx⟩ := List.mem_map.1 hc
        obtain ⟨e1, e2⟩ := e
        simp only [List.cons_append, Prod.mk.injEq, List.cons.injEq] at hx
        obtain ⟨rfl, rfl, rfl⟩ := hx
        exact down l tl hl (by simp [hn, TreeNode.left]) (by simp [HTree.size]) he (ihl c he)
      · obtain ⟨e, he, hx⟩ := List.mem_map.1 hc
        obtain ⟨e1, e2⟩ := e
        simp only [List.cons_append, Prod.mk.injEq, List.cons.injEq] at hx
        obtain ⟨rfl, rfl, rfl⟩ := hx
        exact down r tr hr (by simp [hn, TreeNode.right]) (by simp [HTree.size]) he (ihr c he)

end Sys2Proof.Machine
end

