-- ==== Sys2Proof/Laws/Results.lean ====
section
/-! SUPPORT. What each command answers once the result of its parts is known, and what the buffers it wrote
then hold. -/

namespace Sys2Proof.Machine

variable {p : Params}

/-! ## ENCODE -/

/-- ENCODE when the packer succeeds. -/
theorem encode_ok (s : State) (r : List Byte × BitVec 3) (hr : encodeResult p s = .ok r) :
    execOn p .encode s = .next (complete { s with
      payLen := BitVec.ofNat 32 r.1.length, pad := r.2, pay := s.pay.writeAll r.1 }) := by
  simp only [execOn, encodeOn, hr]

/-- ENCODE when it fails. -/
theorem encode_err (s : State) (f : Failure) (hr : encodeResult p s = .error f) :
    execOn p .encode s = .next (raise f { s with payLen := 0#32, pad := 0#3, pay := s.pay.spoil }) := by
  simp only [execOn, encodeOn, hr]

/-- The payload reads as written. -/
theorem payElems_write (s t : State) (bytes : List Byte) (h : bytes.length < 2 ^ 32)
    (e1 : t.payLen = BitVec.ofNat 32 bytes.length)
    (e2 : t.pay = s.pay.writeAll bytes) : payElems t = bytes := by
  unfold payElems
  rw [e1, e2, BitVec.toNat_ofNat, Nat.mod_eq_of_lt h]; exact readAll_writeAll _ _ _

/-- The filler bits of the last byte are 0. -/
theorem bytesBits_last (bs : List Byte) (b : Byte) (k : Nat) (bits : Bits)
    (h : bytesBits (bs ++ [b]) = bits ++ List.replicate k false) (hk : k ≤ 7) :
    ∀ j, j < k → b.getLsbD j = false := by
  intro j hj
  rw [bytesBits_append] at h
  have hl := congrArg List.length h
  simp only [List.length_append, length_bytesBits, List.length_replicate, List.length_singleton] at hl
  have h1 : (bytesBits bs ++ bytesBits [b])[8 * bs.length + (7 - j)]? = some (b.getLsbD j) := by
    rw [List.getElem?_append_right (by simp)]
    simp only [length_bytesBits, Nat.add_sub_cancel_left, bytesBits, List.append_nil]
    have : j < 8 := by omega
    interval_cases j <;> rfl
  rw [h, List.getElem?_append_right (by omega), List.getElem?_replicate] at h1
  split at h1
  · simpa using h1.symm
  · cases h1

/-! ## WRHDR and RDHDR -/

/-- The image reads as written. -/
theorem imgElems_write (s t : State) (bytes : List Byte) (h : bytes.length < 2 ^ 32)
    (e1 : t.imgLen = BitVec.ofNat 32 bytes.length)
    (e2 : t.img = s.img.writeAll bytes) : imgElems t = bytes := by
  unfold imgElems
  rw [e1, e2, BitVec.toNat_ofNat, Nat.mod_eq_of_lt h]; exact readAll_writeAll _ _ _

theorem length_imgElems (s : State) : (imgElems s).length = s.imgLen.toNat := by simp [imgElems]

/-- RDHDR when the image is read. -/
theorem rdhdr_ok (s : State) (r)
    (hr : parseImage p.maxSyms.toNat p.maxPay.toNat (imgElems s) = .ok r) :
   execOn p .rdhdr s = .next (complete { rdhdrStart s with
      ft := r.table
      ftLen := BitVec.ofNat 32 r.table.length
      pad := r.pad
      pay := s.pay.writeAll r.pay
      payLen := BitVec.ofNat 32 r.pay.length
      hdrLen := BitVec.ofNat 32 r.hdrLen }) := by
  simp only [execOn, rdhdrOn, hr]

/-- RDHDR when it is not. -/
theorem rdhdr_err (s : State) (f)
    (hr : parseImage p.maxSyms.toNat p.maxPay.toNat (imgElems s) = .error f) :
   execOn p .rdhdr s = .next (raise f { rdhdrStart s with pay := s.pay.spoil }) := by
  simp only [execOn, rdhdrOn, hr]

/-! ## DECODE -/

/-- The bits DECODE walks. -/
theorem payloadBits_designated (s : State) (h : s.payLen = 0#32 → s.pad = 0#3) : payloadBits s = .ok
    (designatedBits s) := by
  unfold payloadBits designatedBits
  split
  · rename_i h0
    rw [if_pos (h h0), h0]
    simp
  · rfl

/-- DECODE when the walk succeeds. -/
theorem decode_ok (s : State) (nodes) (hb : buildTree s.ft = .ok nodes) (out)
    (ho : decodeSymbols p (loadTree nodes (decodeStart s)) = .ok out) :
    execOn p .decode s = .next (complete { loadTree nodes (decodeStart s) with
        sout := s.sout.writeAll out, soutLen := BitVec.ofNat 32 out.length }) := by
  simp only [execOn, decodeOn, hb, ho]

/-- DECODE when it fails. -/
theorem decode_err (s : State) (nodes) (hb : buildTree s.ft = .ok nodes) (f)
    (ho : decodeSymbols p (loadTree nodes (decodeStart s)) = .error f) :
    execOn p .decode s = .next (raise f (spoilSout (loadTree nodes (decodeStart s)))) := by
  simp only [execOn, decodeOn, hb, ho]

/-- The output reads as written. -/
theorem soutElems_write (s t : State) (out : List Sym) (h : out.length < 2 ^ 32)
    (e1 : t.soutLen = BitVec.ofNat 32 out.length)
    (e2 : t.sout = s.sout.writeAll out) : soutElems t = out := by
  unfold soutElems
  rw [e1, e2, BitVec.toNat_ofNat, Nat.mod_eq_of_lt h]; exact readAll_writeAll _ _ _

/-- The walk over codes when SOUT is full. -/
theorem walk_full {root maxOut : Nat} {w : Weight} {l r : HTree} {node : Nat → TreeNode}
    (h : TreeAt node root (.node w l r)) (es : List CodeEntry) (he : CodesOf (.node w l r) es)
    (ss : List Sym) (hk : allKnown es ss = true) (out : List Sym) (rest : Bits) (ho : out.length ≤ maxOut)
    (hcap : maxOut < out.length + ss.length) : walk node root maxOut root out (codeBits es ss ++ rest) =
        .error .capacity := by
  induction ss generalizing out with
  | nil => simp at hcap; omega
  | cons s ss ih =>
    simp only [allKnown, List.all_cons, Bool.and_eq_true] at hk
    obtain ⟨c, hc⟩ := Option.isSome_iff_exists.1 hk.1
    obtain ⟨e, hm, h1, h2⟩ := lookupCode_mem _ _ _ hc
    have hp := he e hm
    rw [h1, h2] at hp
    have hne : c ≠ [] := HTree.paths_nonempty w l r _ hp
    simp only [codeBits, List.flatMap_cons, hc, Option.getD_some, List.append_assoc]
    rw [walk_path h s c hp hne]
    split
    · rfl
    · exact ih hk.2 _ (by simp; omega) (by simp at hcap ⊢; omega)

/-- One bit of a payload (20_memory.md R61). -/
theorem bytesBits_get (bs : List Byte) (k : Nat) : (bytesBits bs)[k]? = (bs[k / 8]?).map
    (fun b => b.getLsbD (7 - k % 8)) := by
  induction bs generalizing k with
  | nil => simp [bytesBits]
  | cons b bs ih =>
    rcases Nat.lt_or_ge k 8 with h | h
    · rw [bytesBits, List.getElem?_append_left (by simp [byteBits]; omega), Nat.div_eq_of_lt h,
        Nat.mod_eq_of_lt h]
      interval_cases k <;> rfl
    · rw [bytesBits, List.getElem?_append_right (by simp [byteBits]; omega), show (byteBits b).length =
        8 from rfl, ih]
      rw [show k / 8 = (k - 8) / 8 + 1 by omega, show (k - 8) % 8 = k % 8 by omega]
      simp

/-- The tree that stands at ROOT after BuildTree. -/
theorem loaded_treeAt {nodes : List TreeNode} {tr : HTree} (h : Built nodes (nodes.length - 1) tr)
    (hlt : nodes.length < 2 ^ 22) (s : State) :
    TreeAt (nodeAt (loadTree nodes s)) (loadTree nodes s).root.toNat tr := by
  have : (loadTree nodes s).root.toNat = nodes.length - 1 := by
    simp only [loadTree_root, BitVec.toNat_ofNat]; rw [Nat.mod_eq_of_lt (by omega)]
  rw [this]
  apply h.treeAt
  intro j n hj
  have hjl : j < nodes.length := by
    by_contra hc; rw [List.getElem?_eq_none (by omega)] at hj; cases hj
  simp only [nodeAt, loadTree_node, get_writeAll, dif_pos hjl]
  rw [List.getElem?_eq_getElem hjl] at hj; simpa using hj

/-! ## The host's count -/

/-- FTSet of distinct symbols one after the other. -/
theorem count_run (ss : List Sym) : ∀ (xs : List Sym) (s : State), (∀ x ∈ xs, isScalar x.toNat = true) →
    xs.Nodup → s.ft.length + xs.length ≤ p.maxSyms.toNat →
    ss.length < 2 ^ 64 → (∀ x ∈ xs, tableGet s.ft x = none) →
    ∃ t, runEvents p (xs.map (fun x => .ftSet x.toNat (ss.count x))) s = .next t ∧ t.hosterr = s.hosterr ∧ t.sin =
        s.sin ∧ t.sinLen = s.sinLen ∧
      ∀ x, tableGet t.ft x = if x ∈ xs then some (BitVec.ofNat 64 (ss.count x)) else tableGet s.ft x := by
  intro xs
  induction xs with
  | nil => intro s _ _ _ _ _; exact ⟨s, rfl, rfl, rfl, rfl, by simp⟩
  | cons x xs ih =>
    intro s hs hn hl hss hnew
    simp only [List.mem_cons, forall_eq_or_imp] at hs hnew
    simp only [List.nodup_cons] at hn
    simp only [List.length_cons] at hl
    have hx : BitVec.ofNat 21 x.toNat = x := by simp
    have hcnt : ss.count x < 2 ^ 64 := Nat.lt_of_le_of_lt List.count_le_length hss
    have hp : perform p (.ftSet x.toNat (ss.count x)) s = .next
        (withTable (tableSet s.ft x (BitVec.ofNat 64 (ss.count x))) s) := by
      simp only [perform, hostFtSet, hx]
      rw [if_pos ⟨hs.1, hcnt, .inr (by omega)⟩]
    have hlen := length_tableSet_new s.ft x (BitVec.ofNat 64 (ss.count x)) hnew.1
    obtain ⟨t, e1, e2, e3, e4, e5⟩ := ih
        (withTable (tableSet s.ft x (BitVec.ofNat 64 (ss.count x))) s) hs.2 hn.2 (by simp [hlen]; omega) hss
      (by intro y hy; simp only [withTable_ft, tableGet_tableSet]; rw [if_neg (by rintro rfl; exact hn.1 hy)]; exact hnew.2 y hy)
    refine ⟨t, ?_, e2, e3, e4, ?_⟩
    · simp only [List.map_cons, runEvents, hp]; exact e1
    · intro y
      rw [e5]
      simp only [withTable_ft, tableGet_tableSet, List.mem_cons]
      by_cases hy : y = x
      · subst hy; simp [hn.1]
      · simp [hy]

end Sys2Proof.Machine
end

