-- ==== Sys2Proof/Laws/Scan.lean ====
section
/-! SUPPORT. The header scanner read backwards: what the text was where it succeeds (43_header_codec.md R149 to
R153), and forwards. -/

namespace Sys2Proof.Machine

/-! ## Numerals -/

theorem fieldValue_snoc (f : List Byte) (b : Byte) : fieldValue (f ++ [b]) = 10 * fieldValue f +
    (b.toNat - 0x30) := by
  simp [fieldValue, Nat.ofDigits_cons]; omega

theorem decimalValue_fieldValue (f : List Byte) : ∀ acc,
    (f.all (fun b => decide (0x30 ≤ b.toNat) && decide (b.toNat ≤ 0x39))) = true →
    decimalValue acc f = some (acc * 10 ^ f.length + fieldValue f) := by
  induction f using List.reverseRecOn with
  | nil => intro acc _; simp [decimalValue, fieldValue]
  | append_singleton f b ih =>
    intro acc h
    rw [List.all_append, Bool.and_eq_true] at h
    rw [decimalValue_append, ih acc h.1, fieldValue_snoc]
    simp only [List.all_cons, List.all_nil, Bool.and_true, Bool.and_eq_true, decide_eq_true_eq] at h
    simp only [Option.bind_some, decimalValue, if_pos h.2, List.length_append, List.length_singleton, pow_succ]
    congr 1
    ring

theorem decimalValue_none (f : List Byte) : ∀ acc,
    (f.all (fun b => decide (0x30 ≤ b.toNat) && decide (b.toNat ≤ 0x39))) = false → decimalValue acc f =
    none := by
  induction f with
  | nil => intro acc h; cases h
  | cons b f ih =>
    intro acc h
    simp only [decimalValue]
    split
    · rename_i hb
      apply ih
      simpa [hb] using h
    · rfl

theorem splitField_none (f : List Byte) (hf : ∀ x ∈ f, x ≠ 0x2C#8 ∧ x ≠ 0x7D#8) : splitField f = none := by
  induction f with
  | nil => rfl
  | cons b f ih =>
    simp only [splitField]
    rw [if_neg, ih (fun x hx => hf x (by simp [hx]))]
    have := hf b (by simp); tauto

theorem decDigits_head (fuel n : Nat) (h : n < 10 ^ fuel) (hf : 0 < fuel) : (decDigits fuel n).head? =
    some 0x30#8 → n = 0 := by
  induction fuel generalizing n with
  | zero => omega
  | succ fuel ih =>
    simp only [decDigits]
    split
    · intro he
      simp at he
      have := congrArg BitVec.toNat he
      rw [toNat_digit _ ‹_›] at this
      simp at this; omega
    · intro he
      have hfu : 0 < fuel := by by_contra hc; have : fuel = 0 := by omega
                                subst this; simp at h; omega
      have hne := decDigits_ne_nil fuel (n / 10) hfu
      rw [List.head?_append_of_ne_nil _ hne] at he
      have := ih (n / 10) (by rw [pow_succ] at h; omega) hfu he
      omega

theorem decDigits_length (fuel n : Nat) : (decDigits fuel n).length ≤ fuel := by
  induction fuel generalizing n with
  | zero => simp [decDigits]
  | succ fuel ih =>
    simp only [decDigits]
    split
    · simp
    · have := ih (n / 10); simp; omega

/-! ## Symbols and counts -/

/-- What `expect` read. -/
theorem expect_ok (b : Byte) (h r : List Byte) (e : expect b h = .ok r) : h = b :: r := by
  unfold expect at e
  split at e
  · cases e
  · split at e <;> cases e
    subst ‹_ = b›; rfl

theorem escaped_render (e : Byte) (s : Sym) (h : escapedSymbol e = some s) : render s = [0x5C#8, e] ∧
    isScalar s.toNat = true := by
  have key : ∀ e : Byte, ∀ s, escapedSymbol e = some s → escapeLetter s = some e ∧ isScalar s.toNat = true := by
    intro e s h
    unfold escapedSymbol at h
    split at h <;> cases h
    all_goals
      rename_i he
      have : e = BitVec.ofNat 8 e.toNat := by simp
      rw [he] at this
      rw [this]
      decide
  have := key e s h
  exact ⟨by simp [render, this.1], this.2⟩

/-- ScanSymbol reads exactly a rendered SCALAR symbol. -/
theorem scanSymbol_ok (h r : List Byte) (s : Sym) (e : scanSymbol h = .ok (s, r)) : h = render s ++ r ∧
    isScalar s.toNat = true := by
  unfold scanSymbol at e
  split at e
  · cases e
  · rename_i b h
    split at e
    · rename_i hb
      split at e
      · cases e
      · split at e
        · cases e
        · cases e
          rename_i e' _ _ hs
          have := escaped_render _ _ hs
          rw [this.1, hb]; exact ⟨rfl, this.2⟩
    · rename_i hb
      split at e
      · cases e
      · rename_i hd
        split at e <;> cases e
        rename_i hm
        have hsnd := utf8dec_sound _ _ _ hd
        refine ⟨?_, hsnd.1⟩
        have : escapeLetter s = none := by
          unfold escapeLetter
          split <;> first | rfl | skip
          all_goals
            rename_i hv
            exfalso
            have hs : s = BitVec.ofNat 21 s.toNat := by simp
            rw [hv] at hs
            first
            | (apply hm; rw [hs]; decide)
            | (rw [hs] at hsnd; have := hsnd.2; simp [utf8] at this; exact hb this.1)
        rw [hsnd.2, render, this]

theorem splitField_ok (h f r : List Byte) (e : splitField h = some (f, r)) : h = f ++ r ∧
    (∀ x ∈ f, x ≠ 0x2C#8 ∧ x ≠ 0x7D#8) ∧
    ∃ b r', r = b :: r' ∧ (b = 0x2C#8 ∨ b = 0x7D#8) := by
  induction h generalizing f r with
  | nil => cases e
  | cons b h ih =>
    simp only [splitField] at e
    split at e
    · cases e; exact ⟨rfl, by simp, b, h, rfl, ‹_›⟩
    · rename_i hb
      split at e
      · cases e
      · rename_i f' r' hs
        cases e
        obtain ⟨h1, h2, h3⟩ := ih _ _ hs
        refine ⟨by rw [h1]; rfl, ?_, h3⟩
        intro x hx
        rcases List.mem_cons.1 hx with rfl | hx
        · tauto
        · exact h2 x hx

/-- ScanCount on a legal field. -/
theorem scanCount_legal (f r : List Byte) (b : Byte) (hf : ∀ x ∈ f, x ≠ 0x2C#8 ∧ x ≠ 0x7D#8)
    (hb : b = 0x2C#8 ∨ b = 0x7D#8) (hok : fieldOk f = true) :
    scanCount (f ++ b :: r) = .ok (BitVec.ofNat 64 (fieldValue f), b :: r) := by
  simp only [fieldOk, Bool.and_eq_true, Bool.not_eq_true', decide_eq_true_eq] at hok
  have hne : f ≠ [] := by rintro rfl; exact absurd hok.1.1 (by simp)
  simp only [scanCount, splitField_append f b r hf hb, if_neg hne]
  rw [decimalValue_fieldValue f 0 hok.1.2]
  simpa using hok.2

/-- ScanCount on any other field. -/
theorem scanCount_illegal (f r : List Byte) (b : Byte) (hf : ∀ x ∈ f, x ≠ 0x2C#8 ∧ x ≠ 0x7D#8)
    (hb : b = 0x2C#8 ∨ b = 0x7D#8) (hok : fieldOk f = false) :
    scanCount (f ++ b :: r) = .error .invalidHeaderValue := by
  simp only [scanCount, splitField_append f b r hf hb]
  split
  · rfl
  · rename_i hne
    cases hd : f.all (fun b => decide (0x30 ≤ b.toNat) && decide (b.toNat ≤ 0x39)) with
    | false => rw [decimalValue_none f 0 hd]
    | true =>
      rw [decimalValue_fieldValue f 0 hd]
      cases f with
      | nil => exact absurd rfl hne
      | cons x f => simp only [fieldOk, hd] at hok; simp at hok; simp [hok]

/-- ScanCount reads exactly a legal count field and stops before its terminator. -/
theorem scanCount_ok (h r : List Byte) (c : Count) (e : scanCount h = .ok (c, r)) :
    ∃ f, h = f ++ r ∧ fieldOk f = true ∧ c = BitVec.ofNat 64 (fieldValue f) ∧
      ∃ b r', r = b :: r' ∧ (b = 0x2C#8 ∨ b = 0x7D#8) := by
  cases hs : splitField h with
  | none => simp [scanCount, hs] at e
  | some p =>
    obtain ⟨f, r'⟩ := p
    obtain ⟨h1, h2, b, r'', h3, h4⟩ := splitField_ok _ _ _ hs
    subst h3; subst h1
    cases hok : fieldOk f with
    | false => rw [scanCount_illegal f r'' b h2 h4 hok] at e; cases e
    | true =>
      rw [scanCount_legal f r'' b h2 h4 hok] at e
      cases e
      exact ⟨f, rfl, hok, rfl, b, r'', rfl, h4⟩

/-! ## Entries -/

/-- An entry put into a table. -/
def setEntry (t : Table) (e : LooseEntry) : Table := tableSet t e.1 (BitVec.ofNat 64 (fieldValue e.2))

/-- What one entry was. -/
theorem scanEntry_inv (m t h t' r) (e : scanEntry m t h = .ok (t', r)) : ∃ le : LooseEntry, h =
    looseEntryText le ++ r ∧ isScalar le.1.toNat = true ∧ fieldOk le.2 = true ∧
    tableGet t le.1 = none ∧ t.length ≠ m ∧ t' = setEntry t le ∧ ∃ b r', r = b :: r' ∧
        (b = 0x2C#8 ∨ b = 0x7D#8) := by
  unfold scanEntry at e
  obtain ⟨h1, e1, e⟩ := bind_ok e
  obtain ⟨⟨s, h2⟩, e2, e⟩ := bind_ok e
  obtain ⟨h3, e3, e⟩ := bind_ok e
  obtain ⟨h4, e4, e⟩ := bind_ok e
  obtain ⟨h5, e5, e⟩ := bind_ok e
  obtain ⟨⟨c, h6⟩, e6, e⟩ := bind_ok e
  simp only at e
  have i1 := expect_ok _ _ _ e1
  have i2 := scanSymbol_ok _ _ _ e2
  have i3 := expect_ok _ _ _ e3
  have i4 := expect_ok _ _ _ e4
  have i5 := expect_ok _ _ _ e5
  obtain ⟨f, i6, i7, i8, i9⟩ := scanCount_ok _ _ _ e6
  split at e
  · cases e
  · rename_i hs
    split at e
    · cases e
    · rename_i hl
      cases e
      refine ⟨(s, f), ?_, i2.2, i7, ?_, hl, ?_, i9⟩
      · rw [i1, i2.1, i3, i4, i5, i6]; simp [looseEntryText]
      · simpa using hs
      · rw [i8]; rfl

theorem fieldOk_bytes (f : List Byte) (h : fieldOk f = true) : ∀ x ∈ f, x ≠ 0x2C#8 ∧ x ≠ 0x7D#8 := by
  intro x hx
  simp only [fieldOk, Bool.and_eq_true, List.all_eq_true, decide_eq_true_eq] at h
  have := h.1.2 x hx
  constructor <;> (rintro rfl; simp at this)

/-- One entry is read. -/
theorem scanEntry_fwd (m : Nat) (t : Table) (le : LooseEntry) (b : Byte) (r : List Byte)
    (hs : isScalar le.1.toNat = true) (hf : fieldOk le.2 = true) (hb : b = 0x2C#8 ∨ b = 0x7D#8)
    (hnew : tableGet t le.1 = none) (hcap : t.length ≠ m) :
    scanEntry m t (looseEntryText le ++ b :: r) = .ok (setEntry t le, b :: r) := by
  have hc := scanCount_legal le.2 r b (fieldOk_bytes _ hf) hb hf
  simp only [scanEntry, looseEntryText, List.append_assoc, List.cons_append, List.nil_append, expect, if_true,
    bind, Except.bind, scanSymbol_render le.1 hs, hc, hnew, Option.isSome_none,
    Bool.false_eq_true, if_false, hcap, setEntry]

/-- Entries that fit into a table one after the other, none present already. -/
def Fresh (m : Nat) (t : Table) (es : List LooseEntry) : Prop :=
  (∀ e ∈ es, isScalar e.1.toNat = true ∧ fieldOk e.2 = true ∧ tableGet t e.1 = none) ∧ (es.map Prod.fst).Nodup ∧
      t.length + es.length ≤ m

theorem fresh_cons (m t) (e : LooseEntry) (es) (_h : t.length ≤ m) : Fresh m t (e :: es) ↔
    (isScalar e.1.toNat = true ∧ fieldOk e.2 = true ∧ tableGet t e.1 = none ∧ t.length ≠ m ∧ Fresh m
    (setEntry t e) es) := by
  have hl : tableGet t e.1 = none → (setEntry t e).length = t.length + 1 :=
      fun hn => length_tableSet_new _ _ _ hn
  constructor
  · rintro ⟨h1, h2, h3⟩
    simp only [List.mem_cons, forall_eq_or_imp] at h1
    simp only [List.map_cons, List.nodup_cons] at h2
    simp only [List.length_cons] at h3
    refine ⟨h1.1.1, h1.1.2.1, h1.1.2.2, by omega, ?_, h2.2, by rw [hl h1.1.2.2]; omega⟩
    intro x hx
    refine ⟨(h1.2 x hx).1, (h1.2 x hx).2.1, ?_⟩
    rw [setEntry, tableGet_tableSet, if_neg]
    · exact (h1.2 x hx).2.2
    · intro hc; exact h2.1 (hc ▸ List.mem_map_of_mem hx)
  · rintro ⟨h1, h2, h3, h4, h5, h6, h7⟩
    rw [hl h3] at h7
    refine ⟨?_, ?_, by simp; omega⟩
    · simp only [List.mem_cons, forall_eq_or_imp]
      refine ⟨⟨h1, h2, h3⟩, fun x hx => ⟨(h5 x hx).1, (h5 x hx).2.1, ?_⟩⟩
      have := (h5 x hx).2.2
      rw [setEntry, tableGet_tableSet] at this
      split at this
      · cases this
      · exact this
    · simp only [List.map_cons, List.nodup_cons]
      refine ⟨?_, h6⟩
      intro hc
      obtain ⟨x, hx, hxe⟩ := List.mem_map.1 hc
      have := (h5 x hx).2.2
      rw [setEntry, tableGet_tableSet, if_pos hxe] at this
      cases this

theorem intercalate_cons2 (a b : List Byte) (l : List (List Byte)) (s : List Byte) : List.intercalate s
    (a :: b :: l) = a ++ s ++ List.intercalate s (b :: l) := by
  simp [List.intercalate, List.intersperse]

/-- What the entries were. -/
theorem scanEntries_inv (m n) : ∀ t h t' r, t.length ≤ m → scanEntries m n t h = .ok (t', r) → ∃ es :
    List LooseEntry, es ≠ [] ∧
    h = List.intercalate [0x2C#8, 0x20#8] (es.map looseEntryText) ++ 0x7D#8 :: r ∧ Fresh m t es ∧ t' =
        es.foldl setEntry t := by
  induction n with
  | zero => intro t h t' r _ e; cases e
  | succ n ih =>
    intro t h t' r hlen e
    simp only [scanEntries] at e
    split at e
    · cases e
    · rename_i t1 h1 he
      obtain ⟨le, i1, i2, i3, i4, i5, i6, b, r', i7, i8⟩ := scanEntry_inv _ _ _ _ _ he
      subst i7; subst i6
      have hl1 : (setEntry t le).length = t.length + 1 := length_tableSet_new _ _ _ i4
      simp only at e
      split at e
      · rename_i hb
        cases e
        refine ⟨[le], by simp, ?_, ?_, rfl⟩
        · rw [i1, hb]; simp [List.intercalate]
        · rw [fresh_cons _ _ _ _ hlen]
          refine ⟨i2, i3, i4, i5, by simp, by simp, ?_⟩
          rw [hl1]; simp; omega
      · rename_i hb
        have hb' : b = 0x2C#8 := i8.resolve_right hb
        split at e
        · cases e
        · rename_i r'' hx
          have hr := expect_ok _ _ _ hx
          obtain ⟨es, j1, j2, j3, j4⟩ := ih _ _ _ _ (by omega) e
          refine ⟨le :: es, by simp, ?_, ?_, ?_⟩
          · match es, j1, j2 with
            | e2 :: es, _, j2 =>
              rw [List.map_cons, List.map_cons, intercalate_cons2, i1, hb', hr, j2]
              simp
          · rw [fresh_cons _ _ _ _ hlen]; exact ⟨i2, i3, i4, i5, j3⟩
          · rw [j4]; rfl

/-- The entries are read. -/
theorem scanEntries_fwd (m n) : ∀ t (es : List LooseEntry) r, t.length ≤ m → es ≠ [] → es.length ≤ n →
    Fresh m t es →
    scanEntries m n t (List.intercalate [0x2C#8, 0x20#8] (es.map looseEntryText) ++ 0x7D#8 :: r) = .ok
        (es.foldl setEntry t, r) := by
  induction n with
  | zero => intro t es r _ h1 h2; cases es <;> simp_all
  | succ n ih =>
    intro t es r hlen hne hn hf
    match es, hne with
    | [le], _ =>
      rw [fresh_cons _ _ _ _ hlen] at hf
      simp only [List.map_cons, List.map_nil, List.intercalate, List.intersperse, List.flatten_cons,
          List.flatten_nil, List.append_nil, scanEntries]
      rw [scanEntry_fwd m t le _ _ hf.1 hf.2.1 (.inr rfl) hf.2.2.1 hf.2.2.2.1]
      simp
    | le :: e2 :: es, _ =>
      rw [fresh_cons _ _ _ _ hlen] at hf
      have hl1 : (setEntry t le).length = t.length + 1 := length_tableSet_new _ _ _ hf.2.2.1
      rw [List.map_cons, List.map_cons, intercalate_cons2]
      simp only [List.append_assoc, List.cons_append, List.nil_append, scanEntries]
      rw [scanEntry_fwd m t le _ _ hf.1 hf.2.1 (.inl rfl) hf.2.2.1 hf.2.2.2.1]
      simp only [expect, if_true]
      rw [if_neg (by decide)]
      have := ih (setEntry t le) (e2 :: es) r (by omega) (by simp) (by simpa using hn) hf.2.2.2.2
      simpa using this

/-- What the padding segment was. -/
theorem scanTail_ok (h : List Byte) (pad) (e : scanTail h = .ok pad) : h =
    [0x3A#8, 0x3A#8, BitVec.ofNat 8 (0x30 + pad.toNat), 0x0A#8] := by
  unfold scanTail at e
  obtain ⟨h1, e1, e⟩ := bind_ok e
  obtain ⟨h2, e2, e⟩ := bind_ok e
  have i1 := expect_ok _ _ _ e1
  have i2 := expect_ok _ _ _ e2
  split at e
  · cases e
  · rename_i d h3
    split at e
    · cases e
    · rename_i hd
      obtain ⟨h4, e4, e⟩ := bind_ok e
      have i4 := expect_ok _ _ _ e4
      split at e <;> cases e
      subst ‹h4 = []›
      rw [i1, i2, i4]
      congr 3
      apply BitVec.eq_of_toNat_eq
      simp
      omega

theorem scanTail_fwd : ∀ pad : BitVec 3, scanTail [0x3A#8, 0x3A#8, BitVec.ofNat 8 (0x30 + pad.toNat), 0x0A#8] =
    .ok pad := by decide

theorem looseText_head (e : LooseEntry) (es : List LooseEntry) : ∃ bs, List.intercalate [0x2C#8, 0x20#8]
    ((e :: es).map looseEntryText) = 0x27#8 :: bs := by
  cases es with
  | nil => exact ⟨render e.1 ++ ([0x27#8, 0x3A#8, 0x20#8] ++ e.2), by simp [List.intercalate, looseEntryText]⟩
  | cons f es => rw [List.map_cons, List.map_cons, intercalate_cons2]; exact ⟨_, by simp [looseEntryText]; rfl⟩

theorem looseText_length (es : List LooseEntry) : es.length ≤
    (List.intercalate [0x2C#8, 0x20#8] (es.map looseEntryText)).length := by
  induction es with
  | nil => simp
  | cons e es ih =>
    cases es with
    | nil => simp [List.intercalate, looseEntryText]
    | cons f es => rw [List.map_cons] at ih; rw [List.map_cons, List.map_cons,
        intercalate_cons2]; simp [looseEntryText] at ih ⊢; omega

/-- Legal entries that fit are those that can be put into the empty table. -/
theorem entriesOk_iff (m : Nat) (es : List LooseEntry) : (entriesOk es = true ∧ es.length ≤ m) ↔
    Fresh m [] es := by
  simp only [entriesOk, Bool.and_eq_true, List.all_eq_true, decide_eq_true_eq, Fresh, tableGet, List.length_nil,
      Nat.zero_add]
  constructor
  · rintro ⟨⟨h1, h2⟩, h3⟩; exact ⟨fun e he => ⟨(h1 e he).1, (h1 e he).2, trivial⟩, h2, h3⟩
  · rintro ⟨h1, h2, h3⟩; exact ⟨⟨fun e he => ⟨(h1 e he).1, (h1 e he).2.1⟩, h2⟩, h3⟩

theorem foldl_length (es : List LooseEntry) (m : Nat) : ∀ t : Table, t.length ≤ m → Fresh m t es →
    (es.foldl setEntry t).length = t.length + es.length := by
  induction es with
  | nil => intro t _ _; rfl
  | cons e es ih =>
    intro t hl hf
    rw [fresh_cons _ _ _ _ hl] at hf
    have hl1 : (setEntry t e).length = t.length + 1 := length_tableSet_new _ _ _ hf.2.2.1
    rw [List.foldl_cons, ih _ (by omega) hf.2.2.2.2, hl1]; simp; omega

/-! ## Where the scanner fails -/

/-- Entries each followed by comma and space. -/
def leading (es : List LooseEntry) : List Byte := es.flatMap (fun e => looseEntryText e ++ [0x2C#8, 0x20#8])

theorem fieldBytes_iff (f : List Byte) : fieldBytes f = true ↔ ∀ x ∈ f, x ≠ 0x2C#8 ∧ x ≠ 0x7D#8 := by
  simp [fieldBytes]

/-- An entry up to its count. -/
theorem scanEntry_upToCount (m : Nat) (t : Table) (x : Sym) (f h : List Byte) (hs : isScalar x.toNat = true) :
    scanEntry m t (looseEntryText (x, f) ++ h) = (scanCount (f ++ h)).bind (fun ch =>
      if (tableGet t x).isSome then .error .invalidHeader
      else if t.length = m then .error .capacity
      else .ok (tableSet t x ch.1, ch.2)) := by
  simp only [scanEntry, looseEntryText, List.append_assoc, List.cons_append, List.nil_append, expect, if_true,
    bind, Except.bind, scanSymbol_render x hs]

/-- What an entry was up to its count. -/
theorem scanEntry_err (m t h f) (e : scanEntry m t h = .error f) : f = .invalidHeader ∨
    ∃ (x : Sym) (h' : List Byte), h = looseEntryText (x, []) ++ h' ∧ isScalar x.toNat = true ∧
      (scanCount h').bind (fun ch => if (tableGet t x).isSome then .error .invalidHeader
        else if t.length = m then .error .capacity else .ok (tableSet t x ch.1, ch.2)) = .error f := by
  have e0 := e
  unfold scanEntry at e
  obtain e | ⟨h1, e1, e⟩ := bind_error e
  · exact .inl (codes_expect _ _ _ e)
  obtain e | ⟨⟨s, h2⟩, e2, e⟩ := bind_error e
  · exact .inl (codes_scanSymbol _ _ e)
  obtain e | ⟨h3, e3, e⟩ := bind_error e
  · exact .inl (codes_expect _ _ _ e)
  obtain e | ⟨h4, e4, e⟩ := bind_error e
  · exact .inl (codes_expect _ _ _ e)
  obtain e | ⟨h5, e5, e⟩ := bind_error e
  · exact .inl (codes_expect _ _ _ e)
  have i2 := scanSymbol_ok _ _ _ e2
  have ht : h = looseEntryText (s, []) ++ h5 := by
    rw [expect_ok _ _ _ e1, i2.1, expect_ok _ _ _ e3, expect_ok _ _ _ e4, expect_ok _ _ _ e5]
    simp [looseEntryText]
  refine .inr ⟨s, h5, ht, i2.2, ?_⟩
  rw [ht, scanEntry_upToCount m t s [] h5 i2.2] at e0
  exact e0

/-- The text at which ScanCount gives InvalidHeaderValue. -/
theorem scanCount_err (h f) (e : scanCount h = .error f) : f = .invalidHeader ∨ f = .invalidHeaderValue ∧
    ∃ (g : List Byte) (b : Byte) (r : List Byte), h = g ++ b :: r ∧ fieldBytes g = true ∧
      (b = 0x2C#8 ∨ b = 0x7D#8) ∧ fieldOk g = false := by
  cases hs : splitField h with
  | none => simp only [scanCount, hs] at e; cases e; exact .inl rfl
  | some p =>
    obtain ⟨g, r'⟩ := p
    obtain ⟨h1, h2, b, r, h3, h4⟩ := splitField_ok _ _ _ hs
    subst h3; subst h1
    cases hok : fieldOk g with
    | true => rw [scanCount_legal g r b h2 h4 hok] at e; cases e
    | false =>
      rw [scanCount_illegal g r b h2 h4 hok] at e
      cases e
      exact .inr ⟨rfl, g, b, r, rfl, (fieldBytes_iff g).2 h2, h4, hok⟩

theorem looseEntryText_append (x : Sym) (g : List Byte) : looseEntryText (x, []) ++ g = looseEntryText (x, g) := by
  simp [looseEntryText]

/-- What an entry was that gives InvalidHeaderValue. -/
theorem scanEntry_badCount (m t h) (e : scanEntry m t h = .error .invalidHeaderValue) :
    ∃ (x : Sym) (f : List Byte) (b : Byte) (r : List Byte), h = looseEntryText (x, f) ++ b :: r ∧
      isScalar x.toNat = true ∧ fieldBytes f = true ∧ (b = 0x2C#8 ∨ b = 0x7D#8) ∧ fieldOk f = false := by
  obtain he | ⟨x, h', h1, h2, h3⟩ := scanEntry_err _ _ _ _ e
  · cases he
  · cases hc : scanCount h' with
    | error f =>
      rw [hc] at h3; cases h3
      obtain h4 | ⟨_, g, b, r, h4, h5⟩ := scanCount_err _ _ hc
      · cases h4
      · exact ⟨x, g, b, r, by rw [h1, h4, ← List.append_assoc, looseEntryText_append], h2, h5⟩
    | ok ch =>
      rw [hc] at h3
      simp only [Except.bind] at h3
      split at h3 <;> (try split at h3) <;> cases h3

/-- What an entry was that does not fit. -/
theorem scanEntry_full (m t h) (e : scanEntry m t h = .error .capacity) :
    ∃ (le : LooseEntry) (b : Byte) (r : List Byte), h = looseEntryText le ++ b :: r ∧ isScalar le.1.toNat = true ∧
      fieldOk le.2 = true ∧ tableGet t le.1 = none ∧ t.length = m ∧ (b = 0x2C#8 ∨ b = 0x7D#8) := by
  obtain he | ⟨x, h', h1, h2, h3⟩ := scanEntry_err _ _ _ _ e
  · cases he
  · cases hc : scanCount h' with
    | error f =>
      rw [hc] at h3; cases h3
      rcases scanCount_err _ _ hc with h4 | ⟨h4, _⟩ <;> cases h4
    | ok ch =>
      obtain ⟨c, r⟩ := ch
      rw [hc] at h3
      obtain ⟨f, i1, i2, _, b, r', i3, i4⟩ := scanCount_ok _ _ _ hc
      simp only [Except.bind] at h3
      split at h3
      · cases h3
      · rename_i hn
        split at h3
        · refine ⟨(x, f), b, r', ?_, h2, i2, by simpa using hn, ‹_›, i4⟩
          rw [h1, i1, i3, ← List.append_assoc, looseEntryText_append]
        · cases h3

theorem leading_cons (e : LooseEntry) (es : List LooseEntry) (r : List Byte) :
    leading (e :: es) ++ r = looseEntryText e ++ 0x2C#8 :: (0x20#8 :: (leading es ++ r)) := by
  simp [leading]

/-- The scanner gets past legal entries that fit. -/
theorem scanEntries_leading (m : Nat) (r : List Byte) (n : Nat) : ∀ (es : List LooseEntry) (t : Table),
    t.length ≤ m → Fresh m t es →
    scanEntries m (es.length + n) t (leading es ++ r) = scanEntries m n (es.foldl setEntry t) r := by
  intro es
  induction es with
  | nil => intro t _ _; simp [leading]
  | cons e es ih =>
    intro t hl hf
    rw [fresh_cons _ _ _ _ hl] at hf
    have hl1 : (setEntry t e).length = t.length + 1 := length_tableSet_new _ _ _ hf.2.2.1
    rw [List.length_cons, show es.length + 1 + n = (es.length + n) + 1 by omega, leading_cons, scanEntries,
      scanEntry_fwd m t e _ _ hf.1 hf.2.1 (.inl rfl) hf.2.2.1 hf.2.2.2.1]
    simp only [expect, if_true]
    rw [if_neg (by decide)]
    exact ih _ (by omega) hf.2.2.2.2

/-- Where an error comes from: legal entries that fit, and then one at which ScanEntry fails; else InvalidHeader. -/
theorem scanEntries_err (m n) : ∀ t h f, t.length ≤ m → scanEntries m n t h = .error f → f = .invalidHeader ∨
    ∃ (es : List LooseEntry) (h' : List Byte), h = leading es ++ h' ∧ Fresh m t es ∧
      scanEntry m (es.foldl setEntry t) h' = .error f := by
  induction n with
  | zero => intro t h f _ e; cases e; exact .inl rfl
  | succ n ih =>
    intro t h f hl e
    simp only [scanEntries] at e
    split at e
    · rename_i f' he
      cases e
      exact .inr ⟨[], h, rfl, ⟨by simp, by simp, by simpa using hl⟩, he⟩
    · rename_i t1 h1 he
      obtain ⟨le, i1, i2, i3, i4, i5, i6, b, r', i7, i8⟩ := scanEntry_inv _ _ _ _ _ he
      subst i7; subst i6
      have hl1 : (setEntry t le).length = t.length + 1 := length_tableSet_new _ _ _ i4
      simp only at e
      split at e
      · cases e
      · rename_i hb
        have hb' : b = 0x2C#8 := i8.resolve_right hb
        split at e
        · cases e; exact .inl (codes_expect _ _ _ ‹_›)
        · rename_i r'' hx
          have hr := expect_ok _ _ _ hx
          obtain he | ⟨es, h', j1, j2, j3⟩ := ih _ _ _ (by omega) e
          · exact .inl he
          · refine .inr ⟨le :: es, h', ?_, ?_, j3⟩
            · rw [leading_cons, i1, hb', hr, j1]
            · rw [fresh_cons _ _ _ _ hl]; exact ⟨i2, i3, i4, i5, j2⟩

/-- The same of the whole header. -/
theorem scanHeader_err (m h f) (e : scanHeader m h = .error f) : f = .invalidHeader ∨
    ∃ (es : List LooseEntry) (h' : List Byte), h = textBefore es ++ h' ∧ Fresh m [] es ∧
      scanEntry m (es.foldl setEntry []) h' = .error f := by
  unfold scanHeader at e
  obtain e | ⟨_, _, e⟩ := bind_error e
  · unfold scanList at e
    split at e
    · cases e; exact .inl (codes_expect _ _ _ ‹_›)
    · cases e; exact .inl rfl
    · rename_i b r hx
      split at e
      · cases e
      · obtain he | ⟨es, h', j1, j2, j3⟩ := scanEntries_err _ _ _ _ _ (Nat.zero_le _) e
        · exact .inl he
        · refine .inr ⟨es, h', ?_, j2, j3⟩
          rw [expect_ok _ _ _ hx, j1]; rfl
  · obtain e | ⟨_, _, e⟩ := bind_error e
    · exact .inl (codes_scanTail _ _ e)
    · cases e

/-- Legal entries that fit, and then one at which ScanEntry fails, fail the header. -/
theorem scanHeader_fails (m : Nat) (es : List LooseEntry) (x : Sym) (g r : List Byte) (f : Failure)
    (hf : Fresh m [] es) (e : scanEntry m (es.foldl setEntry []) (looseEntryText (x, g) ++ r) = .error f) :
    scanHeader m (textBefore es ++ looseEntryText (x, g) ++ r) = .error f := by
  have hh : ∃ tl, leading es ++ (looseEntryText (x, g) ++ r) = 0x27#8 :: tl := by
    cases es with
    | nil => exact ⟨_, by simp [leading, looseEntryText]; rfl⟩
    | cons e es => exact ⟨_, by rw [leading_cons]; simp [looseEntryText]; rfl⟩
  obtain ⟨tl, ht⟩ := hh
  have hl : es.length + 1 ≤ (0x27#8 :: tl).length := by
    rw [← ht, List.length_append]
    have : es.length ≤ (leading es).length := by
      clear hf e ht
      induction es with
      | nil => simp
      | cons e es ih => simp [leading] at ih ⊢; omega
    have : 1 ≤ (looseEntryText (x, g) ++ r).length := by simp [looseEntryText]
    omega
  obtain ⟨n, hn⟩ := Nat.exists_eq_add_of_le hl
  have hs : scanEntries m (0x27#8 :: tl).length [] (0x27#8 :: tl) = .error f := by
    rw [hn, show es.length + 1 + n = es.length + (n + 1) by omega, ← ht,
      scanEntries_leading m _ _ es [] (Nat.zero_le _) hf, scanEntries, e]
  have he : expect 0x7B#8 (textBefore es ++ looseEntryText (x, g) ++ r) = .ok (0x27#8 :: tl) := by
    rw [← ht]; simp [textBefore, leading, expect]
  simp only [scanHeader, scanList, he]
  rw [if_neg (by decide), hs]
  rfl

/-- One more entry. -/
theorem fresh_snoc (m : Nat) (e : LooseEntry) : ∀ (es : List LooseEntry) (t : Table), t.length ≤ m →
    (Fresh (m + 1) t (es ++ [e]) ↔ Fresh m t es ∧ isScalar e.1.toNat = true ∧ fieldOk e.2 = true ∧
      tableGet (es.foldl setEntry t) e.1 = none) := by
  intro es
  induction es with
  | nil =>
    intro t hl
    have : Fresh m t [] := ⟨by simp, by simp, by simpa using hl⟩
    simp only [List.nil_append, List.foldl_nil, this, true_and]
    constructor
    · rintro ⟨h1, _⟩; exact h1 e (by simp)
    · intro h; exact ⟨by simpa using h, by simp, by simp; omega⟩
  | cons a es ih =>
    intro t hl
    rw [List.cons_append, fresh_cons _ _ _ _ (by omega), fresh_cons _ _ _ _ hl, List.foldl_cons]
    constructor
    · rintro ⟨h1, h2, h3, h4, h5⟩
      have hl1 : (setEntry t a).length = t.length + 1 := length_tableSet_new _ _ _ h3
      have hle : t.length + 1 + 1 ≤ m + 1 := by have := h5.2.2; simp [hl1] at this; omega
      obtain ⟨j1, j2⟩ := (ih _ (by omega)).1 h5
      exact ⟨⟨h1, h2, h3, by omega, j1⟩, j2⟩
    · rintro ⟨⟨h1, h2, h3, h4, h5⟩, h6⟩
      have hl1 : (setEntry t a).length = t.length + 1 := length_tableSet_new _ _ _ h3
      exact ⟨h1, h2, h3, by omega, (ih _ (by omega)).2 ⟨h5, h6⟩⟩

/-! ## The writer's text -/

/-- The writer's entries are entries of the reader's grammar. -/
theorem entriesText_loose (t : Table) :
    entriesText t = List.intercalate [0x2C#8, 0x20#8] (t.map (fun e => looseEntryText (e.1, decCount e.2))) := by
  induction t with
  | nil => rfl
  | cons e t ih =>
    cases t with
    | nil => simp [entriesText, List.intercalate, entryText, looseEntryText]
    | cons f t =>
      rw [List.map_cons] at ih
      rw [List.map_cons, List.map_cons, intercalate_cons2, ← ih]
      simp [entriesText, entryText, looseEntryText]

theorem lf_utf8 (s : Sym) (h : s ≠ 0x0A#21) : 0x0A#8 ∉ utf8 s := by
  intro hc
  have hm : (0x0A : Nat) ∈ (utf8 s).map BitVec.toNat := List.mem_map.2 ⟨_, hc, rfl⟩
  have hs : s.toNat ≠ 10 := by
    intro hh; apply h; apply BitVec.eq_of_toNat_eq; simpa using hh
  unfold utf8 at hm
  split at hm
  · simp only [List.map_cons, List.map_nil, toNat_append, BitVec.extractLsb'_toNat] at hm
    simp at hm; omega
  · (repeat' split at hm) <;>
      (simp only [List.map_cons, List.map_nil, toNat_append, contByte] at hm; simp at hm; omega)

theorem lf_render (s : Sym) : 0x0A#8 ∉ render s := by
  unfold render
  split
  · rename_i e he
    unfold escapeLetter at he
    split at he <;> cases he <;> decide
  · rename_i he
    apply lf_utf8
    rintro rfl
    cases he

theorem lf_dec (c : Count) : 0x0A#8 ∉ decCount c := by
  intro h
  have := decDigits_bytes 20 c.toNat _ h
  simp at this

theorem lf_entry (e : Sym × Count) : 0x0A#8 ∉ entryText e := by
  simp only [entryText, List.mem_append, List.mem_cons, List.not_mem_nil, or_false, not_or]
  exact ⟨⟨⟨by decide, lf_render _⟩, by decide, by decide, by decide⟩, lf_dec _⟩

/-- No entry holds a LF. -/
theorem lf_entries (t : Table) : 0x0A#8 ∉ entriesText t := by
  induction t with
  | nil => simp [entriesText]
  | cons e t ih =>
    cases t with
    | nil => exact lf_entry e
    | cons f t =>
      simp only [entriesText, List.mem_append, not_or]
      exact ⟨⟨lf_entry e, by decide⟩, ih⟩

/-- ParsePrefix on any bytes. -/
theorem parseLength_all (p : List Byte) : ∀ acc, parseLength acc p = if p.all
    (fun b => b == 0x30#8 || b == 0x31#8) then
    .ok (acc * 2 ^ p.length + ((List.range p.length).map
        (fun i => ((p.getD i 0#8).toNat - 0x30) * 2 ^ (p.length - 1 - i))).sum) else .error .invalidHeader := by
  induction p with
  | nil => intro acc; simp [parseLength]
  | cons b p ih =>
    intro acc
    have hs : ((List.range (b :: p).length).map
        (fun i => (((b :: p).getD i 0#8).toNat - 0x30) * 2 ^ ((b :: p).length - 1 - i))).sum
       = (b.toNat - 0x30) * 2 ^ p.length +
           ((List.range p.length).map (fun i => ((p.getD i 0#8).toNat - 0x30) * 2 ^
           (p.length - 1 - i))).sum := by
      rw [List.length_cons, List.range_succ_eq_map]
      simp only [List.map_cons, List.map_map, List.sum_cons]
      congr 1
      congr 1
      apply List.map_congr_left
      intro i hi
      simp only [Function.comp]
      rw [show p.length + 1 - 1 - (i + 1) = p.length - 1 - i by omega]
      rfl
    rw [hs]
    simp only [parseLength]
    split
    · rename_i hb
      subst hb
      rw [ih]
      simp only [List.all_cons, beq_self_eq_true, Bool.true_or, Bool.true_and, List.length_cons]
      split
      · congr 1
        simp
        ring
      · rfl
    · split
      · rename_i hb
        subst hb
        rw [ih]
        simp only [List.all_cons, beq_self_eq_true, Bool.or_true, Bool.true_and, List.length_cons]
        split
        · congr 1
          simp
          ring
        · rfl
      · simp_all

end Sys2Proof.Machine
end

