-- ==== Sys2Proof/Tests/Slice0.lean ====
section
/-! SUPPORT. Tests on one step each, with the results of spec/95_test_vectors.md (the vector is named in each
comment), and for every statement with hypotheses a state that meets them. -/

namespace Sys2Proof.Tests

open Sys2Proof.Machine

/-! ## Small states -/

/-- An instance the vectors hold on. -/
def params : Params := ⟨11#32, 16#32, 16#32, 8#32, 128#32⟩

/-- Cells 0, 1, … of a memory. -/
def filled {α : Type} (vs : List α) : Memory α := ⟨numbered 0 vs, 0⟩

/-- V1: `{a:3,b:2,c:1}` and the input "aaabbc", loaded on an instance just reset. -/
def start : State :=
  { State.reset with
    ft := [(0x61#21, 3#64), (0x62#21, 2#64), (0x63#21, 1#64)], ftLen := 3#32
    sin := filled [0x61#21, 0x61#21, 0x61#21, 0x62#21, 0x62#21, 0x63#21], sinLen := 6#32 }

/-- V1: the tree. -/
def tree : List TreeNode :=
  [.leaf 0x61#21 3#85, .leaf 0x62#21 2#85, .leaf 0x63#21 1#85, .internal 3#85 2#22 1#22, .internal 6#85 0#22 3#22]

/-- V1: the codes. -/
def codes : List CodeEntry :=
  [⟨0x61#21, 1, [false]⟩, ⟨0x63#21, 2, [true, false]⟩, ⟨0x62#21, 2, [true, true]⟩]

def built : State :=
  { start with node := filled tree, nodeCnt := 5#22, root := 4#22, treeValid := true, done := true }

def coded : State := { built with ct := filled codes, ctLen := 3#32, ctValid := true }

/-- V1: the payload. -/
def packed : State := { coded with pay := filled [0x1F#8, 0x00#8], payLen := 2#32, pad := 7#3 }

/-- V6: the header `{'a': 3, 'b': 2, 'c': 1}::7` LF. -/
def header : List Byte :=
  [0x7B#8, 0x27#8, 0x61#8, 0x27#8, 0x3A#8, 0x20#8, 0x33#8, 0x2C#8, 0x20#8, 0x27#8, 0x62#8, 0x27#8, 0x3A#8,
    0x20#8, 0x32#8, 0x2C#8, 0x20#8, 0x27#8, 0x63#8, 0x27#8, 0x3A#8, 0x20#8, 0x31#8, 0x7D#8, 0x3A#8, 0x3A#8,
    0x37#8, 0x0A#8]

/-- V6: 28 in 32 binary digits. -/
def digits : List Byte := List.replicate 27 0x30#8 ++ [0x31#8, 0x31#8, 0x31#8, 0x30#8, 0x30#8]

/-- V7: an instance just reset with the image of V6 loaded. -/
def loaded : State :=
  { State.reset with img := filled (digits ++ header ++ [0x1F#8, 0x00#8]), imgLen := 62#32 }

/-- V48: `{'a': 3}::8` LF, 12 bytes. -/
def badPad : State :=
  { State.reset with
    img := filled (List.replicate 28 0x30#8 ++ [0x31#8, 0x31#8, 0x30#8, 0x30#8] ++ [0x7B#8, 0x27#8, 0x61#8, 0x27#8,
      0x3A#8, 0x20#8, 0x33#8, 0x7D#8, 0x3A#8, 0x3A#8, 0x38#8, 0x0A#8])
    imgLen := 44#32 }

/-- V3: a table of one entry. -/
def single : State := { State.reset with ft := [(0x61#21, 4#64)], ftLen := 1#32 }

def singleBuilt : State :=
  { single with node := filled [.leaf 0x61#21 4#85], nodeCnt := 1#22, root := 0#22, treeValid := true, done := true }

/-- The state a command ends in on an instance. -/
def afterOn (p : Params) (i : Instr) (s : State) : State :=
  match execOn p i s with
  | .next t => t
  | .fault _ | .refused _ => s

/-- The state a command ends in on the instance of the vectors. -/
def after (i : Instr) (s : State) : State := afterOn params i s

/-- The state an access ends in. -/
def afterAccess (e : PortEvent) (s : State) : State :=
  match perform params e s with
  | .next t => t
  | .fault _ | .refused _ => s

/-! ## Well-formedness: each check refuses an ill-formed term -/

theorem test_zero_field_refused : zeroFieldOk 0x00000011#32 = false ∧ cmdWordOk 0x00000011#32 = false := by decide
theorem test_opcode_refused : opcodeOk 0x00000008#32 = false ∧ cmdWordOk 0x00000008#32 = false := by decide
theorem test_max_syms_refused :
    (Params.symsOk ⟨1#32, 0#32, 0#32, 0#32, 32#32⟩) = false ∧ (Params.wf ⟨1112065#32, 0#32, 0#32, 0#32, 32#32⟩) = false := by
  decide
theorem test_max_img_refused :
    (Params.imgOk ⟨2#32, 0#32, 0#32, 0#32, 31#32⟩) = false ∧ (Params.wf ⟨2#32, 0#32, 0#32, 0#32, 31#32⟩) = false := by
  decide

/-! ## Decoding: the 28-bit zero field, then the opcode of 30_encoding.md R82 -/

theorem test_nop_word : decodeWord (0b0000000000000000000000000000#28 ++ 0b0000#4) = .ok .nop := by decide
theorem test_build_word : decodeWord (0b0000000000000000000000000000#28 ++ 0b0001#4) = .ok .build := by decide
theorem test_assign_word : decodeWord (0b0000000000000000000000000000#28 ++ 0b0010#4) = .ok .assign := by decide
theorem test_encode_word : decodeWord (0b0000000000000000000000000000#28 ++ 0b0011#4) = .ok .encode := by decide
theorem test_wrhdr_word : decodeWord (0b0000000000000000000000000000#28 ++ 0b0100#4) = .ok .wrhdr := by decide
theorem test_rdhdr_word : decodeWord (0b0000000000000000000000000000#28 ++ 0b0101#4) = .ok .rdhdr := by decide
theorem test_decode_word : decodeWord (0b0000000000000000000000000000#28 ++ 0b0110#4) = .ok .decode := by decide
theorem test_clr_word : decodeWord (0b0000000000000000000000000000#28 ++ 0b0111#4) = .ok .clr := by decide
/-- V92 -/
theorem test_illegal_words : [0x00000008#32, 0x0000000F#32, 0x00000010#32, 0x00000011#32, 0x80000001#32,
    0xFFFFFFFF#32, 0x00000100#32].all (fun w => (decodeWord w).toOption.isNone) = true := by decide
theorem test_table_word : decodeTableWord 32 6 = some .decode ∧ decodeTableWord 32 0x16 = none := by decide
/-- The word placed by `withFetchWord` is what the next step runs, the first after reset included. -/
theorem test_fetch : ∃ t, step (State.reset.withFetchWord 32 1) = .next t ∧ t.err = .emptyAlphabet ∧ t.input = none :=
  ⟨_, rfl, by decide, by decide⟩

/-! ## One command each -/

/-- V90: after a failure NOP reports success. -/
theorem test_nop : after .nop { coded with error := true, err := .unknownSymbol, errinfo := 0x64#21 } = coded := by
  decide
/-- V1 -/
theorem test_build : nodeElems (after .build start) = tree ∧ (after .build start).root = 4#22 := by decide
/-- V12: ties of every kind. -/
theorem test_build_ties : (nodeElems (after .build { start with
      ft := [(0x61#21, 1#64), (0x62#21, 1#64), (0x63#21, 2#64), (0x64#21, 2#64), (0x65#21, 4#64)] })).drop 5 =
    [.internal 2#85 0#22 1#22, .internal 4#85 2#22 3#22, .internal 6#85 5#22 4#22, .internal 10#85 6#22 7#22] := by
  decide
/-- V1 -/
theorem test_assign : ctElems (after .assign built) = codes ∧ (after .assign built).ctValid = true := by decide
/-- V3 -/
theorem test_assign_one_leaf : (after .assign singleBuilt).err = .degenerateAlphabet ∧
    (after .assign singleBuilt).treeValid = true := by decide
/-- V1, V5 -/
theorem test_encode : payElems (after .encode coded) = [0x1F#8, 0x00#8] ∧ (after .encode coded).pad = 7#3 := by decide
/-- V30 -/
theorem test_encode_unknown : (after .encode { coded with sin := filled [0x61#21, 0x64#21], sinLen := 2#32 }).err =
    .unknownSymbol ∧ (after .encode { coded with sin := filled [0x61#21, 0x64#21], sinLen := 2#32 }).errinfo = 0x64#21 := by
  decide
/-- V6 -/
theorem test_wrhdr : imgElems (after .wrhdr packed) = digits ++ header ++ [0x1F#8, 0x00#8] ∧
    (after .wrhdr packed).hdrLen = 28#32 := by decide
/-- V41: one byte too few. -/
theorem test_wrhdr_capacity : (afterOn { params with maxImg := 61#32 } .wrhdr packed).err = .capacity := by decide
/-- V7 -/
theorem test_rdhdr : (after .rdhdr loaded).ft = start.ft ∧ (after .rdhdr loaded).pad = 7#3 := by decide
/-- V48 -/
theorem test_rdhdr_padding_digit : (after .rdhdr badPad).err = .invalidHeader ∧ (after .rdhdr badPad).ft = [] := by
  decide
/-- V76 -/
theorem test_decode : soutElems (after .decode packed) = sinElems start ∧ (after .decode packed).ctValid = false := by
  decide
/-- V78: the payload ends inside the tree. -/
theorem test_decode_corrupt : (after .decode { packed with payLen := 1#32, pad := 0#3 }).err = .corruptPayload ∧
    (after .decode { packed with payLen := 1#32, pad := 0#3 }).treeValid = true := by decide
/-- V91: STATUS = 0 and HostRead(PAY, 0) still returns 1F. -/
theorem test_clr : statusWord (after .clr packed) = 0#32 ∧
    (afterAccess (.read .pay 0) (after .clr packed)).resp = .byte 0x1F#8 := by decide

/-! ## The port -/

/-- V9: NODE[3] of V1 as a 130-bit value. -/
theorem test_node_bits : (afterAccess (.read .node 3) built).resp =
    .node 0x200000000000000000000300000800001#130 := by decide
/-- V20: a host write of the same value invalidates. -/
theorem test_ftset_invalidates : (afterAccess (.ftSet 0x61 3) coded).treeValid = false ∧
    (afterAccess (.read .node 0) (afterAccess (.ftSet 0x61 3) coded)).hosterr = true := by decide

/-! ## Witnesses: the hypotheses of each statement are met

`witness_X` is for the statement `Obligations.X`. -/

/-- The input of V1 with another table. -/
def started (t : Table) : State := { start with ft := t, ftLen := BitVec.ofNat 32 t.length }

/-- The instance of the vectors with one parameter changed. -/
def withMaxPay (n : Word) : Params := { params with maxPay := n }
def withMaxImg (n : Word) : Params := { params with maxImg := n }
def withMaxOut (n : Word) : Params := { params with maxOut := n }

/-- The input of a state replaced. -/
def reading (vs : List Sym) (s : State) : State := { s with sin := filled vs, sinLen := BitVec.ofNat 32 vs.length }

/-- The payload of a state replaced. -/
def holding (vs : List Byte) (pad : BitVec 3) (s : State) : State :=
  { s with pay := filled vs, payLen := BitVec.ofNat 32 vs.length, pad := pad }

/-- An instance just reset with an image loaded. -/
def imaged (vs : List Byte) : State :=
  { State.reset with img := filled vs, imgLen := BitVec.ofNat 32 vs.length }

theorem witness_inv_start : Inv params start :=
  ⟨by decide, by decide, by decide, by decide, by decide, by decide, by decide, by decide⟩
theorem witness_inv_built : Inv params built :=
  ⟨by decide, by decide, by decide, by decide, by decide, by decide, by decide, by decide⟩
theorem witness_inv_coded : Inv params coded :=
  ⟨by decide, by decide, by decide, by decide, by decide, by decide, by decide, by decide⟩
theorem witness_inv_packed : Inv params packed :=
  ⟨by decide, by decide, by decide, by decide, by decide, by decide, by decide, by decide⟩
theorem witness_inv_loaded : Inv params loaded :=
  ⟨by decide, by decide, by decide, by decide, by decide, by decide, by decide, by decide⟩
theorem witness_inv_single : Inv params single :=
  ⟨by decide, by decide, by decide, by decide, by decide, by decide, by decide, by decide⟩
theorem witness_inv_reset_small : Inv params State.reset :=
  ⟨by decide, by decide, by decide, by decide, by decide, by decide, by decide, by decide⟩

theorem witness_StepRunsDecodedCommand :
    ({ start with input := some (.writeCsr 0x00 1#32) } : State).input = some (.writeCsr 0x00 1#32) ∧
    decodeWord 1#32 = .ok .build := by decide
theorem witness_IllegalCommandFails : decodeWord 0x00000010#32 = .error .nonzeroField ∧
    decodeWord 0x00000008#32 = .error (.reservedOpcode 8#4) ∧
    decodeWord 0x0000000F#32 = .error (.reservedOpcode 15#4) ∧
    decodeWord 0xFFFFFFFF#32 = .error .nonzeroField := by decide
theorem witness_EveryStepAnswers : State.reset.input = none := rfl
/-- Of ResultCodesOfEachCommand and CommandFrames. -/
theorem witness_exec_answers : ∀ i : Instr, ∃ t, execOn params i packed = .next t := by
  intro i; cases i <;> exact ⟨_, rfl⟩
theorem witness_FailedCommandKeepsInputs :
    (∃ t, exec .build State.reset = .next t ∧ t.error = true) ∧
    (∃ t, exec .assign start = .next t ∧ t.error = true) ∧
    (∃ t, execOn params .encode start = .next t ∧ t.error = true) ∧
    (∃ t, execOn (withMaxImg 61#32) .wrhdr packed = .next t ∧ t.error = true) ∧
    (∃ t, execOn params .rdhdr badPad = .next t ∧ t.error = true) ∧
    (∃ t, execOn params .decode single = .next t ∧ t.error = true) :=
  ⟨⟨_, rfl, rfl⟩, ⟨_, rfl, rfl⟩, ⟨_, rfl, rfl⟩, ⟨_, rfl, by decide⟩, ⟨_, rfl, by decide⟩, ⟨_, rfl, by decide⟩⟩
theorem witness_InvAtReset : Params.wf ⟨2#32, 0#32, 0#32, 0#32, 32#32⟩ = true ∧
    Params.wf ⟨1112064#32, 0#32, 0#32, 0#32, 0xFFFFFFFF#32⟩ = true := by decide
theorem witness_InvKeptByEveryStep :
    (Inv params { coded with input := some (.writeCsr 0x00 (encodeWord .encode)) } ∧
      ∃ t, stepOn params { coded with input := some (.writeCsr 0x00 (encodeWord .encode)) } = .next t ∧
        t.payLen = 2#32) ∧
    Inv Config.params { coded with input := some (.writeCsr 0x00 (encodeWord .encode)) } ∧
      ∃ t, step { coded with input := some (.writeCsr 0x00 (encodeWord .encode)) } = .next t ∧ t.payLen = 2#32 :=
  ⟨⟨⟨by decide, by decide, by decide, by decide, by decide, by decide, by decide, by decide⟩, _, rfl, by decide⟩,
    ⟨by decide, by decide, by decide, by decide, by decide, by decide, by decide, by decide⟩, _, rfl, by decide⟩
/-- The first and the last assigned register; STATUS has 32 bits. -/
theorem witness_RegisterReads : (0x00, 0#32) ∈ [(0x00, 0#32), (0x01, statusWord start)] ∧
    (csrValue params 0x0D start).isSome = true ∧ (csrValue params 0x14 start).isSome = true ∧ 6 ≤ 31 := by decide
/-- The ends of the ranges of numbers: unassigned, and assigned but read-only. -/
theorem witness_UnassignedAndReadOnlyRegisters :
    [0x0E, 0x0F, 0x15, 0xFFFF].all (fun n => !csrAssigned n) = true ∧
    [0x01, 0x02, 0x03, 0x05, 0x09, 0x0D, 0x10, 0x14].all
      (fun n => csrAssigned n && !csrAccepts params n 0#32) = true := by decide
theorem witness_RefusedAccessSetsOnlyHosterr :
    [PortEvent.readCsr 0x0E, .readCsr 0x15, .writeCsr 0x01 0#32, .writeCsr 0x04 8#32, .writeCsr 0x06 17#32,
      .writeCsr 0x07 9#32, .writeCsr 0x08 129#32, .ftSet 0xD800 1, .ftSet 0x110000 1, .ftSet 0x61 (2 ^ 64),
      .read .node 5, .read .ct 3, .read .sout 0, .read .sin 16, .read .pay 8, .read .img 128, .write .sin 16 0,
      .write .sin 0 (2 ^ 21), .write .pay 8 0, .write .pay 0 256, .write .img 128 0, .write .img 0 256,
      .write .node 0 0, .write .ct 0 0, .write .sout 0 0].all (fun e => !accepted params e coded) = true := by decide
/-- Each clause: reset, CLR, a refused access, an accepted one. -/
theorem witness_HosterrSticksUntilClrOrReset :
    ∀ e ∈ [PortEvent.reset, .writeCsr 0x00 (encodeWord .clr), .writeCsr 0x01 0#32, .ftGet 0x61],
      ∃ t, perform params e packed = .next t := by
  intro e he; exact ⟨afterAccess e packed, by fin_cases he <;> rfl⟩
theorem witness_ReadsHaveNoSideEffect :
    ∀ e ∈ [PortEvent.readCsr 0x01, .readCsr 0x0E, .ftGet 0x61, .read .node 4, .read .node 5],
      isRead e = true ∧ ∃ t, perform params e packed = .next t := by
  intro e he; exact ⟨by fin_cases he <;> rfl, afterAccess e packed, by fin_cases he <;> rfl⟩
/-- The last element of each space, and the first above it. -/
theorem witness_ElementReads :
    coded.treeValid = true ∧ 4 < coded.nodeCnt.toNat ∧ ¬ 5 < coded.nodeCnt.toNat ∧ coded.ctValid = true ∧
    2 < coded.ctLen.toNat ∧ ¬ 3 < coded.ctLen.toNat ∧ 5 < (after .decode packed).soutLen.toNat ∧
    15 < params.maxIn.toNat ∧ 7 < params.maxPay.toNat ∧ 127 < params.maxImg.toNat := by decide
theorem witness_ElementWrites : memoriesOk params coded = true ∧ (15 < params.maxIn.toNat ∧ 0x1FFFFF < 2 ^ 21) ∧
    (7 < params.maxPay.toNat ∧ 255 < 2 ^ 8) ∧ (127 < params.maxImg.toNat ∧ 255 < 2 ^ 8) := by decide
/-- FTSet: an overwrite in a full table, a new symbol in a table with room, a new symbol in a full one. -/
theorem witness_TablePrimitives : tableOk start.ft = true ∧ isScalar 0x10FFFF = true ∧ isScalar 0xD7FF = true ∧
    isScalar 0xE000 = true ∧ (tableGet start.ft 0x61#21).isSome = true ∧
    start.ft.length ≠ params.maxSyms.toNat ∧
    (tableGet start.ft 0x64#21).isSome = false ∧
    ¬ start.ft.length ≠ ({ params with maxSyms := 3#32 } : Params).maxSyms.toNat := by decide
theorem witness_StaleDerivedStateIsRefused :
    accepted params (.ftSet 0x61 3) coded = true ∧
    (∃ t, perform params (.ftSet 0x61 3) coded = .next t) ∧
    (∃ t, perform params (.ftDel 0x61) coded = .next t ∧ t.ft ≠ coded.ft) ∧
    (∃ t, perform params (.writeCsr 0x00 (encodeWord .rdhdr)) coded = .next t) ∧
    (∃ t, perform params (.writeCsr 0x00 (encodeWord .clr)) coded = .next t) ∧
    (∃ t, perform params (.writeCsr 0x00 (encodeWord .build)) coded = .next t) ∧
    (∃ t, perform params (.writeCsr 0x00 (encodeWord .decode)) coded = .next t) :=
  ⟨by decide, ⟨_, rfl⟩, ⟨_, rfl, by decide⟩, ⟨_, rfl⟩, ⟨_, rfl⟩, ⟨_, rfl⟩, ⟨_, rfl⟩⟩

theorem witness_BuildCompletes : Inv params start ∧ start.ft ≠ [] := ⟨witness_inv_start, by decide⟩
theorem witness_BuildFailsOnlyOnEmptyTable : (∃ t, exec .build start = .next t) ∧
    ∃ t, exec .build State.reset = .next t ∧ State.reset.ft = [] :=
  ⟨⟨_, rfl⟩, _, rfl, rfl⟩
theorem witness_BuildOfOneEntry : single.ft = [(0x61#21, 4#64)] := rfl
/-- The first and the last merge. -/
theorem witness_BuildMergesTheTwoSmallest : Inv params start ∧
    (∃ t, exec .build start = .next t ∧ t.error = false) ∧ 0 + 1 < start.ft.length ∧ 1 + 1 < start.ft.length :=
  ⟨witness_inv_start, ⟨_, rfl, rfl⟩, by decide⟩
/-- Of BuiltTreeWeighsItsTable and TreeOwnershipIsStrict: an Internal and the root. -/
theorem witness_valid_tree : Inv params built ∧ built.treeValid = true ∧ 3 < built.nodeCnt.toNat ∧
    nodeAt built 3 = .internal 3#85 2#22 1#22 ∧ childrenOf (nodeAt built 4) = [0, 3] :=
  ⟨witness_inv_built, by decide⟩
theorem witness_TreeIsDeterminedByTheTable : Inv params start ∧ Inv params packed ∧ start.ft = packed.ft ∧
    (∃ t, exec .build start = .next t) ∧ ∃ t, exec .build packed = .next t :=
  ⟨witness_inv_start, witness_inv_packed, rfl, ⟨_, rfl⟩, _, rfl⟩
theorem witness_AssignCompletes : Inv params built ∧ built.treeValid = true ∧ 2 ≤ built.ft.length :=
  ⟨witness_inv_built, by decide⟩
theorem witness_AssignFails : start.treeValid = false ∧ singleBuilt.treeValid = true ∧
    (nodeAt singleBuilt singleBuilt.root.toNat).isLeaf = true := by decide
theorem witness_AssignIsBreadthFirst : Inv params built ∧ ∃ t, exec .assign built = .next t ∧ t.error = false :=
  ⟨witness_inv_built, _, rfl, rfl⟩
theorem witness_CodesArePrefixFree : Inv params coded ∧ coded.ctValid = true := ⟨witness_inv_coded, rfl⟩

/-- V5 with exactly the room it needs, and V28 with none. -/
theorem witness_EncodeCompletes :
    (coded.ctValid = true ∧ allKnown (ctElems coded) (sinElems coded) = true ∧
      ((codeBits (ctElems coded) (sinElems coded)).length + 7) / 8 ≤ (withMaxPay 2#32).maxPay.toNat) ∧
    (let s := reading [] coded;
      s.ctValid = true ∧ allKnown (ctElems s) (sinElems s) = true ∧
      ((codeBits (ctElems s) (sinElems s)).length + 7) / 8 ≤ (withMaxPay 0#32).maxPay.toNat) := by decide
/-- No code table; V30; V34 (a byte is due before the unknown symbol); V33. -/
theorem witness_EncodeFails :
    start.ctValid = false ∧
    (let s := reading [0x61#21, 0x64#21] coded;
      s.ctValid = true ∧ sinElems s = [0x61#21] ++ 0x64#21 :: [] ∧ allKnown (ctElems s) [0x61#21] = true ∧
      lookupCode (ctElems s) 0x64#21 = none ∧ (codeBits (ctElems s) [0x61#21]).length / 8 ≤ params.maxPay.toNat) ∧
    (let ss := sinElems start ++ List.replicate 7 0x61#21;
      let s := reading (ss ++ [0x64#21]) coded;
      s.ctValid = true ∧ sinElems s = ss ++ 0x64#21 :: [] ∧ allKnown (ctElems s) ss = true ∧
      lookupCode (ctElems s) 0x64#21 = none ∧
      ¬ (codeBits (ctElems s) ss).length / 8 ≤ (withMaxPay 1#32).maxPay.toNat) ∧
    (coded.ctValid = true ∧ allKnown (ctElems coded) (sinElems coded) = true ∧
      (withMaxPay 1#32).maxPay.toNat < ((codeBits (ctElems coded) (sinElems coded)).length + 7) / 8) := by decide
/-- PAD = 7; PAD = 0 ("bbbb"); an empty input. -/
theorem witness_PaddingBound :
    (∃ t, execOn params .encode coded = .next t ∧ t.error = false ∧ t.pad ≠ 0#3 ∧ 6 < t.pad.toNat) ∧
    (∃ t, execOn params .encode (reading [0x62#21, 0x62#21, 0x62#21, 0x62#21] coded) = .next t ∧ t.error = false ∧
      t.pad = 0#3 ∧ t.payLen = 1#32) ∧
    ∃ t, execOn params .encode (reading [] coded) = .next t ∧ t.error = false ∧ t.payLen = 0#32 :=
  ⟨⟨_, rfl, by decide⟩, ⟨_, rfl, by decide⟩, _, rfl, by decide⟩

theorem witness_RenderedSymbols :
    (0x61#21 : Sym) ∉ [0x0D#21, 0x09#21, 0x0A#21, 0x5C#21, 0x27#21, 0x22#21, 0x00#21] := by decide
/-- The ends of the four ranges, with the bytes of V36 and V40 among them, and the first value above them. -/
theorem witness_Utf8Encoding :
    utf8 0x7F#21 = [0x7F#8] ∧ utf8 0x80#21 = [0xC2#8, 0x80#8] ∧ utf8 0xFF#21 = [0xC3#8, 0xBF#8] ∧
    utf8 0x7FF#21 = [0xDF#8, 0xBF#8] ∧ utf8 0x800#21 = [0xE0#8, 0xA0#8, 0x80#8] ∧
    utf8 0x20AC#21 = [0xE2#8, 0x82#8, 0xAC#8] ∧ utf8 0xFFFF#21 = [0xEF#8, 0xBF#8, 0xBF#8] ∧
    utf8 0x10000#21 = [0xF0#8, 0x90#8, 0x80#8, 0x80#8] ∧ utf8 0x1F600#21 = [0xF0#8, 0x9F#8, 0x98#8, 0x80#8] ∧
    utf8 0x10FFFF#21 = [0xF4#8, 0x8F#8, 0xBF#8, 0xBF#8] := by decide
/-- V66 and V67: an overlong form and a surrogate are no encodings. -/
theorem witness_Utf8Encoding_none : utf8dec [0xC0#8, 0xAF#8] = none ∧ utf8dec [0xED#8, 0xA0#8, 0x80#8] = none ∧
    utf8dec [0xF4#8, 0x90#8, 0x80#8, 0x80#8] = none := by decide
theorem witness_DecimalNumerals : (decCount 0#64).head? = some 0x30#8 ∧ decCount 18#64 = [0x31#8, 0x38#8] := by decide
theorem witness_LengthPrefix : digits.length = 32 ∧ (List.replicate 31 0x30#8 ++ [0x32#8]).length = 32 := by decide
/-- `01,`, `x}`, and a field that nothing closes. -/
theorem witness_CountFieldScanning : (∀ x ∈ [0x30#8, 0x31#8], x ≠ 0x2C#8 ∧ x ≠ 0x7D#8) ∧
    (∀ x ∈ [0x78#8], x ≠ 0x2C#8 ∧ x ≠ 0x7D#8) ∧ fieldOk [0x30#8, 0x31#8] = true ∧ fieldOk [0x78#8] = false ∧
    fieldOk [] = false := by decide
/-- V49; V54 (the count is scanned before the duplicate test); V73 (the third entry does not fit); V53 (duplicate);
V62 (list never closed). -/
theorem witness_ScannerErrors :
    scanHeader 11 (looseHeader [(0x61#21, [0x78#8])] 0#3) = .error .invalidHeaderValue ∧
    scanHeader 11 (looseHeader [(0x61#21, [0x31#8]), (0x61#21, [0x7A#8])] 0#3) = .error .invalidHeaderValue ∧
    scanHeader 2 header = .error .capacity ∧
    scanHeader 11 (looseHeader [(0x61#21, [0x31#8]), (0x61#21, [0x32#8])] 0#3) = .error .invalidHeader ∧
    scanHeader 11 (0x7B#8 :: looseEntryText (0x61#21, [0x31#8]) ++ [0x3A#8, 0x3A#8, 0x30#8, 0x0A#8]) =
      .error .invalidHeader := ⟨by decide, by decide, by decide, by decide, by decide⟩
/-- V41: 62 bytes fit exactly, 61 do not. -/
theorem witness_WrhdrCompletes :
    32 + (headerText packed.ft packed.pad).length + packed.payLen.toNat ≤ (withMaxImg 62#32).maxImg.toNat ∧
    (withMaxImg 61#32).maxImg.toNat < 32 + (headerText packed.ft packed.pad).length + packed.payLen.toNat := by
  decide
/-- V44 (entries out of order, leading zeros) and V45 (no entry). -/
theorem witness_RdhdrCompletes :
    (let es : List LooseEntry := [(0x63#21, [0x30#8, 0x31#8]), (0x61#21, [0x30#8, 0x30#8, 0x33#8]), (0x62#21, [0x32#8])];
      let h := looseHeader es 7#3;
      let s := imaged (lengthText (BitVec.ofNat 32 h.length) ++ h ++ [0x1F#8, 0x00#8]);
      h.length = 31 ∧ imgElems s = lengthText (BitVec.ofNat 32 h.length) ++ h ++ [0x1F#8, 0x00#8] ∧
      entriesOk es = true ∧ es.length ≤ params.maxSyms.toNat ∧ 2 ≤ params.maxPay.toNat) ∧
    (let h := looseHeader [] 0#3;
      h = [0x7B#8, 0x7D#8, 0x3A#8, 0x3A#8, 0x30#8, 0x0A#8] ∧ entriesOk [] = true ∧
      imgElems (imaged (lengthText 6#32 ++ h)) = lengthText (BitVec.ofNat 32 h.length) ++ h ++ []) := by decide
/-- One state for each clause: 31 bytes; 32 bytes with a bad digit; one byte missing; V48; V7; V72. -/
theorem witness_RdhdrFailurePriority :
    ((imaged (List.replicate 31 0x30#8)).imgLen.toNat < 32) ∧
    (let s := imaged (List.replicate 31 0x30#8 ++ [0x32#8]);
      32 ≤ s.imgLen.toNat ∧ ((imgElems s).take 32).all (fun b => b == 0x30#8 || b == 0x31#8) = false) ∧
    (let s := imaged (lengthText 7#32 ++ [0x7B#8, 0x7D#8, 0x3A#8, 0x3A#8, 0x30#8, 0x0A#8]);
      32 ≤ s.imgLen.toNat ∧ (imgElems s).take 32 = lengthText 7#32 ∧ s.imgLen.toNat - 32 < (7#32 : Word).toNat) ∧
    (32 ≤ badPad.imgLen.toNat ∧ (imgElems badPad).take 32 = lengthText 12#32 ∧
      (12#32 : Word).toNat ≤ badPad.imgLen.toNat - 32 ∧
      scanHeader 11 (((imgElems badPad).drop 32).take 12) = .error .invalidHeader) ∧
    ((imgElems loaded).take 32 = lengthText 28#32 ∧ (28#32 : Word).toNat ≤ loaded.imgLen.toNat - 32 ∧
      scanHeader 11 (((imgElems loaded).drop 32).take 28) = .ok (start.ft, 7#3) ∧
      (withMaxPay 1#32).maxPay.toNat < loaded.imgLen.toNat - 32 - 28) ∧
    (∃ t, execOn params .rdhdr badPad = .next t) ∧ ∃ t, execOn params .rdhdr loaded = .next t :=
  ⟨by decide, by decide, by decide, by decide, by decide, ⟨_, rfl⟩, _, rfl⟩
theorem witness_RdhdrFailureLeavesEmptyTable : ∃ t, execOn params .rdhdr badPad = .next t ∧ t.error = true :=
  ⟨_, rfl, by decide⟩
theorem witness_HeaderRoundTrip : tableOk packed.ft = true ∧
    (∃ t, execOn params .wrhdr packed = .next t ∧ t.error = false ∧ imgElems loaded = imgElems t) ∧
    packed.ft.length ≤ params.maxSyms.toNat ∧ packed.payLen ≤ params.maxPay :=
  ⟨by decide, ⟨_, rfl, by decide, by decide⟩, by decide, by decide⟩

/-- V76 on an instance with exactly the room it needs, and V79. -/
theorem witness_DecodeCompletes : Inv params packed ∧ 2 ≤ packed.ft.length ∧ (packed.payLen = 0#32 → packed.pad = 0#3) ∧
    allKnown codes (sinElems start) = true ∧ designatedBits packed = codeBits codes (sinElems start) ∧
    (sinElems start).length ≤ (withMaxOut 6#32).maxOut.toNat ∧
    designatedBits (holding [] 0#3 packed) = codeBits codes [] ∧
    ctElems (after .assign (after .build packed)) = codes :=
  ⟨witness_inv_packed, by decide⟩
/-- V86, V87, V80. -/
theorem witness_DecodeFailsBeforeTheWalk :
    (Inv params State.reset ∧ State.reset.ft = []) ∧
    (Inv params single ∧ single.ft.length = 1 ∧ ∃ b, exec .build single = .next b) ∧
    (Inv params { start with pad := 3#3 } ∧ 2 ≤ start.ft.length ∧ start.payLen = 0#32 ∧ (3#3 : BitVec 3) ≠ 0#3 ∧
      ∃ b, exec .build { start with pad := 3#3 } = .next b) :=
  ⟨⟨witness_inv_reset_small, rfl⟩, ⟨witness_inv_single, rfl, _, rfl⟩,
    ⟨by decide, by decide, by decide, by decide, by decide, by decide, by decide, by decide⟩, by decide, by decide,
    by decide, _, rfl⟩
/-- V85: a sixth symbol where SOUT holds five. V78: the payload ends on node 3. -/
theorem witness_DecodeFailsInTheWalk :
    (Inv (withMaxOut 5#32) packed ∧ 2 ≤ packed.ft.length ∧ packed.payLen ≠ 0#32 ∧
      (∃ b, exec .build packed = .next b) ∧ allKnown codes (sinElems start) = true ∧
      designatedBits packed = codeBits codes (sinElems start) ++ [] ∧
      (withMaxOut 5#32).maxOut.toNat < (sinElems start).length) ∧
    (let s := holding [0x1F#8] 0#3 packed;
      Inv params s ∧ s.payLen ≠ 0#32 ∧ ⟨0x63#21, 2, [true, false]⟩ ∈ codes ∧
      designatedBits s = codeBits codes [0x61#21, 0x61#21, 0x61#21, 0x62#21, 0x62#21] ++ [true] ∧
      5 ≤ params.maxOut.toNat) :=
  ⟨⟨⟨by decide, by decide, by decide, by decide, by decide, by decide, by decide, by decide⟩, by decide, by decide,
      ⟨_, rfl⟩, by decide, by decide, by decide⟩,
    ⟨by decide, by decide, by decide, by decide, by decide, by decide, by decide, by decide⟩, by decide⟩
/-- V81: the filler bits of the second byte set. -/
theorem witness_FillerBitsAreIgnored :
    (∃ t, execOn params .decode packed = .next t) ∧
    (∀ i, i + 1 < packed.payLen.toNat → (filled [0x1F#8, 0x7F#8]).get Config.freePay i = payAt packed i) ∧
    (filled [0x1F#8, 0x7F#8]).get Config.freePay 1 ≠ payAt packed 1 ∧
    ((filled [0x1F#8, 0x7F#8]).get Config.freePay 1).getLsbD 7 = (payAt packed 1).getLsbD 7 := by
  refine ⟨⟨_, rfl⟩, fun i hi => ?_, by decide, by decide⟩
  have : i = 0 := by simp only [packed, BitVec.toNat_ofNat] at hi; omega
  subst this; decide

theorem exec_after (i : Instr) (s : State) : execOn params i s = .next (after i s) := by
  obtain ⟨t, h, _⟩ := exec_answers params i s
  rw [after, afterOn, h]

/-- V1, command by command. -/
theorem run_start (is : List Instr) :
    runUntilError params ([.build, .assign, .encode] ++ is) start = runUntilError params is packed := by
  have hb : execOn params .build start = .next built := by rw [exec_after, show after .build start = built by decide]
  have ha : execOn params .assign built = .next coded := by rw [exec_after, show after .assign built = coded by decide]
  have he : execOn params .encode coded = .next packed := by rw [exec_after, show after .encode coded = packed by decide]
  simp only [List.cons_append, List.nil_append]
  rw [runUntilError_next hb rfl, runUntilError_next ha rfl, runUntilError_next he rfl]

theorem run_three : runUntilError params [.build, .assign, .encode] start = .next packed := by
  rw [show [Instr.build, .assign, .encode] = [.build, .assign, .encode] ++ [] from rfl, run_start]
  simp only [runUntilError]

theorem run_compress : runUntilError params compressCommands start = .next (after .wrhdr packed) := by
  rw [show compressCommands = [.build, .assign, .encode] ++ [.wrhdr] from rfl, run_start,
    runUntilError_next (exec_after _ _) (by decide)]
  simp only [runUntilError]

theorem witness_RoundTripInMemory : Inv params start ∧ 2 ≤ start.ft.length ∧
    (∀ x ∈ sinElems start, (tableGet start.ft x).isSome = true) ∧
    (∃ t, runUntilError params [.build, .assign, .encode] start = .next t ∧ t.error = false) ∧
    start.sinLen ≤ params.maxOut :=
  ⟨witness_inv_start, by decide, List.all_eq_true.1 (by decide), ⟨packed, run_three, rfl⟩, by decide⟩
theorem witness_RoundTripThroughImage : Inv params start ∧ Inv params loaded ∧
    (∃ t, runUntilError params compressCommands start = .next t ∧ t.error = false ∧ imgElems loaded = imgElems t ∧
      t.payLen ≤ params.maxPay) ∧
    start.ft.length ≤ params.maxSyms.toNat ∧ start.sinLen ≤ params.maxOut :=
  ⟨witness_inv_start, witness_inv_loaded,
    ⟨after .wrhdr packed, run_compress, by decide, by decide, by decide⟩, by decide, by decide⟩
theorem witness_CompressRejectsSmallAlphabets :
    (Inv params State.reset ∧ State.reset.ft = [] ∧
      ∃ t, runUntilError params compressCommands State.reset = .next t) ∧
    (Inv params single ∧ single.ft.length = 1 ∧ ∃ t, runUntilError params compressCommands single = .next t) :=
  ⟨⟨witness_inv_reset_small, rfl, runUntilError_answers compressCommands State.reset⟩,
    ⟨witness_inv_single, rfl, runUntilError_answers compressCommands single⟩⟩
theorem witness_CountLoadsTheFrequencies :
    Inv params (started []) ∧ (started []).ft = [] ∧ (∀ x ∈ sinElems (started []), isScalar x.toNat = true) ∧
    (sinElems (started [])).dedup.length ≤ params.maxSyms.toNat ∧
    [0x63#21, 0x62#21, 0x61#21].Perm (sinElems (started [])).dedup ∧
    (0x61#21 : Sym) ∈ sinElems (started []) ∧ (0x64#21 : Sym) ∉ sinElems (started []) :=
  ⟨⟨by decide, by decide, by decide, by decide, by decide, by decide, by decide, by decide⟩, rfl,
    List.all_eq_true.1 (by decide), by decide, by decide, by decide, by decide⟩

end Sys2Proof.Tests
end

section
/-! PROOFS. The statements of 10_state.md: first one rule for each kind of access, with what it leaves in HOSTERR,
then the statements that follow from these rules and from the laws of the table and of the tree. -/

namespace Sys2Proof.Machine

section Rules

variable {p : Params}

/-! ## Reads -/

theorem perform_readCsr_of_some {n : Nat} {s : State} {v : Word} (h : csrValue p n s = some v) :
    perform p (.readCsr n) s = .next { s with resp := .csr v } := by
  simp only [perform, hostReadCsr, h]

theorem perform_readCsr_unassigned {n : Nat} (s : State) (h : csrAssigned n = false) :
    perform p (.readCsr n) s = .next { s with hosterr := true, resp := .csr 0#32 } := by
  have hnone : csrValue p n s = none := by
    rw [← Option.isNone_iff_eq_none, ← Option.not_isSome, csrValue_isSome, h]; rfl
  simp only [perform, hostReadCsr, hnone, refuseAccess]

theorem perform_read_of_some {sp : Space} {i : Nat} {s : State} {r : Response} (h : elemValue p sp i s = some r) :
    perform p (.read sp i) s = .next { s with resp := r } := by
  simp only [perform, hostRead, h]

theorem hostReadCsr_hosterr (n : Nat) (s : State) :
    (hostReadCsr p n s).hosterr = (s.hosterr || !csrAssigned n) := by
  rw [← csrValue_isSome (p := p) n s, hostReadCsr]
  cases csrValue p n s with
  | none => simp
  | some v => simp

theorem hostRead_hosterr (sp : Space) (i : Nat) (s : State) :
    (hostRead p sp i s).hosterr = (s.hosterr || !readable p sp i s) := by
  rw [← elemValue_isSome sp i s, hostRead]
  cases elemValue p sp i s with
  | none => simp
  | some r => simp

/-! ## Writes -/

theorem perform_writeCsr_of_ne_cmd {n : Nat} (v : Word) (s : State) (hn : n ≠ 0) :
    perform p (.writeCsr n v) s = .next (hostWriteReg p n v s) := by
  simp only [perform, if_neg hn]

theorem hostWriteReg_of_not_accepts {n : Nat} {v : Word} (s : State) (hn : n ≠ 0) (h : csrAccepts p n v = false) :
    hostWriteReg p n v s = refuseAccess s := by
  rw [hostWriteReg_refused n v s hn, h]; rfl

theorem hostWriteReg_hosterr {n : Nat} (v : Word) (s : State) (hn : n ≠ 0) :
    (hostWriteReg p n v s).hosterr = (s.hosterr || !csrAccepts p n v) := by
  cases ha : csrAccepts p n v with
  | false => simp [hostWriteReg_of_not_accepts s hn ha]
  | true =>
    simp only [csrAccepts, Bool.or_eq_true, Bool.and_eq_true, beq_iff_eq, decide_eq_true_eq] at ha
    obtain (((hz | ⟨rfl, hv⟩) | ⟨rfl, hv⟩) | ⟨rfl, hv⟩) | ⟨rfl, hv⟩ := ha
    · exact absurd hz hn
    all_goals simp [hostWriteReg, BitVec.le_def, hv]

theorem hostWrite_hosterr (sp : Space) (i v : Nat) (s : State) :
    (hostWrite p sp i v s).hosterr = (s.hosterr || !writable p sp i v) := by
  cases sp
  case node | ct | sout => simp [hostWrite, writable]
  case sin | pay | img =>
    simp only [hostWrite, writable, ← Bool.decide_and]
    split
    next h => rw [decide_eq_true h]; simp
    next h => rw [decide_eq_false h]; simp

/-- R31: when FTSet is accepted, in the form in which `hostFtSet` asks it. -/
theorem ftAccepts_iff (n c : Nat) (s : State) : ftAccepts p n c s = true ↔ isScalar n = true ∧ c < 2 ^ 64 ∧
    ((tableGet s.ft (BitVec.ofNat 21 n)).isSome = true ∨ s.ft.length ≠ p.maxSyms.toNat) := by
  simp only [ftAccepts, Bool.and_eq_true, Bool.or_eq_true, decide_eq_true_eq, and_assoc]

theorem hostFtSet_hosterr (n c : Nat) (s : State) :
    (hostFtSet p n c s).hosterr = (s.hosterr || !ftAccepts p n c s) := by
  simp only [hostFtSet, ← ftAccepts_iff]
  split
  next h => simp [h]
  next h => simp [h]

theorem hostFtDel_hosterr (n : Nat) (s : State) : (hostFtDel n s).hosterr = s.hosterr := by
  rw [hostFtDel]
  split <;> rfl

/-! ## Commands -/

theorem opcode_of_decodeOpcode {op : BitVec 4} {i : Instr} (h : decodeOpcode op = .ok i) : op = i.opcode := by
  unfold decodeOpcode at h
  split at h
  case h_9 => cases h
  all_goals
    cases h
    exact BitVec.eq_of_toNat_eq ‹_›

/-- A command has one word only (30_encoding.md R82, R89): with `decode_encode`, the decoder inverts the encoder. -/
theorem encodeWord_of_decodeWord {w : Word} {i : Instr} (h : decodeWord w = .ok i) : w = encodeWord i := by
  unfold decodeWord at h
  split at h
  · rename_i hz
    rw [encodeWord, ← opcode_of_decodeOpcode h, ← hz]
    exact (BitVec.extractLsb'_append_extractLsb' (w := 28) (len := 4)).symm
  · cases h

theorem runCommand_of_decode {w : Word} {i : Instr} (s : State) (h : decodeWord w = .ok i) :
    runCommand p w s = execOn p i (startCommand s) := by
  simp only [runCommand, h]

theorem runCommand_hosterr {w : Word} {s t : State} (h : runCommand p w s = .next t) :
    t.hosterr = if w = encodeWord .clr then false else s.hosterr := by
  cases hd : decodeWord w with
  | error e =>
    have hw : w ≠ encodeWord .clr := by rintro rfl; simp [decode_encode] at hd
    simp only [runCommand, hd] at h
    cases h
    rw [if_neg hw]; rfl
  | ok i =>
    rw [runCommand_of_decode s hd] at h
    obtain rfl := encodeWord_of_decodeWord hd
    by_cases hi : i = .clr
    · subst hi
      cases h
      rfl
    · have hw : encodeWord i ≠ encodeWord .clr := fun he => by
        rw [he, decode_encode] at hd
        exact hi (Except.ok.inj hd).symm
      rw [if_neg hw, exec_hosterr i _ t h hi]; rfl

/-! ## SCALAR symbols -/

/-- A SCALAR value fits the symbol width (00_scope.md R5), so it is the value of its symbol. -/
theorem isScalar_toNat_ofNat {n : Nat} (h : isScalar n = true) : isScalar (BitVec.ofNat 21 n).toNat = true := by
  have hn : n < 2 ^ 21 := by
    simp only [isScalar, Bool.or_eq_true, Bool.and_eq_true, decide_eq_true_eq] at h
    omega
  rwa [BitVec.toNat_ofNat, Nat.mod_eq_of_lt hn]

/-! ## Bits of STATUS and of a node -/

theorem getLsbD_append_ofBool {n : Nat} (x : BitVec n) (b : Bool) (i : Nat) :
    (x ++ BitVec.ofBool b).getLsbD i = if i = 0 then b else x.getLsbD (i - 1) :=
  BitVec.getLsbD_concat x b i

/-- R42: six named bits, and zeros above them. -/
theorem statusWord_getLsbD (s : State) (i : Nat) : (statusWord s).getLsbD i =
    ([s.done, s.error, s.treeValid, s.ctValid, s.busy, s.hosterr][i]?).getD false := by
  simp only [statusWord, getLsbD_append_ofBool, BitVec.getLsbD_zero]
  match i with
  | 0 | 1 | 2 | 3 | 4 | 5 => rfl
  | i + 6 => rfl

theorem leaf_toBits_fields (x : Sym) (w : Weight) :
    (TreeNode.leaf x w).toBits.getLsbD 129 = false ∧ (TreeNode.leaf x w).toBits.extractLsb' 44 85 = w ∧
    (TreeNode.leaf x w).toBits.extractLsb' 21 23 = 0#23 ∧ (TreeNode.leaf x w).toBits.extractLsb' 0 21 = x := by
  simp only [TreeNode.toBits]
  refine ⟨?_, ?_, ?_, BitVec.extractLsb'_append_eq_right⟩
  · simp only [BitVec.getLsbD_append]
    rfl
  · rw [BitVec.extractLsb'_append_eq_of_le (by decide), BitVec.extractLsb'_append_eq_of_le (by decide)]
    exact BitVec.extractLsb'_append_eq_right
  · rw [BitVec.extractLsb'_append_eq_of_le (by decide)]
    exact BitVec.extractLsb'_append_eq_right

theorem internal_toBits_fields (w : Weight) (l r : NodeIdx) :
    (TreeNode.internal w l r).toBits.getLsbD 129 = true ∧ (TreeNode.internal w l r).toBits.extractLsb' 44 85 = w ∧
    (TreeNode.internal w l r).toBits.extractLsb' 22 22 = l ∧
    (TreeNode.internal w l r).toBits.extractLsb' 0 22 = r := by
  simp only [TreeNode.toBits]
  refine ⟨?_, ?_, ?_, BitVec.extractLsb'_append_eq_right⟩
  · simp only [BitVec.getLsbD_append]
    rfl
  · rw [BitVec.extractLsb'_append_eq_of_le (by decide), BitVec.extractLsb'_append_eq_of_le (by decide)]
    exact BitVec.extractLsb'_append_eq_right
  · rw [BitVec.extractLsb'_append_eq_of_le (by decide)]
    exact BitVec.extractLsb'_append_eq_right

/-! ## The node store of a valid tree -/

theorem Inv.ftSorted {s : State} (h : Inv p s) : tableSorted s.ft = true := by
  have hfits := h.table
  simp only [tableFits, Bool.and_eq_true] at hfits
  obtain ⟨⟨hok, -⟩, -⟩ := hfits
  exact ((tableOk_iff _).1 hok).1

theorem validTree_nodeElems_ne_nil {s : State} (h : Inv p s) (hv : s.treeValid = true) : nodeElems s ≠ [] := by
  obtain ⟨hne, hnodes, -, -⟩ := valid_nodes h hv
  rw [hnodes]
  exact List.append_ne_nil_of_left_ne_nil (by simpa [leafNodes] using hne) _

/-- Every node but the last is a child once, and children stand below their parent: what the merge loop keeps,
started on the leaves. -/
theorem validTree_children {s : State} (h : Inv p s) (hv : s.treeValid = true) :
    ((nodeElems s).flatMap childrenOf).Perm (List.range ((nodeElems s).length - 1)) ∧
    ∀ i node, (nodeElems s)[i]? = some node → ∀ c ∈ childrenOf node, c < i := by
  obtain ⟨hne, hnodes, -, -⟩ := valid_nodes h hv
  obtain ⟨hfit, hcap⟩ := h.ftLength
  have hleaf : ∀ i node, (leafNodes s.ft)[i]? = some node → ∀ c ∈ childrenOf node, c < i := by
    intro i node hi
    obtain ⟨e, -, rfl⟩ := List.mem_map.1 (List.mem_of_getElem? hi)
    simp [childrenOf]
  have hqueue : initialQueue s.ft ≠ [] := by simpa [← List.length_pos_iff] using hne
  have hleaves : leafNodes s.ft ≠ [] := by simpa [leafNodes] using hne
  rw [hnodes]
  exact mergeLoop_perm _ _ _ _ _ (by simp) (by simp; omega) (by simp) (loopInv_init _ h.ftSorted (by omega)) hqueue
    (initialQueue_last _) hleaves hleaf

end Rules

/-! ## The statements -/

/-- Settles O18: by the rule for HOSTERR of each kind of access. -/
theorem hosterrSticksUntilClrOrReset : Obligations.HosterrSticksUntilClrOrReset := by
  intro p e s t h
  cases e with
  | writeCsr n v =>
    by_cases hn : n = 0
    · subst hn
      simp [runCommand_hosterr (p := p) h, accepted, csrAccepts]
    · rw [perform_writeCsr_of_ne_cmd v s hn] at h
      cases h
      simp [hostWriteReg_hosterr v s hn, accepted, hn]
  | readCsr n => cases h; simp [hostReadCsr_hosterr, accepted]
  | read sp i => cases h; simp [hostRead_hosterr, accepted]
  | write sp i v => cases h; simp [hostWrite_hosterr, accepted]
  | ftSet n c => cases h; simp [hostFtSet_hosterr, accepted]
  | ftDel n => cases h; simp [hostFtDel_hosterr, accepted]
  | ftGet n => cases h; simp [hostFtGet, accepted]
  | reset => cases h; rfl

/-- Settles O22: the accepted accesses by the lookup laws of the table, the others by their guard. -/
theorem tablePrimitives : Obligations.TablePrimitives := by
  intro p s n c hok
  refine ⟨?_, ?_, ?_⟩
  · split
    · rename_i hacc
      refine ⟨withTable (tableSet s.ft (BitVec.ofNat 21 n) (BitVec.ofNat 64 c)) s, ?_, rfl,
        tableOk_tableSet _ _ _ hok (isScalar_toNat_ofNat hacc.1), fun k => tableGet_tableSet _ _ _ _⟩
      rw [perform, hostFtSet, if_pos hacc]
    · rw [perform, hostFtSet, if_neg ‹_›]; rfl
  · split
    · refine ⟨withTable (tableDel s.ft (BitVec.ofNat 21 n)) s, ?_, rfl, tableOk_tableDel _ _ hok,
        fun k => tableGet_tableDel _ _ _⟩
      rw [perform, hostFtDel, if_pos ‹_›]
    · rw [perform, hostFtDel, if_neg ‹_›]
  · simp only [perform, hostFtGet, ftValue]
    split <;> rfl

/-- Settles O31: from `validTree_children`, with the node store read element by element. -/
theorem treeOwnershipIsStrict : Obligations.TreeOwnershipIsStrict := by
  intro p s h hv
  obtain ⟨-, -, hcnt, hroot⟩ := valid_nodes h hv
  obtain ⟨hperm, hbelow⟩ := validTree_children h hv
  have hpos := List.length_pos_iff.2 (validTree_nodeElems_ne_nil h hv)
  exact ⟨by omega, by rwa [hroot], fun i hi => hbelow i _ (nodeElems_get s i hi)⟩

/-- Settles O3: a step performs the event at the input, and a CMD write runs the command it decodes to. -/
theorem stepRunsDecodedCommand : Obligations.StepRunsDecodedCommand := by
  have hrun : ∀ (s : State) (w : Word) (i : Instr), s.input = some (.writeCsr 0x00 w) → decodeWord w = .ok i →
      step s = exec i { s with input := none, busy := true } := by
    intro s w i hin hd
    rw [step, stepOn_event hin, exec_eq]
    exact runCommand_of_decode _ hd
  refine ⟨hrun, fun s i => ?_, fun s => rfl, fun i s => exec_eq i s⟩
  have hword : BitVec.ofNat 32 ((encodeWord i).toNat % 2 ^ 32) = encodeWord i := by
    rw [Nat.mod_eq_of_lt (BitVec.isLt _), BitVec.ofNat_toNat, BitVec.setWidth_eq]
  exact hrun (s.withFetchWord 32 (encodeWord i).toNat) (encodeWord i) i
    (congrArg (fun w => some (PortEvent.writeCsr 0x00 w)) hword) (decode_encode i)

/-- Settles O10: every field by computation; no element is readable, since no index is below SOUT_LEN = 0. -/
theorem resetState : Obligations.ResetState := by
  refine ⟨by decide, rfl, rfl, rfl, rfl, rfl, rfl, rfl, rfl, rfl, rfl, rfl, rfl, rfl,
    fun p => ⟨rfl, rfl, rfl, rfl, rfl⟩, fun i => ⟨rfl, rfl, rfl, rfl, rfl, rfl, fun p => ⟨rfl, rfl, ?_⟩⟩⟩
  simp [readable, State.reset]

/-- Settles O12: part by part; nothing exceeds a capacity, since everything is empty. -/
theorem invAtReset : Obligations.InvAtReset := by
  refine ⟨fun p hp => ?_, by decide⟩
  exact {
    params := hp
    flags := by decide
    table := by simp [tableFits, tableOk, tableSorted, State.reset]
    lengths := (lengthsFit_iff _).2 ⟨word_zero_le _, word_zero_le _, word_zero_le _, word_zero_le _⟩
    cleared := by decide
    memories := by simp [memoriesOk, State.reset]
    tree := fun h => by cases h
    codes := fun h => by cases h }

/-- Settles O14: the value of each register is `csrValue`, where a narrow register is widened. -/
theorem registerReads : Obligations.RegisterReads := by
  refine ⟨fun s => ?_, fun p s n v hv => perform_readCsr_of_some ?_⟩
  · simp only [statusWord_getLsbD]
    exact ⟨rfl, rfl, rfl, rfl, rfl, rfl, fun i hi => by simp [hi]⟩
  · have h4 : ∀ x : BitVec 4, x.setWidth 32 = 0#28 ++ x := fun x => BitVec.setWidth_eq_append (by decide)
    have h21 : ∀ x : BitVec 21, x.setWidth 32 = 0#11 ++ x := fun x => BitVec.setWidth_eq_append (by decide)
    have h3 : ∀ x : BitVec 3, x.setWidth 32 = 0#29 ++ x := fun x => BitVec.setWidth_eq_append (by decide)
    have h22 : ∀ x : BitVec 22, x.setWidth 32 = 0#10 ++ x := fun x => BitVec.setWidth_eq_append (by decide)
    fin_cases hv
    all_goals simp only [csrValue, h3, h4, h21, h22]

/-- Settles O15: each register's arm of `hostWriteReg`, the bound compared as words or as numbers. -/
theorem registerWrites : Obligations.RegisterWrites := by
  intro p s v
  refine ⟨?_, ?_, ?_, ?_⟩
  · rw [perform_writeCsr_of_ne_cmd v s (n := 0x04) (by decide), ← apply_ite Host.Outcome.next,
      BitVec.ofNat_toNat]
    rfl
  · rw [perform_writeCsr_of_ne_cmd v s (n := 0x06) (by decide), ← apply_ite Host.Outcome.next]; rfl
  · rw [perform_writeCsr_of_ne_cmd v s (n := 0x07) (by decide), ← apply_ite Host.Outcome.next]; rfl
  · rw [perform_writeCsr_of_ne_cmd v s (n := 0x08) (by decide), ← apply_ite Host.Outcome.next]; rfl

/-- Settles O16: these numbers are none of those `csrAssigned` and `csrAccepts` name. -/
theorem unassignedAndReadOnlyRegisters : Obligations.UnassignedAndReadOnlyRegisters := by
  intro p s n v
  constructor
  · intro hn
    refine perform_readCsr_unassigned s ?_
    simp only [csrAssigned, Bool.or_eq_false_iff, Bool.and_eq_false_iff, decide_eq_false_iff_not]
    omega
  · intro hn
    have hrefused : csrAccepts p n v = false := by
      simp only [csrAccepts, Bool.or_eq_false_iff, Bool.and_eq_false_iff, beq_eq_false_iff_ne]
      omega
    have hcmd : n ≠ 0 := by omega
    rw [perform_writeCsr_of_ne_cmd v s hcmd, hostWriteReg_of_not_accepts s hcmd hrefused, refuseAccess]

/-- Settles O20: the guard of each space picks the element in `elemValue`. -/
theorem elementReads : Obligations.ElementReads := by
  refine ⟨leaf_toBits_fields, internal_toBits_fields, fun p s i => ⟨?_, ?_, ?_, ?_, ?_, ?_⟩⟩
  · exact fun hv hi => perform_read_of_some (if_pos ⟨hv, hi⟩)
  · exact fun hv hi => perform_read_of_some (if_pos ⟨hv, hi⟩)
  all_goals exact fun hi => perform_read_of_some (if_pos hi)

end Sys2Proof.Machine
end

section
/-! PROOFS. The statements of 20_memory.md: one rule for a refused access, for an accepted read and for an accepted
write of an element, one for what each command can answer, and that every event keeps the invariant. -/

namespace Sys2Proof.Machine

section MemoryRules

variable {p : Params}

/-! ## Refused accesses -/

theorem perform_read_unreadable {sp : Space} {i : Nat} {s : State} (h : readable p sp i s = false) :
    perform p (.read sp i) s = .next { s with hosterr := true, resp := zeroResponse sp } := by
  have hnone : elemValue p sp i s = none := by
    rw [← Option.isNone_iff_eq_none, ← Option.not_isSome, elemValue_isSome, h]; rfl
  simp only [perform, hostRead, hnone, refuseAccess]

theorem hostWrite_of_not_writable {sp : Space} {i v : Nat} (s : State) (h : writable p sp i v = false) :
    hostWrite p sp i v s = refuseAccess s := by
  cases sp
  case node | ct | sout => rfl
  case sin | pay | img =>
    simp only [writable, ← Bool.decide_and, decide_eq_false_iff_not] at h
    exact if_neg h

theorem hostFtSet_of_not_accepts {n c : Nat} {s : State} (h : ftAccepts p n c s = false) :
    hostFtSet p n c s = refuseAccess s := by
  rw [hostFtSet, if_neg]
  rw [← ftAccepts_iff, h]
  exact Bool.false_ne_true

/-- R65, for each kind of access. -/
theorem perform_refused {e : PortEvent} {s : State} (h : accepted p e s = false) :
    perform p e s = .next { s with hosterr := true, resp := refusedResponse e s } := by
  cases e with
  | readCsr n => exact perform_readCsr_unassigned s h
  | writeCsr n v =>
    have hn : n ≠ 0 := by rintro rfl; simp [accepted, csrAccepts] at h
    rw [perform_writeCsr_of_ne_cmd v s hn, hostWriteReg_of_not_accepts s hn h]; rfl
  | ftSet n c => rw [perform, hostFtSet_of_not_accepts h]; rfl
  | ftDel n | ftGet n | reset => cases h
  | read sp i => exact perform_read_unreadable h
  | write sp i v => rw [perform, hostWrite_of_not_writable s h]; rfl

/-- Whether an access is accepted depends neither on HOSTERR nor on the answer kept. -/
theorem accepted_answered (e : PortEvent) (s : State) (b : Bool) (r : Response) :
    accepted p e { s with hosterr := b, resp := r } = accepted p e s := by
  cases e <;> rfl

theorem refusedResponse_repeats (e : PortEvent) (s : State) (b : Bool) :
    refusedResponse e { s with hosterr := b, resp := refusedResponse e s } = refusedResponse e s := by
  cases e <;> rfl

/-! ## Accepted reads -/

/-- R67: an accepted read only replaces the answer kept, and by the same answer whatever is kept already. -/
theorem perform_accepted_read {e : PortEvent} {s : State} (hr : isRead e = true) (ha : accepted p e s = true) :
    ∃ r, ∀ x, perform p e { s with resp := x } = .next { s with resp := r } := by
  cases e with
  | readCsr n =>
    obtain ⟨v, hv⟩ := Option.isSome_iff_exists.1 ((csrValue_isSome n s).trans ha)
    exact ⟨.csr v, fun x => perform_readCsr_of_some (s := { s with resp := x }) hv⟩
  | ftGet n => exact ⟨ftValue n s, fun x => rfl⟩
  | read sp i =>
    obtain ⟨r, hv⟩ := Option.isSome_iff_exists.1 ((elemValue_isSome sp i s).trans ha)
    exact ⟨r, fun x => perform_read_of_some (s := { s with resp := x }) (by cases sp <;> exact hv)⟩
  | writeCsr n v | ftSet n c | ftDel n | write sp i v | reset => cases hr

/-! ## Accepted writes of elements -/

theorem perform_write_sin {i v : Nat} (s : State) (hi : i < p.maxIn.toNat) (hv : v < 2 ^ 21) :
    perform p (.write .sin i v) s = .next { s with sin := s.sin.set i (BitVec.ofNat 21 v) } :=
  congrArg Host.Outcome.next (if_pos ⟨hi, hv⟩)

theorem perform_write_pay {i v : Nat} (s : State) (hi : i < p.maxPay.toNat) (hv : v < 2 ^ 8) :
    perform p (.write .pay i v) s = .next { s with pay := s.pay.set i (BitVec.ofNat 8 v) } :=
  congrArg Host.Outcome.next (if_pos ⟨hi, hv⟩)

theorem perform_write_img {i v : Nat} (s : State) (hi : i < p.maxImg.toNat) (hv : v < 2 ^ 8) :
    perform p (.write .img i v) s = .next { s with img := s.img.set i (BitVec.ofNat 8 v) } :=
  congrArg Host.Outcome.next (if_pos ⟨hi, hv⟩)

/-! ## What a command can answer -/

theorem build_answer {s t : State} (h : execOn p .build s = .next t) :
    (∃ f, buildTree s.ft = .error f ∧ t = raise f (spoilNode (invalidateTree s))) ∨
    ∃ nodes, buildTree s.ft = .ok nodes ∧ t = complete (loadTree nodes (invalidateTree s)) := by
  cases hb : buildTree s.ft with
  | error f => simp only [execOn, execBuild, hb] at h; cases h; exact .inl ⟨f, rfl, rfl⟩
  | ok nodes => simp only [execOn, execBuild, hb] at h; cases h; exact .inr ⟨nodes, rfl, rfl⟩

theorem assign_answer {s t : State} (h : execOn p .assign s = .next t) :
    (∃ f, assignResult s = .error f ∧ t = raise f (spoilCt (invalidateCt s))) ∨
    ∃ es, assignResult s = .ok es ∧ t = complete (loadCodes es (invalidateCt s)) := by
  cases hr : assignResult s with
  | error f => simp only [execOn, execAssign, hr] at h; cases h; exact .inl ⟨f, rfl, rfl⟩
  | ok es => simp only [execOn, execAssign, hr] at h; cases h; exact .inr ⟨es, rfl, rfl⟩

theorem encode_answer {s t : State} (h : execOn p .encode s = .next t) :
    (∃ f, encodeResult p s = .error f ∧ t = raise f { s with payLen := 0#32, pad := 0#3, pay := s.pay.spoil }) ∨
    ∃ r, encodeResult p s = .ok r ∧ t = complete { s with
      payLen := BitVec.ofNat 32 r.1.length, pad := r.2, pay := s.pay.writeAll r.1 } := by
  cases hr : encodeResult p s with
  | error f => rw [encode_err s f hr] at h; cases h; exact .inl ⟨f, rfl, rfl⟩
  | ok r => rw [encode_ok s r hr] at h; cases h; exact .inr ⟨r, rfl, rfl⟩

theorem wrhdr_answer {s t : State} (h : execOn p .wrhdr s = .next t) :
    t = raise .capacity { s with imgLen := 0#32, hdrLen := 0#32, img := s.img.spoil } ∨
    t = complete { s with
      img := s.img.writeAll (imageText s.ft s.pad (payElems s))
      imgLen := BitVec.ofNat 32 (32 + (headerText s.ft s.pad).length + s.payLen.toNat)
      hdrLen := BitVec.ofNat 32 (headerText s.ft s.pad).length } := by
  simp only [execOn, wrhdrOn] at h
  split at h <;> cases h
  · exact .inl rfl
  · exact .inr rfl

theorem rdhdr_answer {s t : State} (h : execOn p .rdhdr s = .next t) :
    (∃ f, parseImage p.maxSyms.toNat p.maxPay.toNat (imgElems s) = .error f ∧
      t = raise f { rdhdrStart s with pay := s.pay.spoil }) ∨
    ∃ r, parseImage p.maxSyms.toNat p.maxPay.toNat (imgElems s) = .ok r ∧ t = complete { rdhdrStart s with
      ft := r.table, ftLen := BitVec.ofNat 32 r.table.length, pad := r.pad, pay := s.pay.writeAll r.pay
      payLen := BitVec.ofNat 32 r.pay.length, hdrLen := BitVec.ofNat 32 r.hdrLen } := by
  cases hr : parseImage p.maxSyms.toNat p.maxPay.toNat (imgElems s) with
  | error f => rw [rdhdr_err s f hr] at h; cases h; exact .inl ⟨f, rfl, rfl⟩
  | ok r => rw [rdhdr_ok s r hr] at h; cases h; exact .inr ⟨r, rfl, rfl⟩

theorem decode_answer {s t : State} (h : execOn p .decode s = .next t) :
    (∃ f, buildTree s.ft = .error f ∧ t = raise f (spoilSout (spoilNode (decodeStart s)))) ∨
    ∃ nodes, buildTree s.ft = .ok nodes ∧
      ((∃ f, decodeSymbols p (loadTree nodes (decodeStart s)) = .error f ∧
        t = raise f (spoilSout (loadTree nodes (decodeStart s)))) ∨
      ∃ out, decodeSymbols p (loadTree nodes (decodeStart s)) = .ok out ∧
        t = complete { loadTree nodes (decodeStart s) with
          sout := s.sout.writeAll out, soutLen := BitVec.ofNat 32 out.length }) := by
  cases hb : buildTree s.ft with
  | error f => simp only [execOn, decodeOn, hb] at h; cases h; exact .inl ⟨f, rfl, rfl⟩
  | ok nodes =>
    refine .inr ⟨nodes, rfl, ?_⟩
    cases ho : decodeSymbols p (loadTree nodes (decodeStart s)) with
    | error f => rw [decode_err s nodes hb f ho] at h; cases h; exact .inl ⟨f, rfl, rfl⟩
    | ok out => rw [decode_ok s nodes hb out ho] at h; cases h; exact .inr ⟨out, rfl, rfl⟩

/-! ## The invariant -/

/-- What the host writes into the inputs of the commands concerns the capacities only. -/
theorem Inv.hostInputs {s : State} (h : Inv p s) {pad : BitVec 3} {sinLen payLen imgLen : Word} {sin : Memory Sym}
    {pay img : Memory Byte}
    (hl : lengthsFit p { s with sinLen := sinLen, payLen := payLen, imgLen := imgLen } = true)
    (hm : memoriesOk p { s with sin := sin, pay := pay, img := img } = true) :
    Inv p { s with
      pad := pad, sinLen := sinLen, payLen := payLen, imgLen := imgLen, sin := sin, pay := pay, img := img } :=
  h.simple h.flags hl hm rfl rfl rfl rfl rfl rfl rfl rfl rfl

/-- R181: CLR leaves the reset state but for the elements. -/
theorem inv_clr {s t : State} (h : Inv p s) (e : execOn p .clr s = .next t) : Inv p t := by
  cases e
  have hreset := invAtReset.1 p h.params
  exact hreset.invalid rfl hreset.lengths h.memories hreset.table rfl rfl rfl rfl rfl

theorem inv_applyReset {s : State} (h : Inv p s) : Inv p (applyReset s) := by
  have hreset := invAtReset.1 p h.params
  exact hreset.invalid rfl hreset.lengths (by simp [memoriesOk, applyReset]) hreset.table rfl rfl rfl rfl rfl

/-- Every command keeps the invariant. -/
theorem inv_execOn {i : Instr} {s t : State} (h : Inv p s) (e : execOn p i s = .next t) : Inv p t := by
  cases i with
  | nop => exact inv_nop h e
  | build => exact inv_build h e
  | assign => exact inv_assign h e
  | encode => exact inv_encode h e
  | wrhdr => exact inv_wrhdr h e
  | rdhdr => exact inv_rdhdr h e
  | decode => exact inv_decode h e
  | clr => exact inv_clr h e

/-- A CMD write keeps the invariant: BUSY, set at the start of the command, does not show in its answer. -/
theorem inv_writeCmd {w : Word} {s t : State} (h : Inv p s) (e : perform p (.writeCsr 0 w) s = .next t) :
    Inv p t := by
  change runCommand p w s = .next t at e
  cases hd : decodeWord w with
  | error _ =>
    simp only [runCommand, hd] at e
    cases e
    obtain ⟨-, -, -, hvalid, -⟩ := h.flgs
    exact h.simple (flagsOk_raise _ _ hvalid) h.lengths h.memories rfl rfl rfl rfl rfl rfl rfl rfl rfl
  | ok i =>
    rw [runCommand_of_decode s hd, startCommand, exec_busy] at e
    exact inv_execOn h e

theorem inv_hostWriteReg {n : Nat} {v : Word} {s : State} (h : Inv p s) (hn : n ≠ 0)
    (ha : csrAccepts p n v = true) : Inv p (hostWriteReg p n v s) := by
  obtain ⟨hsin, hpay, himg, hsout⟩ := h.lens
  simp only [csrAccepts, Bool.or_eq_true, Bool.and_eq_true, beq_iff_eq, decide_eq_true_eq] at ha
  obtain (((hz | ⟨rfl, hv⟩) | ⟨rfl, hv⟩) | ⟨rfl, hv⟩) | ⟨rfl, hv⟩ := ha
  · exact absurd hz hn
  · rw [hostWriteReg, if_pos hv]
    exact h.hostInputs h.lengths h.memories
  · rw [hostWriteReg, if_pos (BitVec.le_def.2 hv)]
    exact h.hostInputs ((lengthsFit_iff _).2 ⟨hv, hpay, himg, hsout⟩) h.memories
  · rw [hostWriteReg, if_pos (BitVec.le_def.2 hv)]
    exact h.hostInputs ((lengthsFit_iff _).2 ⟨hsin, hv, himg, hsout⟩) h.memories
  · rw [hostWriteReg, if_pos (BitVec.le_def.2 hv)]
    exact h.hostInputs ((lengthsFit_iff _).2 ⟨hsin, hpay, hv, hsout⟩) h.memories

theorem inv_hostWrite {sp : Space} {i v : Nat} {s : State} (h : Inv p s) (ha : writable p sp i v = true) :
    Inv p (hostWrite p sp i v s) := by
  obtain ⟨wnode, wct, wsin, wsout, wpay, wimg, bnode, bct, bsin, bsout, bpay, bimg⟩ := h.mems
  cases sp
  case node | ct | sout => cases ha
  all_goals
    simp only [writable, Bool.and_eq_true, decide_eq_true_eq] at ha
    rw [hostWrite, if_pos ha]
    refine h.hostInputs h.lengths ((memoriesOk_iff _).2 ?_)
  case sin =>
    exact ⟨wnode, wct, wf_set _ _ _ wsin, wsout, wpay, wimg, bnode, bct,
      below_set _ _ _ _ bsin ha.1, bsout, bpay, bimg⟩
  case pay =>
    exact ⟨wnode, wct, wsin, wsout, wf_set _ _ _ wpay, wimg, bnode, bct, bsin, bsout,
      below_set _ _ _ _ bpay ha.1, bimg⟩
  case img =>
    exact ⟨wnode, wct, wsin, wsout, wpay, wf_set _ _ _ wimg, bnode, bct, bsin, bsout, bpay,
      below_set _ _ _ _ bimg ha.1⟩

theorem Inv.tableOk {s : State} (h : Inv p s) : tableOk s.ft = true := by
  have hfits := h.table
  simp only [tableFits, Bool.and_eq_true] at hfits
  obtain ⟨⟨hok, -⟩, -⟩ := hfits
  exact hok

/-- R31: an entry is overwritten, or a new one is made where the table is not full. -/
theorem length_tableSet_le {t : Table} {x : Sym} {cap : Nat} (c : Count) (hs : tableSorted t = true)
    (hcap : t.length ≤ cap) (hroom : (tableGet t x).isSome = true ∨ t.length ≠ cap) :
    (tableSet t x c).length ≤ cap := by
  obtain ⟨hgrow, hkeep⟩ := length_tableSet t x c
  rcases hroom with hin | hfull
  · rwa [hkeep hs hin]
  · omega

theorem inv_hostFtSet {n c : Nat} {s : State} (h : Inv p s) (ha : ftAccepts p n c s = true) :
    Inv p (hostFtSet p n c s) := by
  rw [ftAccepts_iff] at ha
  rw [hostFtSet, if_pos ha]
  obtain ⟨hscalar, -, hroom⟩ := ha
  exact inv_table h _ (tableOk_tableSet _ _ _ h.tableOk (isScalar_toNat_ofNat hscalar))
    (length_tableSet_le _ h.ftSorted h.ftLength.1 hroom)

theorem inv_hostFtDel {n : Nat} {s : State} (h : Inv p s) : Inv p (hostFtDel n s) := by
  rw [hostFtDel]
  split
  · exact inv_table h _ (tableOk_tableDel _ _ h.tableOk) ((length_tableDel _ _).trans h.ftLength.1)
  · exact h

/-- Every event keeps the invariant. -/
theorem inv_perform {e : PortEvent} {s t : State} (h : Inv p s) (ht : perform p e s = .next t) : Inv p t := by
  cases ha : accepted p e s with
  | false =>
    rw [perform_refused ha] at ht
    cases ht
    exact h.refuse.resp _
  | true =>
    cases e with
    | readCsr n | ftGet n | read sp i =>
      obtain ⟨r, hr⟩ := perform_accepted_read rfl ha
      cases (hr s.resp).symm.trans ht
      exact h.resp r
    | writeCsr n v =>
      by_cases hn : n = 0
      · subst hn
        exact inv_writeCmd h ht
      · rw [perform_writeCsr_of_ne_cmd v s hn] at ht
        cases ht
        exact inv_hostWriteReg h hn ha
    | ftSet n c => cases ht; exact inv_hostFtSet h ha
    | ftDel n => cases ht; exact inv_hostFtDel h
    | write sp i v => cases ht; exact inv_hostWrite h ha
    | reset => cases ht; exact inv_applyReset h

theorem inv_stepOn {s t : State} (h : Inv p s) (ht : stepOn p s = .next t) : Inv p t := by
  cases hin : s.input with
  | none =>
    cases (stepOn_idle hin).symm.trans ht
    exact h
  | some e =>
    rw [stepOn_event hin] at ht
    exact inv_perform (h.input none) ht

/-! ## The step -/

theorem stepOn_answers (s : State) : ∃ t, stepOn p s = .next t ∧ t.input = none := by
  cases hin : s.input with
  | none => exact ⟨s, stepOn_idle hin, hin⟩
  | some e =>
    rw [stepOn_event hin]
    exact perform_answers e { s with input := none }

end MemoryRules

/-! ## The statements -/

/-- Settles O13: each event keeps the invariant, by cases on whether it is accepted and on its kind. -/
theorem invKeptByEveryStep : Obligations.InvKeptByEveryStep :=
  ⟨fun _ _ _ => inv_stepOn, fun _ _ => inv_stepOn⟩

/-- Settles O5: an idle step leaves the state as it is, and every event is answered. -/
theorem everyStepAnswers : Obligations.EveryStepAnswers :=
  fun _ s => ⟨stepOn_answers s, stepOn_answers s, fun hin => ⟨stepOn_idle hin, stepOn_idle hin⟩⟩

/-- Settles O9: field by field over the states each command can answer. -/
theorem commandFrames : Obligations.CommandFrames := by
  intro p i s t h
  cases i with
  | nop => cases h; simp
  | build => obtain ⟨f, -, rfl⟩ | ⟨nodes, -, rfl⟩ := build_answer h <;> simp
  | assign => obtain ⟨f, -, rfl⟩ | ⟨es, -, rfl⟩ := assign_answer h <;> simp
  | encode => obtain ⟨f, -, rfl⟩ | ⟨r, -, rfl⟩ := encode_answer h <;> simp
  | wrhdr => obtain rfl | rfl := wrhdr_answer h <;> simp
  | rdhdr => obtain ⟨f, -, rfl⟩ | ⟨r, -, rfl⟩ := rdhdr_answer h <;> simp
  | decode => obtain ⟨f, -, rfl⟩ | ⟨nodes, -, ⟨f, -, rfl⟩ | ⟨out, -, rfl⟩⟩ := decode_answer h <;> simp
  | clr => cases h; simp

/-- Settles O17: the rule for a refused access. -/
theorem refusedAccessSetsOnlyHosterr : Obligations.RefusedAccessSetsOnlyHosterr :=
  fun _ _ _ => perform_refused

/-- Settles O19: a read, accepted or refused, is so again in the state it leaves, and answers the same. -/
theorem readsHaveNoSideEffect : Obligations.ReadsHaveNoSideEffect := by
  intro p e s t hread ht
  cases ha : accepted p e s with
  | true =>
    obtain ⟨r, hr⟩ := perform_accepted_read hread ha
    cases (hr s.resp).symm.trans ht
    exact ⟨rfl, fun _ => rfl, hr r⟩
  | false =>
    cases (perform_refused ha).symm.trans ht
    refine ⟨rfl, nofun, ?_⟩
    rw [perform_refused ((accepted_answered e s _ _).trans ha), refusedResponse_repeats]

/-- Settles O21: the rule for the write of each space, and reading after a write. -/
theorem elementWrites : Obligations.ElementWrites := by
  intro p s i v hm
  obtain ⟨-, -, hsin, -, hpay, himg, -⟩ := (memoriesOk_iff s).1 hm
  exact ⟨fun hi hv => ⟨_, perform_write_sin s hi hv, rfl, fun j => get_set _ _ _ _ _ hsin⟩,
    fun hi hv => ⟨_, perform_write_pay s hi hv, rfl, fun j => get_set _ _ _ _ _ hpay⟩,
    fun hi hv => ⟨_, perform_write_img s hi hv, rfl, fun j => get_set _ _ _ _ _ himg⟩⟩

end Sys2Proof.Machine
end

section
/-! PROOFS. The statements of 30_encoding.md: the decoder inverts the encoder (`decode_encode`,
`encodeWord_of_decodeWord`), and one rule says which words it rejects. -/

namespace Sys2Proof.Machine

/-! ## Words that are no command -/

/-- R83: the reserved opcodes are the upper half of the sixteen. -/
theorem decodeOpcode_error_iff (op : BitVec 4) : (∃ e, decodeOpcode op = .error e) ↔ 8 ≤ op.toNat := by
  unfold decodeOpcode
  split
  case h_9 =>
    simp only [imp_false] at *
    have hreserved : 8 ≤ op.toNat := by omega
    exact iff_of_true ⟨_, rfl⟩ hreserved
  all_goals
    have hcommand : ¬ 8 ≤ op.toNat := by omega
    exact iff_of_false nofun hcommand

/-- R89: the field is looked at first, and the opcode only when the field is zero. -/
theorem decodeWord_error_iff (w : Word) : (∃ e, decodeWord w = .error e) ↔
    (w.extractLsb' 4 28 ≠ 0#28 ∨ 8 ≤ (w.extractLsb' 0 4).toNat) := by
  by_cases hz : w.extractLsb' 4 28 = 0#28
  · rw [decodeWord, if_pos hz, decodeOpcode_error_iff]
    exact (or_iff_right (not_not_intro hz)).symm
  · rw [decodeWord, if_neg hz]
    exact iff_of_true ⟨_, rfl⟩ (.inl hz)

/-! ## The statements -/

/-- Settles O1: `decode_encode` and its converse, and the rule for the words that are no command. -/
theorem decodeIffEncode : Obligations.DecodeIffEncode :=
  ⟨fun _ i => ⟨encodeWord_of_decodeWord, fun hw => hw ▸ decode_encode i⟩, decodeWord_error_iff⟩

/-- Settles O2: the eight words are the encodings of their commands; the decoder runs on the three illegal ones. -/
theorem wordsOfTheTable : Obligations.WordsOfTheTable :=
  ⟨decode_encode .nop, decode_encode .build, decode_encode .assign, decode_encode .encode, decode_encode .wrhdr,
    decode_encode .rdhdr, decode_encode .decode, decode_encode .clr, by decide, by decide, by decide⟩

end Sys2Proof.Machine
end

section
/-! PROOFS. The statements of 40_tree_builder.md: what BUILD stores (`buildTree`'s nodes, read back exactly), and from
that the order of the merges and the weights of a valid tree, which is the one BUILD gives again. -/

namespace Sys2Proof.Machine

section TreeRules

variable {p : Params}

/-! ## BuildTree -/

/-- R105: BuildTree fails on the empty table only. -/
theorem buildTree_error_iff (t : Table) : (∃ f, buildTree t = .error f) ↔ t = [] := by
  cases t <;> simp [buildTree]

/-- Every node index fits IDX_W (00_scope.md R5). -/
theorem Inv.nodes_length_lt {s : State} {nodes : List TreeNode} (h : Inv p s) (hb : buildTree s.ft = .ok nodes) :
    nodes.length < 2 ^ 22 := by
  have hlen := (buildTree_length _ _ hb).1
  have hcap := h.ftLength
  omega

theorem leafNodes_getElem? (t : Table) (i : Nat) (hi : i < t.length) :
    (leafNodes t)[i]? = some (.leaf (t[i]).1 ((t[i]).2.setWidth 85)) := by
  simp [leafNodes, hi]

/-! ## The state a successful BUILD leaves -/

theorem nodeAt_loadTree_of_length_le {nodes : List TreeNode} {i : Nat} (s : State) (hi : nodes.length ≤ i) :
    nodeAt (loadTree nodes s) i = nodeAt s i := by
  rw [nodeAt, loadTree_node, get_writeAll, dif_neg (Nat.not_lt.2 hi), nodeAt]

/-- What a successful BUILD leaves in `NODE[0 .. NODE_CNT)` is what BuildTree gives. -/
theorem buildTree_of_build {s t : State} (h : Inv p s) (hrun : exec .build s = .next t) (hok : t.error = false) :
    buildTree s.ft = .ok (nodeElems t) := by
  obtain ⟨f, -, rfl⟩ | ⟨nodes, hb, rfl⟩ := build_answer (p := p) hrun
  · cases hok
  · rw [hb]
    exact congrArg Except.ok (nodeElems_loadTree nodes _ (h.nodes_length_lt hb)).symm

/-- BUILD on a valid tree gives the same tree again. -/
theorem validTree_rebuilt {s : State} (h : Inv p s) (hv : s.treeValid = true) :
    ∃ t, exec .build s = .next t ∧ t.error = false ∧ nodeElems t = nodeElems s := by
  obtain ⟨nodes, -, hb, -, -, hnodes, -⟩ := h.treeAt hv
  obtain ⟨nodes', hb', hrun, -⟩ := build_ok h (buildTree_length _ _ hb).2
  refine ⟨_, hrun, rfl, ?_⟩
  have hbuilt := buildTree_of_build h hrun rfl
  rw [hb] at hbuilt
  rw [hnodes, Except.ok.inj hbuilt]

/-! ## Weights -/

/-- The first component of a node's key is its weight (R101). -/
theorem keyOf_nodeElems_weight (n : Nat) {s : State} {i : Nat} (hi : i < s.nodeCnt.toNat) :
    (keyOf n (nodeElems s) i).1 = (nodeAt s i).weight.toNat := by
  rw [keyOf, nodeElems_get s i hi]
  cases nodeAt s i <;> rfl

/-- R107: WEIGHT_W holds the sum of all counts. -/
theorem countSum_lt {t : Table} (ht : t.length ≤ 1112064) : (t.map (fun e => e.2.toNat)).sum < 2 ^ 85 := by
  have hsum := countSum_le t
  omega

theorem sumN_of_leaves_perm {tr : HTree} {t : Table}
    (h : tr.leaves.Perm (t.map fun e => (e.1, e.2.setWidth 85))) :
    tr.sumN = (t.map (fun e => e.2.toNat)).sum := by
  have hcount : ∀ c : Count, (c.setWidth 85).toNat = c.toNat := fun _ => BitVec.toNat_setWidth_of_le (by decide)
  rw [HTree.sumN, (h.map _).sum_eq]
  simp only [List.map_map, Function.comp_def, hcount]

end TreeRules

/-! ## The statements -/

/-- Settles O29: the merge loop, started on the leaves of a canonical table. -/
theorem buildMergesTheTwoSmallest : Obligations.BuildMergesTheTwoSmallest := by
  intro p s t h hrun hok n nodes
  have hb := buildTree_of_build h hrun hok
  obtain ⟨hlen, hne⟩ := buildTree_length _ _ hb
  obtain ⟨hfit, hcap⟩ := h.ftLength
  have hnodes : nodes = leafNodes s.ft ++ mergeLoop n n 0 (initialQueue s.ft) :=
    Except.ok.inj (hb.symm.trans (buildTree_ok _ hne))
  refine ⟨hlen, h.ftSorted, fun i hi => ?_, fun k hk => ?_⟩
  · rw [hnodes, List.getElem?_append_left (by simpa using hi), leafNodes_getElem? _ _ hi]
  · rw [hnodes]
    exact mergeLoop_order n n 0 (leafNodes s.ft) (initialQueue s.ft) (by simp [n]) (by simp; omega) (by simp [n])
      (loopInv_init _ h.ftSorted (by omega)) k (Nat.zero_le k) (by simpa [n] using hk)

/-- Settles O26: the state of `build_ok`, with NODE read back. -/
theorem buildCompletes : Obligations.BuildCompletes := by
  intro p s h hne
  obtain ⟨nodes, hb, hrun, hlen, hlt⟩ := build_ok h hne
  refine ⟨_, nodes, hrun, hb, rfl, ?_, ?_, nodeElems_loadTree _ _ hlt, fun i hi => ?_⟩
  · rw [complete_nodeCnt, loadTree_nodeCnt, BitVec.toNat_ofNat, Nat.mod_eq_of_lt hlt, hlen]
  · rw [complete_root, loadTree_root, BitVec.toNat_ofNat, Nat.mod_eq_of_lt (by omega)]
    omega
  · exact nodeAt_loadTree_of_length_le _ (hlen.trans_le hi)

/-- Settles O27: the two answers of BUILD, which the table tells apart. -/
theorem buildFailsOnlyOnEmptyTable : Obligations.BuildFailsOnlyOnEmptyTable := by
  intro s t hrun
  obtain ⟨f, hb, rfl⟩ | ⟨nodes, hb, rfl⟩ := build_answer (p := Config.params) hrun
  · obtain rfl := codes_build _ _ hb
    have hft := (buildTree_error_iff _).1 ⟨_, hb⟩
    exact ⟨iff_of_true rfl hft, fun _ => rfl⟩
  · have hne := (buildTree_length _ _ hb).2
    exact ⟨iff_of_false Bool.false_ne_true hne, fun hft => absurd hft hne⟩

/-- Settles O30: an Internal's weight by `buildMergesTheTwoSmallest`, the root's from the sum over the leaves. -/
theorem builtTreeWeighsItsTable : Obligations.BuiltTreeWeighsItsTable := by
  intro p s h hv
  obtain ⟨nodes, tr, hb, hcnt, -, hnodes, ht, hleaves, hsum⟩ := h.treeAt hv
  have hlen := (buildTree_length _ _ hb).1
  obtain ⟨hfit, hcap⟩ := h.ftLength
  refine ⟨⟨tr, ht, ?_, hleaves⟩, fun i w l r hi hnode => ?_, ?_⟩
  · rw [HTree.size_eq, hleaves.length_eq, List.length_map, hcnt, hlen]
  · obtain ⟨t, hrun, hok, helems⟩ := validTree_rebuilt h hv
    obtain ⟨-, -, hleaf, hmerge⟩ := buildMergesTheTwoSmallest p s t h hrun hok
    rw [helems] at hleaf hmerge
    have hget := nodeElems_get s i hi
    have hge : s.ft.length ≤ i := by
      by_contra hlt
      rw [hleaf i (Nat.not_le.1 hlt), hnode] at hget
      cases hget
    obtain ⟨k, rfl⟩ := Nat.exists_eq_add_of_le hge
    obtain ⟨w', l', r', hmade, hw, hl, hr, -⟩ := hmerge k (by omega)
    rw [hmade, hnode] at hget
    cases hget
    rw [hw, keyOf_nodeElems_weight _ (hl.1.trans hi), keyOf_nodeElems_weight _ (hr.1.trans hi)]
  · have hroot := sumN_of_leaves_perm hleaves
    rw [treeAt_weight ht, summed_toNat tr hsum (hroot ▸ countSum_lt (hfit.trans hcap)), hroot]

/-- Settles O32: canonical tables with the same lookups are equal, and so is what BuildTree gives. -/
theorem treeIsDeterminedByTheTable : Obligations.TreeIsDeterminedByTheTable := by
  intro p q s t s' t' hs ht hget hrun hrun'
  have hft := table_ext _ _ hs.ftSorted ht.ftSorted hget
  obtain ⟨f, hb, rfl⟩ | ⟨nodes, hb, rfl⟩ := build_answer (p := p) hrun
  · obtain ⟨f', hb', rfl⟩ | ⟨nodes', hb', -⟩ := build_answer (p := q) hrun'
    · cases (hft ▸ hb).symm.trans hb'
      exact ⟨rfl, rfl, rfl, rfl⟩
    · cases (hft ▸ hb).symm.trans hb'
  · obtain ⟨f', hb', -⟩ | ⟨nodes', hb', rfl⟩ := build_answer (p := q) hrun'
    · cases (hft ▸ hb).symm.trans hb'
    · cases (hft ▸ hb).symm.trans hb'
      have hnodes := nodeElems_loadTree nodes (invalidateTree s) (hs.nodes_length_lt hb)
      have hnodes' := nodeElems_loadTree nodes (invalidateTree t) (ht.nodes_length_lt hb')
      exact ⟨hnodes.trans hnodes'.symm, rfl, rfl, rfl⟩

/-- Settles O28: BuildTree gives the Leaf alone, and NODE holds it at 0. -/
theorem buildOfOneEntry : Obligations.BuildOfOneEntry := by
  intro s x c hft
  have hb : buildTree s.ft = .ok [.leaf x (c.setWidth 85)] := by rw [hft]; rfl
  refine ⟨complete (loadTree [.leaf x (c.setWidth 85)] (invalidateTree s)), ?_, rfl, rfl, rfl, rfl, ?_⟩
  · simp only [exec, execBuild, hb]
  · exact get_writeAll Config.freeNode s.node [.leaf x (c.setWidth 85)] 0

end Sys2Proof.Machine
end

section
/-! PROOFS. The statements of 41_code_assigner.md: what ASSIGN answers once `assignResult` is known, then the statements
from the laws of the paths of a tree and of the breadth-first loop. A successful ASSIGN leaves a valid code table, so
what holds of every valid one holds of its answer. -/

namespace Sys2Proof.Machine

section AssignRules

variable {p : Params}

/-! ## The result of AssignCodes -/

/-- R120: without a tree there is nothing to walk. -/
theorem assignResult_of_not_treeValid {s : State} (hv : s.treeValid = false) :
    assignResult s = .error .sequence := by
  simp [assignResult, hv]

/-- R122. -/
theorem assignResult_of_root_isLeaf {s : State} (hv : s.treeValid = true)
    (hleaf : (nodeAt s s.root.toNat).isLeaf = true) : assignResult s = .error .degenerateAlphabet := by
  simp [assignResult, assignCodes, hv, hleaf]

/-- R121: otherwise the loop runs from the root with the empty bit string. -/
theorem assignResult_ok_iff {s : State} {es : List CodeEntry} : assignResult s = .ok es ↔
    s.treeValid = true ∧ (nodeAt s s.root.toNat).isLeaf = false ∧
      bfs (nodeAt s) s.nodeCnt.toNat [(s.root.toNat, [])] = es := by
  cases hv : s.treeValid with
  | false => simp [assignResult_of_not_treeValid hv]
  | true =>
    cases hleaf : (nodeAt s s.root.toNat).isLeaf with
    | true => simp [assignResult_of_root_isLeaf hv hleaf]
    | false => simp [assignResult, assignCodes, hv, hleaf]

theorem assignResult_length {s : State} {es : List CodeEntry} (h : Inv p s) (hr : assignResult s = .ok es) :
    es.length = s.ft.length := by
  have hv := (assignResult_ok_iff.1 hr).1
  rw [assignResult, if_pos hv] at hr
  exact assign_length h hv es hr

/-- R123: every code table fits CT_LEN. -/
theorem assignResult_length_lt {s : State} {es : List CodeEntry} (h : Inv p s) (hr : assignResult s = .ok es) :
    es.length < 2 ^ 32 := by
  have hlen := assignResult_length h hr
  have hcap := h.ftLength
  omega

/-! ## The state ASSIGN leaves -/

theorem assign_of_ok {s : State} {es : List CodeEntry} (hr : assignResult s = .ok es) :
    exec .assign s = .next (complete (loadCodes es (invalidateCt s))) := by
  simp only [exec, execAssign, hr]

theorem assign_of_error {s : State} {f : Failure} (hr : assignResult s = .error f) :
    exec .assign s = .next (raise f (spoilCt (invalidateCt s))) := by
  simp only [exec, execAssign, hr]

theorem ctAt_loadCodes_of_length_le {es : List CodeEntry} {i : Nat} (s : State) (hi : es.length ≤ i) :
    ctAt (loadCodes es s) i = ctAt s i := by
  rw [ctAt, loadCodes_ct, get_writeAll, dif_neg (Nat.not_lt.2 hi), ctAt]

/-- What a successful ASSIGN leaves in `CT[0 .. CT_LEN)` is what AssignCodes gives. -/
theorem assignResult_of_assign {s t : State} (h : Inv p s) (hrun : exec .assign s = .next t) (hok : t.error = false) :
    assignResult s = .ok (ctElems t) := by
  obtain ⟨f, -, rfl⟩ | ⟨es, hr, rfl⟩ := assign_answer (p := p) hrun
  · cases hok
  · rw [hr]
    exact congrArg Except.ok (ctElems_loadCodes es _ (assignResult_length_lt h hr)).symm

/-! ## A valid code table -/

/-- R124(f): the lengths are the depths of the leaves, where each entry has the length of its code. -/
theorem lens_perm_depths {es : List CodeEntry} {tr : HTree}
    (hpaths : (es.map (fun e => (e.sym, e.code))).Perm (tr.paths [])) (hlen : ∀ e ∈ es, e.len = e.code.length) :
    (es.map CodeEntry.len).Perm ((tr.paths []).map (fun e => e.2.length)) := by
  have hcodes := hpaths.map (fun e => e.2.length)
  rw [List.map_map] at hcodes
  rwa [List.map_congr_left hlen]

/-- R124(a). -/
theorem codes_prefixFree {es : List CodeEntry} {tr : HTree}
    (hpaths : (es.map (fun e => (e.sym, e.code))).Perm (tr.paths [])) :
    es.Pairwise (fun a b => ¬ a.code <+: b.code ∧ ¬ b.code <+: a.code) :=
  List.pairwise_map.1 ((hpaths.pairwise_iff fun hab => hab.symm).2 tr.paths_prefixFree)

/-- R124(e). -/
theorem codes_kraft {es : List CodeEntry} {tr : HTree}
    (hlens : (es.map CodeEntry.len).Perm ((tr.paths []).map (fun e => e.2.length))) :
    (es.map (fun e => (1 / 2 : Rat) ^ e.len)).sum = 1 := by
  have hsum := (hlens.map fun n => (1 / 2 : Rat) ^ n).sum_eq
  rw [List.map_map, List.map_map] at hsum
  exact hsum.trans tr.paths_kraft

/-- R124(c): the symbols of the paths are those of the leaves, and these are the entries of the table. -/
theorem codes_syms_perm {es : List CodeEntry} {tr : HTree} {t : Table}
    (hpaths : (es.map (fun e => (e.sym, e.code))).Perm (tr.paths []))
    (hleaves : tr.leaves.Perm (t.map fun e => (e.1, e.2.setWidth 85))) :
    (es.map CodeEntry.sym).Perm (t.map Prod.fst) := by
  have hsyms := (hpaths.map Prod.fst).trans (tr.paths_syms [] ▸ hleaves.map Prod.fst)
  rwa [List.map_map, List.map_map] at hsyms

end AssignRules

/-! ## The statements -/

/-- Settles O33: AssignCodes succeeds, since the root is no Leaf, and leaves a valid code table (`valid_codes`). -/
theorem assignCompletes : Obligations.AssignCompletes := by
  intro p s h hv hn
  have hroot : (nodeAt s s.root.toNat).isLeaf = false := by
    rw [Bool.eq_false_iff, Ne, root_leaf h hv]
    omega
  have hr := assignResult_ok_iff.2 ⟨hv, hroot, rfl⟩
  have hlen := assignResult_length h hr
  obtain ⟨tr, ht, hpaths, hcode, -⟩ := valid_codes (inv_loadCodes h _ hr) rfl
  refine ⟨_, tr, assign_of_ok hr, rfl, ?_, ht, hpaths, hcode, fun i hi => ?_⟩
  · rw [complete_ctLen, loadCodes_ctLen, BitVec.toNat_ofNat, Nat.mod_eq_of_lt (assignResult_length_lt h hr), hlen]
  · exact ctAt_loadCodes_of_length_le _ (hlen.trans_le hi)

/-- Settles O35: the loop starts on one level, which holds the root alone (`bfs_sorted`). -/
theorem assignIsBreadthFirst : Obligations.AssignIsBreadthFirst := by
  intro p s t h hrun hok
  obtain ⟨-, -, hbfs⟩ := assignResult_ok_iff.1 (assignResult_of_assign h hrun hok)
  rw [← hbfs]
  exact bfs_sorted (nodeAt s) _ [(s.root.toNat, [])] [] 0 (by simp) (by simp) (by simp)

/-- Settles O36: each clause from the same fact about the paths of a tree whose root is an Internal (`valid_codes`). -/
theorem codesArePrefixFree : Obligations.CodesArePrefixFree := by
  intro p s h hc
  obtain ⟨tr, ht, hpaths, hcode, ⟨w, l, r, rfl⟩, hleaves, -⟩ := valid_codes h hc
  have hlens := lens_perm_depths hpaths hcode
  have hsyms := codes_syms_perm hpaths hleaves
  refine ⟨codes_prefixFree hpaths, fun e he => ?_, hsyms, hsyms.nodup_iff.2 (sorted_nodup _ h.ftSorted),
    codes_kraft hlens, _, ht, hlens⟩
  have hpath := hpaths.subset (List.mem_map_of_mem he)
  refine ⟨HTree.paths_nonempty w l r _ hpath, hcode e he, ?_⟩
  have hshort := HTree.paths_short _ _ hpath
  rw [hleaves.length_eq, List.length_map] at hshort
  rw [hcode e he]
  exact Nat.le_sub_one_of_lt hshort

/-- Settles O34: which error AssignCodes gives, and what `raise` leaves. -/
theorem assignFails : Obligations.AssignFails :=
  fun _ => ⟨fun hv => ⟨_, assign_of_error (assignResult_of_not_treeValid hv), rfl⟩,
    fun hv hleaf => ⟨_, assign_of_error (assignResult_of_root_isLeaf hv hleaf), rfl⟩⟩

end Sys2Proof.Machine
end

section
/-! PROOFS. The statements of 42_bitpacker_encoder.md: ENCODE's answer is what Pack gives (`encodeResult_of_ctValid`).
`pack_known` and `pack_unknown` say when that is a payload and which error it is otherwise; `encode_payload` says what
PAY, PAY_LEN and PAD hold after every success. -/

namespace Sys2Proof.Machine

section EncodeRules

variable {p : Params}

/-! ## The result of Pack -/

theorem encodeResult_of_not_ctValid {s : State} (hc : s.ctValid = false) : encodeResult p s = .error .sequence := by
  simp [encodeResult, hc]

theorem encodeResult_of_ctValid {s : State} (hc : s.ctValid = true) :
    encodeResult p s = pack p.maxPay.toNat (ctElems s) (sinElems s) := if_pos hc

/-- R135: Sequence is tested first, so a success is a success of Pack. -/
theorem pack_of_encodeResult {s : State} {r : List Byte × BitVec 3} (hr : encodeResult p s = .ok r) :
    pack p.maxPay.toNat (ctElems s) (sinElems s) = .ok r := by
  cases hc : s.ctValid with
  | false => cases (encodeResult_of_not_ctValid hc).symm.trans hr
  | true => rwa [encodeResult_of_ctValid hc] at hr

/-! ## The state ENCODE leaves -/

/-- R136: what a failed ENCODE leaves; on the instance of Config, `exec` leaves it too. -/
theorem encode_failed {s : State} {f : Failure} (hr : encodeResult p s = .error f) :
    ∃ t, execOn p .encode s = .next t ∧ (p = Config.params → exec .encode s = .next t) ∧
      t = failed f.code f.info { s with pay := t.pay, payLen := 0#32, pad := 0#3 } :=
  ⟨_, encode_err s f hr, exec_of_execOn (encode_err s f hr), rfl⟩

/-- R131, R132, R136: after a success `PAY[0 .. PAY_LEN)` reads as the code bits and PAD zeros; PAY above is kept. -/
theorem encode_payload {s t : State} (hrun : execOn p .encode s = .next t) (hok : t.error = false) :
    t.pad.toNat = (8 - (codeBits (ctElems s) (sinElems s)).length % 8) % 8 ∧
    t.payLen.toNat = ((codeBits (ctElems s) (sinElems s)).length + 7) / 8 ∧
    bytesBits (payElems t) = codeBits (ctElems s) (sinElems s) ++ List.replicate t.pad.toNat false ∧
    ∀ i, t.payLen.toNat ≤ i → payAt t i = payAt s i := by
  obtain ⟨f, -, rfl⟩ | ⟨⟨bytes, pad⟩, hr, rfl⟩ := encode_answer hrun
  · cases hok
  · obtain ⟨-, hlen, hfit, hpad, hbits⟩ := pack_ok _ _ _ _ (pack_of_encodeResult hr)
    have hlt : bytes.length < 2 ^ 32 := hfit.trans_lt p.maxPay.isLt
    have hpayLen : (BitVec.ofNat 32 bytes.length).toNat = bytes.length :=
      (BitVec.toNat_ofNat _ _).trans (Nat.mod_eq_of_lt hlt)
    refine ⟨hpad, hpayLen.trans hlen, ?_, fun i hi => ?_⟩
    · rwa [payElems_write s _ bytes hlt rfl rfl]
    · exact (get_writeAll _ _ _ _).trans (dif_neg (Nat.not_lt.2 (hpayLen ▸ hi)))

/-! ## The last byte -/

theorem payElems_eq_append_last {s : State} (h : 1 ≤ s.payLen.toNat) :
    payElems s = s.pay.readAll Config.freePay (s.payLen.toNat - 1) ++ [payAt s (s.payLen.toNat - 1)] := by
  obtain ⟨n, hn⟩ := Nat.exists_eq_add_of_le' h
  rw [payElems, hn, Nat.add_sub_cancel, Memory.readAll, List.range_succ, List.map_append]
  rfl

end EncodeRules

/-! ## The statements -/

/-- Settles O37: Pack succeeds on known symbols with room (`pack_known`), and then `encode_payload`. -/
theorem encodeCompletes : Obligations.EncodeCompletes := by
  intro p s hc hk bits hfit
  obtain ⟨bytes, pad, hpack, -⟩ := (pack_known _ _ _ hk).1 hfit
  have hrun := encode_ok s _ ((encodeResult_of_ctValid hc).trans hpack)
  obtain ⟨hpad, hlen, hbits, hkept⟩ := encode_payload hrun rfl
  refine ⟨_, hrun, exec_of_execOn hrun, rfl, hpad, ?_, hbits, hkept⟩
  simp only [hlen, hpad, bits]
  omega

/-- Settles O38: which error Pack gives (`pack_unknown`, `pack_known`), and what `raise` leaves. -/
theorem encodeFails : Obligations.EncodeFails := by
  refine fun p s => ⟨fun hc => encode_failed (encodeResult_of_not_ctValid hc), ?_, ?_⟩
  · intro hc ss rest u hin hk hu
    have hr := (encodeResult_of_ctValid (p := p) hc).trans (hin ▸ pack_unknown _ _ ss rest u hk hu)
    split at hr
    next hdue => rw [if_pos hdue]; exact encode_failed hr
    next hdue => rw [if_neg hdue]; exact encode_failed hr
  · intro hc hk hfull
    exact encode_failed ((encodeResult_of_ctValid hc).trans ((pack_known _ _ _ hk).2 hfull))

/-- Settles O39: the bounds are arithmetic on PAD and PAY_LEN, and the filler ends the last byte (`bytesBits_last`). -/
theorem paddingBound : Obligations.PaddingBound := by
  intro p s t hrun hok
  obtain ⟨hpad, hlen, hbits, -⟩ := encode_payload hrun hok
  have hpadZero : t.pad = 0#3 ↔ t.pad.toNat = 0 := BitVec.toNat_inj.symm
  have hlenZero : t.payLen = 0#32 ↔ t.payLen.toNat = 0 := BitVec.toNat_inj.symm
  simp only [ne_eq, hpadZero, hlenZero]
  refine ⟨by omega, by omega, by omega, by omega, by omega, fun k hk => ?_⟩
  have hbyte : 1 ≤ t.payLen.toNat := by omega
  rw [payElems_eq_append_last hbyte] at hbits
  exact bytesBits_last _ _ _ _ hbits (by omega) k hk

end Sys2Proof.Machine
end

section
/-! PROOFS. The statements of 43_header_codec.md: the encodings, then the scanner in both directions
(`scanHeader_looseHeader`, `looseHeader_of_scanHeader`) and where it fails, then what WRHDR leaves (`wrhdr_image`) and
what the steps of RDHDR give. The laws of Header and Scan say what each part of the scanner reads. -/

namespace Sys2Proof.Machine

section HeaderRules

variable {p : Params}

/-! ## Encodings -/

theorem escapedSymbol_mem {e : Byte} {s : Sym} (h : escapedSymbol e = some s) :
    s ∈ [0x0D#21, 0x09#21, 0x0A#21, 0x5C#21, 0x27#21, 0x22#21, 0x00#21] := by
  unfold escapedSymbol at h
  split at h <;> cases h <;> decide

theorem render_of_not_escaped {s : Sym} (hs : s ∉ [0x0D#21, 0x09#21, 0x0A#21, 0x5C#21, 0x27#21, 0x22#21, 0x00#21]) :
    render s = utf8 s := by
  cases he : escapeLetter s with
  | none => rw [render, he]
  | some e => exact absurd (escapedSymbol_mem (escapeLetter_some s e he)) hs

@[simp] theorem toNat_contByte (x : BitVec 6) : (contByte x).toNat = 0x80 + x.toNat := by
  simp only [contByte, toNat_append, BitVec.toNat_ofNat]
  rfl

/-- A run of `k` bits of a symbol, as it stands in a byte of its UTF-8 form. -/
theorem toNat_symBits (s : Sym) (i k : Nat) : (s.extractLsb' i k).toNat = s.toNat / 2 ^ i % 2 ^ k := by
  rw [BitVec.extractLsb'_toNat, Nat.shiftRight_eq_div_pow]

theorem map_toNat_utf8_one {s : Sym} (h : s.toNat < 0x80) : (utf8 s).map BitVec.toNat = [s.toNat] := by
  rw [utf8, if_pos h]
  simp only [List.map_cons, List.map_nil, toNat_append, toNat_symBits, BitVec.toNat_ofNat, List.cons.injEq, and_true]
  omega

theorem map_toNat_utf8_two {s : Sym} (h : 0x80 ≤ s.toNat) (h' : s.toNat < 0x800) :
    (utf8 s).map BitVec.toNat = [0xC0 + s.toNat / 2 ^ 6, 0x80 + s.toNat % 2 ^ 6] := by
  rw [utf8, if_neg (by omega), if_pos h']
  simp only [List.map_cons, List.map_nil, toNat_append, toNat_contByte, toNat_symBits, BitVec.toNat_ofNat,
    List.cons.injEq, and_true]
  omega

theorem map_toNat_utf8_three {s : Sym} (h : 0x800 ≤ s.toNat) (h' : s.toNat < 0x10000) : (utf8 s).map BitVec.toNat =
    [0xE0 + s.toNat / 2 ^ 12, 0x80 + s.toNat / 2 ^ 6 % 2 ^ 6, 0x80 + s.toNat % 2 ^ 6] := by
  rw [utf8, if_neg (by omega), if_neg (by omega), if_pos h']
  simp only [List.map_cons, List.map_nil, toNat_append, toNat_contByte, toNat_symBits, BitVec.toNat_ofNat,
    List.cons.injEq, and_true, true_and]
  omega

theorem map_toNat_utf8_four {s : Sym} (h : 0x10000 ≤ s.toNat) : (utf8 s).map BitVec.toNat =
    [0xF0 + s.toNat / 2 ^ 18, 0x80 + s.toNat / 2 ^ 12 % 2 ^ 6, 0x80 + s.toNat / 2 ^ 6 % 2 ^ 6,
      0x80 + s.toNat % 2 ^ 6] := by
  rw [utf8, if_neg (by omega), if_neg (by omega), if_neg (by omega)]
  simp only [List.map_cons, List.map_nil, toNat_append, toNat_contByte, toNat_symBits, BitVec.toNat_ofNat,
    List.cons.injEq, and_true, true_and]
  omega

theorem isDigits_decCount (c : Count) :
    (decCount c).all (fun b => decide (0x30 ≤ b.toNat) && decide (b.toNat ≤ 0x39)) = true := by
  simpa [decCount] using decDigits_bytes 20 c.toNat

theorem toNat_lt_ten_pow (c : Count) : c.toNat < 10 ^ 20 := c.isLt.trans (by norm_num)

theorem fieldValue_decCount (c : Count) : fieldValue (decCount c) = c.toNat := by
  have hread := decimalValue_fieldValue (decCount c) 0 (isDigits_decCount c)
  rw [decCount, decimalValue_decDigits 20 _ (toNat_lt_ten_pow c) (by decide), Nat.zero_mul, Nat.zero_add] at hread
  exact (Option.some.inj hread).symm

theorem fieldOk_decCount (c : Count) : fieldOk (decCount c) = true := by
  have hne : (decCount c).isEmpty = false := List.isEmpty_eq_false_iff.2 (decDigits_ne_nil 20 c.toNat (by decide))
  rw [fieldOk, hne, isDigits_decCount, fieldValue_decCount]
  simpa using c.isLt

theorem headerText_eq_looseHeader (t : Table) (pad : BitVec 3) :
    headerText t pad = looseHeader (t.map (fun e => (e.1, decCount e.2))) pad := by
  rw [headerText, looseHeader, entriesText_loose, List.map_map]
  rfl

/-- R153: the padding digit is no LF. -/
theorem padDigit_ne_lf : ∀ pad : BitVec 3, BitVec.ofNat 8 (0x30 + pad.toNat) ≠ 0x0A#8 := by decide

theorem count_lf_headerText (t : Table) (pad : BitVec 3) : (headerText t pad).count 0x0A#8 = 1 := by
  simp [headerText, List.count_eq_zero_of_not_mem (lf_entries t), padDigit_ne_lf]

/-- R151: a closed count field is read if it is legal, and is InvalidHeaderValue otherwise. -/
theorem scanCount_closed {f r : List Byte} {b : Byte} (hf : ∀ x ∈ f, x ≠ 0x2C#8 ∧ x ≠ 0x7D#8)
    (hb : b = 0x2C#8 ∨ b = 0x7D#8) : scanCount (f ++ b :: r) =
      if fieldOk f then .ok (BitVec.ofNat 64 (fieldValue f), b :: r) else .error .invalidHeaderValue := by
  cases hok : fieldOk f with
  | true => exact scanCount_legal f r b hf hb hok
  | false => exact scanCount_illegal f r b hf hb hok

theorem scanCount_unclosed {f : List Byte} (hf : ∀ x ∈ f, x ≠ 0x2C#8 ∧ x ≠ 0x7D#8) :
    scanCount f = .error .invalidHeader := by
  rw [scanCount, splitField_none f hf]

/-! ## What the scanner accepts -/

theorem foldl_setEntry (es : List LooseEntry) : es.foldl setEntry [] = entriesTable es := rfl

theorem length_entriesTable {m : Nat} {es : List LooseEntry} (hf : Fresh m [] es) :
    (entriesTable es).length = es.length :=
  (foldl_length es m [] (Nat.zero_le _) hf).trans (Nat.zero_add _)

/-- R149: what the list was, up to the padding segment. -/
theorem scanList_ok {m : Nat} {h r : List Byte} {t : Table} (e : scanList m h = .ok (t, r)) :
    ∃ es : List LooseEntry,
      h = 0x7B#8 :: (List.intercalate [0x2C#8, 0x20#8] (es.map looseEntryText) ++ 0x7D#8 :: r) ∧
      Fresh m [] es ∧ t = entriesTable es := by
  unfold scanList at e
  split at e
  next => cases e
  next => cases e
  next b tl hx =>
    rw [expect_ok _ _ _ hx]
    split at e
    next hb =>
      cases e
      exact ⟨[], by simp [hb], (entriesOk_iff m []).1 ⟨rfl, Nat.zero_le _⟩, rfl⟩
    next =>
      obtain ⟨es, -, htext, hfresh, htable⟩ := scanEntries_inv _ _ _ _ _ _ (Nat.zero_le _) e
      exact ⟨es, by rw [htext], hfresh, htable⟩

/-- R149: entries in any order are read up to the closing brace. -/
theorem scanList_entries {m : Nat} {es : List LooseEntry} (r : List Byte) (hf : Fresh m [] es) :
    scanList m (0x7B#8 :: (List.intercalate [0x2C#8, 0x20#8] (es.map looseEntryText) ++ 0x7D#8 :: r)) =
      .ok (entriesTable es, r) := by
  cases es with
  | nil => simp [scanList, expect, List.intercalate, entriesTable]
  | cons e es =>
    obtain ⟨tl, htl⟩ := looseText_head e es
    have hfuel : (e :: es).length ≤ (0x27#8 :: tl ++ 0x7D#8 :: r).length :=
      (htl ▸ looseText_length (e :: es)).trans (List.length_append ▸ Nat.le_add_right _ _)
    have hread := scanEntries_fwd m _ [] (e :: es) r (Nat.zero_le _) (List.cons_ne_nil _ _) hfuel hf
    rw [htl] at hread ⊢
    simp only [scanList, expect, if_true, List.cons_append] at hread ⊢
    rw [if_neg (by decide), hread, foldl_setEntry]

/-- The grammar's frame: `{`, the entries, `}`, the padding segment. -/
theorem looseHeader_eq (es : List LooseEntry) (pad : BitVec 3) :
    looseHeader es pad = 0x7B#8 :: (List.intercalate [0x2C#8, 0x20#8] (es.map looseEntryText) ++
      0x7D#8 :: [0x3A#8, 0x3A#8, BitVec.ofNat 8 (0x30 + pad.toNat), 0x0A#8]) := by
  simp [looseHeader]

theorem scanHeader_looseHeader {m : Nat} {es : List LooseEntry} (pad : BitVec 3) (hf : Fresh m [] es) :
    scanHeader m (looseHeader es pad) = .ok (entriesTable es, pad) := by
  rw [looseHeader_eq, scanHeader, scanList_entries _ hf]
  simp only [bind, Except.bind, scanTail_fwd]

theorem looseHeader_of_scanHeader {m : Nat} {h : List Byte} {t : Table} {pad : BitVec 3}
    (e : scanHeader m h = .ok (t, pad)) :
    ∃ es : List LooseEntry, h = looseHeader es pad ∧ Fresh m [] es ∧ t = entriesTable es := by
  obtain ⟨⟨t', r⟩, hlist, e⟩ := bind_ok e
  obtain ⟨pad', htail, e⟩ := bind_ok e
  cases e
  obtain ⟨es, htext, hfresh, htable⟩ := scanList_ok hlist
  exact ⟨es, by rw [htext, scanTail_ok _ _ htail, looseHeader_eq], hfresh, htable⟩

/-! ## What the scanner rejects -/

theorem scanHeader_badCount_iff (m : Nat) (h : List Byte) : scanHeader m h = .error .invalidHeaderValue ↔
    ∃ (es : List LooseEntry) (x : Sym) (f : List Byte) (b : Byte) (r : List Byte),
      h = textBefore es ++ looseEntryText (x, f) ++ b :: r ∧ Fresh m [] es ∧
      isScalar x.toNat = true ∧ fieldBytes f = true ∧ (b = 0x2C#8 ∨ b = 0x7D#8) ∧ fieldOk f = false := by
  constructor
  · intro e
    obtain he | ⟨es, h', rfl, hfresh, he⟩ := scanHeader_err _ _ _ e
    · cases he
    · obtain ⟨x, f, b, r, rfl, hlegal⟩ := scanEntry_badCount _ _ _ he
      exact ⟨es, x, f, b, r, (List.append_assoc _ _ _).symm, hfresh, hlegal⟩
  · rintro ⟨es, x, f, b, r, rfl, hfresh, hx, hf, hb, hbad⟩
    refine scanHeader_fails m es x f (b :: r) _ hfresh ?_
    rw [scanEntry_upToCount _ _ _ _ _ hx, scanCount_illegal f r b ((fieldBytes_iff f).1 hf) hb hbad]
    rfl

theorem scanEntry_legal_full {m : Nat} {t : Table} {e : LooseEntry} {b : Byte} {r : List Byte}
    (hs : isScalar e.1.toNat = true) (hf : fieldOk e.2 = true) (hb : b = 0x2C#8 ∨ b = 0x7D#8)
    (hnew : tableGet t e.1 = none) (hfull : t.length = m) :
    scanEntry m t (looseEntryText e ++ b :: r) = .error .capacity := by
  rw [scanEntry_upToCount m t e.1 e.2 (b :: r) hs, scanCount_legal e.2 r b (fieldOk_bytes _ hf) hb hf]
  simp [Except.bind, hnew, hfull]

/-- Entries with one more: legal, and the last one past a full table. -/
theorem entriesOk_snoc_full_iff (m : Nat) (es : List LooseEntry) (e : LooseEntry) :
    (entriesOk (es ++ [e]) = true ∧ es.length = m) ↔
      Fresh m [] es ∧ isScalar e.1.toNat = true ∧ fieldOk e.2 = true ∧
        tableGet (es.foldl setEntry []) e.1 = none ∧ (es.foldl setEntry []).length = m := by
  have hsnoc := fresh_snoc m e es [] (Nat.zero_le _)
  rw [← entriesOk_iff, List.length_append, List.length_singleton, Nat.succ_le_succ_iff] at hsnoc
  constructor
  · rintro ⟨hok, hm⟩
    obtain ⟨hfresh, hs, hf, hnew⟩ := hsnoc.1 ⟨hok, hm.le⟩
    exact ⟨hfresh, hs, hf, hnew, (length_entriesTable hfresh).trans hm⟩
  · rintro ⟨hfresh, hs, hf, hnew, hm⟩
    exact ⟨(hsnoc.2 ⟨hfresh, hs, hf, hnew⟩).1, (length_entriesTable hfresh).symm.trans hm⟩

theorem scanHeader_capacity_iff (m : Nat) (h : List Byte) : scanHeader m h = .error .capacity ↔
    ∃ (es : List LooseEntry) (e : LooseEntry) (b : Byte) (r : List Byte),
      h = textBefore es ++ looseEntryText e ++ b :: r ∧ entriesOk (es ++ [e]) = true ∧ es.length = m ∧
      (b = 0x2C#8 ∨ b = 0x7D#8) := by
  constructor
  · intro err
    obtain he | ⟨es, h', rfl, hfresh, he⟩ := scanHeader_err _ _ _ err
    · cases he
    · obtain ⟨e, b, r, rfl, hs, hf, hnew, hfull, hb⟩ := scanEntry_full _ _ _ he
      obtain ⟨hok, hm⟩ := (entriesOk_snoc_full_iff m es e).2 ⟨hfresh, hs, hf, hnew, hfull⟩
      exact ⟨es, e, b, r, (List.append_assoc _ _ _).symm, hok, hm, hb⟩
  · rintro ⟨es, e, b, r, rfl, hok, hm, hb⟩
    obtain ⟨hfresh, hs, hf, hnew, hfull⟩ := (entriesOk_snoc_full_iff m es e).1 ⟨hok, hm⟩
    exact scanHeader_fails m es e.1 e.2 (b :: r) _ hfresh (scanEntry_legal_full hs hf hb hnew hfull)

/-! ## The image WRHDR writes -/

/-- A length below 2^32 is kept exactly by a length register (10_state.md R40). -/
theorem toNat_ofNat_of_lt {n : Nat} (h : n < 2 ^ 32) : (BitVec.ofNat 32 n).toNat = n :=
  (BitVec.toNat_ofNat _ _).trans (Nat.mod_eq_of_lt h)

/-- WRHDR when the image fits. -/
theorem wrhdr_ok {s : State} (hfit : 32 + (headerText s.ft s.pad).length + s.payLen.toNat ≤ p.maxImg.toNat) :
    execOn p .wrhdr s = .next (complete { s with
      img := s.img.writeAll (imageText s.ft s.pad (payElems s))
      imgLen := BitVec.ofNat 32 (32 + (headerText s.ft s.pad).length + s.payLen.toNat)
      hdrLen := BitVec.ofNat 32 (headerText s.ft s.pad).length }) :=
  congrArg Host.Outcome.next (if_neg (Nat.not_lt.2 hfit))

/-- WRHDR when it does not. -/
theorem wrhdr_err {s : State} (hfull : p.maxImg.toNat < 32 + (headerText s.ft s.pad).length + s.payLen.toNat) :
    execOn p .wrhdr s = .next (raise .capacity { s with imgLen := 0#32, hdrLen := 0#32, img := s.img.spoil }) :=
  congrArg Host.Outcome.next (if_pos hfull)

theorem length_payElems (s : State) : (payElems s).length = s.payLen.toNat := length_readAll _ _ _

theorem length_writtenImage (s : State) : (imageText s.ft s.pad (payElems s)).length =
    32 + (headerText s.ft s.pad).length + s.payLen.toNat := by
  rw [length_imageText, length_payElems]

/-- R146: what WRHDR leaves in `IMG[0 .. IMG_LEN)`. -/
theorem wrhdr_image {s t : State} (hrun : execOn p .wrhdr s = .next t) (hok : t.error = false) :
    (headerText s.ft s.pad).length < 2 ^ 32 ∧ t.hdrLen = BitVec.ofNat 32 (headerText s.ft s.pad).length ∧
    t.imgLen.toNat = 32 + (headerText s.ft s.pad).length + s.payLen.toNat ∧
    imgElems t = imageText s.ft s.pad (payElems s) ∧ ∀ i, t.imgLen.toNat ≤ i → imgAt t i = imgAt s i := by
  by_cases hfit : 32 + (headerText s.ft s.pad).length + s.payLen.toNat ≤ p.maxImg.toNat
  · cases (wrhdr_ok hfit).symm.trans hrun
    have hlt := hfit.trans_lt p.maxImg.isLt
    have himgLen := toNat_ofNat_of_lt hlt
    refine ⟨by omega, rfl, himgLen, ?_, fun i hi => ?_⟩
    · exact imgElems_write s _ _ (by rwa [length_writtenImage]) (by rw [length_writtenImage]; rfl) rfl
    · refine (get_writeAll _ _ _ _).trans (dif_neg ?_)
      rw [length_writtenImage]
      exact Nat.not_lt.2 (himgLen ▸ hi)
  · cases (wrhdr_err (Nat.not_le.1 hfit)).symm.trans hrun
    cases hok

/-! ## The steps of RDHDR -/

theorem parseImage_looseHeader {maxSyms maxPay : Nat} {es : List LooseEntry} {pad : BitVec 3} {pay : List Byte}
    (hf : Fresh maxSyms [] es) (hlen : (looseHeader es pad).length < 2 ^ 32) (hpay : pay.length ≤ maxPay) :
    parseImage maxSyms maxPay
        (lengthText (BitVec.ofNat 32 (looseHeader es pad).length) ++ looseHeader es pad ++ pay) =
      .ok ⟨entriesTable es, pad, pay, (looseHeader es pad).length⟩ := by
  rw [parseImage_parts _ _ _ _ _ (toNat_ofNat_of_lt hlen), scanHeader_looseHeader pad hf]
  exact if_neg (Nat.not_lt.2 hpay)

section Steps

variable {maxSyms maxPay : Nat} {img : List Byte}

theorem parseImage_short (h : img.length < 32) : parseImage maxSyms maxPay img = .error .ioFailure := if_pos h

theorem parseImage_badPrefix (hlen : 32 ≤ img.length)
    (hbad : (img.take 32).all (fun b => b == 0x30#8 || b == 0x31#8) = false) :
    parseImage maxSyms maxPay img = .error .invalidHeader := by
  rw [parseImage, if_neg (Nat.not_lt.2 hlen), parseLength_all, hbad]
  rfl

theorem parseImage_truncated {n : Word} (hlen : 32 ≤ img.length) (hn : img.take 32 = lengthText n)
    (hshort : img.length - 32 < n.toNat) : parseImage maxSyms maxPay img = .error .ioFailure := by
  simp only [parseImage, if_neg (Nat.not_lt.2 hlen), hn, parseLength_lengthText, if_pos hshort]

theorem parseImage_badHeader {n : Word} {f : Failure} (hlen : 32 ≤ img.length) (hn : img.take 32 = lengthText n)
    (hroom : n.toNat ≤ img.length - 32) (hf : scanHeader maxSyms ((img.drop 32).take n.toNat) = .error f) :
    parseImage maxSyms maxPay img = .error f := by
  simp only [parseImage, if_neg (Nat.not_lt.2 hlen), hn, parseLength_lengthText, if_neg (Nat.not_lt.2 hroom), hf]

theorem parseImage_goodHeader {n : Word} {t : Table} {pad : BitVec 3} (hlen : 32 ≤ img.length)
    (hn : img.take 32 = lengthText n) (hroom : n.toNat ≤ img.length - 32)
    (hok : scanHeader maxSyms ((img.drop 32).take n.toNat) = .ok (t, pad)) :
    parseImage maxSyms maxPay img = if maxPay < img.length - 32 - n.toNat then .error .capacity
      else .ok ⟨t, pad, img.drop (32 + n.toNat), n.toNat⟩ := by
  simp only [parseImage, if_neg (Nat.not_lt.2 hlen), hn, parseLength_lengthText, if_neg (Nat.not_lt.2 hroom), hok]

end Steps

theorem err_of_parseImage_error {s t : State} {f : Failure} (hrun : execOn p .rdhdr s = .next t)
    (hp : parseImage p.maxSyms.toNat p.maxPay.toNat (imgElems s) = .error f) : t.err = f.code := by
  cases (rdhdr_err s f hp).symm.trans hrun
  rfl

theorem err_of_parseImage_ok {s t : State} {r : Parsed} (hrun : execOn p .rdhdr s = .next t)
    (hp : parseImage p.maxSyms.toNat p.maxPay.toNat (imgElems s) = .ok r) : t.err = .success := by
  cases (rdhdr_ok s r hp).symm.trans hrun
  rfl

/-- R203: no failure of RDHDR reports a symbol. -/
theorem info_of_parseImage_error {maxSyms maxPay : Nat} {img : List Byte} {f : Failure}
    (h : parseImage maxSyms maxPay img = .error f) : f.info = 0#21 := by
  obtain rfl | rfl | rfl | rfl := codes_parseImage _ _ _ _ h <;> rfl

end HeaderRules

/-! ## The statements -/

/-- Settles O40: the seven tokens are computed; any other symbol has no escape letter, since a letter reads back as one
of the seven (`escapedSymbol_mem`). -/
theorem renderedSymbols : Obligations.RenderedSymbols :=
  ⟨by decide, by decide, by decide, by decide, by decide, by decide, by decide, fun _ => render_of_not_escaped⟩

/-- Settles O41: one rule for each length of the form, then `utf8dec_sound` and its converse `utf8dec_utf8`. -/
theorem utf8Encoding : Obligations.Utf8Encoding := by
  refine ⟨fun s => ⟨map_toNat_utf8_one, map_toNat_utf8_two, map_toNat_utf8_three, fun h _ => map_toNat_utf8_four h⟩,
    fun h r s => ⟨utf8dec_sound h s r, ?_⟩⟩
  rintro ⟨hs, rfl⟩
  exact utf8dec_utf8 s hs r

/-- Settles O42: the numeral reads back as the count (`fieldValue_decCount`), and only 0 begins with the digit 0
(`decDigits_head`). -/
theorem decimalNumerals : Obligations.DecimalNumerals := by
  refine fun c => ⟨fieldValue_decCount c, fieldOk_decCount c, decDigits_length 20 c.toNat, fun hhead => ?_⟩
  have hzero : c.toNat = 0 := decDigits_head 20 c.toNat (toNat_lt_ten_pow c) (by decide) hhead
  rw [decCount, hzero]
  rfl

/-- Settles O43: the writer's entries are entries of the grammar (`headerText_eq_looseHeader`), and none of them holds
a LF (`lf_entries`). -/
theorem headerTextFormat : Obligations.HeaderTextFormat := fun t pad =>
  ⟨headerText_eq_looseHeader t pad, count_lf_headerText t pad,
    by simp [headerText, List.getLast?_cons, List.getLast?_append]⟩

/-- Settles O44: the digits by definition, ParsePrefix by `parseLength_all`. -/
theorem lengthPrefix : Obligations.LengthPrefix := by
  refine ⟨fun n => ⟨length_lengthText n, fun i hi => by simp [lengthText, hi]⟩, fun p hp => ?_⟩
  rw [parseLength_all, hp, Nat.zero_mul, Nat.zero_add]

/-- Settles O45: `scanCount_closed` and `scanCount_unclosed`. -/
theorem countFieldScanning : Obligations.CountFieldScanning :=
  ⟨fun _ _ _ => scanCount_closed, fun _ => scanCount_unclosed⟩

/-- Settles O46: `looseHeader_of_scanHeader` reads the grammar off an accepted text, `scanHeader_looseHeader` reads
every text of the grammar. -/
theorem scannerAcceptsExactlyTheGrammar : Obligations.ScannerAcceptsExactlyTheGrammar := by
  intro maxSyms h t pad
  constructor
  · intro e
    obtain ⟨es, htext, hfresh, htable⟩ := looseHeader_of_scanHeader e
    obtain ⟨hok, hlen⟩ := (entriesOk_iff _ _).2 hfresh
    exact ⟨es, htext, hok, hlen, htable⟩
  · rintro ⟨es, rfl, hok, hlen, rfl⟩
    exact scanHeader_looseHeader pad ((entriesOk_iff _ _).1 ⟨hok, hlen⟩)

/-- Settles O47: a text is rejected at the first entry ScanEntry rejects, or with InvalidHeader
(`scanHeader_badCount_iff`, `scanHeader_capacity_iff`). -/
theorem scannerErrors : Obligations.ScannerErrors := by
  intro maxSyms h
  refine ⟨?_, scanHeader_capacity_iff maxSyms h, fun f e => codes_scanHeader _ _ _ e⟩
  rw [scanHeader_badCount_iff]
  simp only [← entriesOk_iff, and_assoc]

/-- Settles O48: what a success leaves is `wrhdr_image`; the one failure is `wrhdr_err`. -/
theorem wrhdrCompletes : Obligations.WrhdrCompletes := by
  intro p s h
  constructor
  · intro hfit
    have hrun := wrhdr_ok hfit
    obtain ⟨hlen, hhdr, himgLen, himg, hkept⟩ := wrhdr_image hrun rfl
    exact ⟨_, hrun, exec_of_execOn hrun, rfl, toNat_ofNat_of_lt hlen, himgLen, himg, hkept⟩
  · intro hfull
    have hrun := wrhdr_err hfull
    exact ⟨_, hrun, exec_of_execOn hrun, rfl⟩

/-- Settles O49: the image is parsed (`parseImage_looseHeader`), and what RDHDR then stores reads back. -/
theorem rdhdrCompletes : Obligations.RdhdrCompletes := by
  intro p s es pad pay h himg hok hsyms hpay
  have hfresh := (entriesOk_iff _ _).1 ⟨hok, hsyms⟩
  have hlen : h.length < 2 ^ 32 := by
    have himgLen := length_imgElems s
    simp only [himg, List.length_append, length_lengthText] at himgLen
    omega
  have hpayLen := toNat_ofNat_of_lt (hpay.trans_lt p.maxPay.isLt)
  have hrun := rdhdr_ok s _ (himg ▸ parseImage_looseHeader hfresh hlen hpay)
  refine ⟨_, hrun, exec_of_execOn hrun, rfl, ?_, hpayLen, toNat_ofNat_of_lt hlen, ?_, fun i hi => ?_⟩
  · rw [← length_entriesTable hfresh] at hsyms ⊢
    exact toNat_ofNat_of_lt (hsyms.trans_lt p.maxSyms.isLt)
  · exact payElems_write s _ pay (hpay.trans_lt p.maxPay.isLt) rfl rfl
  · exact (get_writeAll _ _ _ _).trans (dif_neg (Nat.not_lt.2 hi))

/-- Settles O50: one rule for each step of R147 says what `parseImage` gives; ERR is the code of that. -/
theorem rdhdrFailurePriority : Obligations.RdhdrFailurePriority := by
  intro p s t hrun img
  rw [← length_imgElems s]
  refine ⟨fun h => err_of_parseImage_error hrun (parseImage_short h), fun hlen =>
    ⟨fun hbad => err_of_parseImage_error hrun (parseImage_badPrefix hlen hbad), fun n hn =>
      ⟨fun hshort => err_of_parseImage_error hrun (parseImage_truncated hlen hn hshort), fun hroom =>
        ⟨fun f hf => err_of_parseImage_error hrun (parseImage_badHeader hlen hn hroom hf), fun r hr => ?_⟩⟩⟩⟩
  have hparse := parseImage_goodHeader (maxPay := p.maxPay.toNat) hlen hn hroom hr
  split
  next hfull => exact err_of_parseImage_error hrun (hparse.trans (if_pos hfull))
  next hfit => exact err_of_parseImage_ok hrun (hparse.trans (if_neg hfit))

/-- Settles O51: a failure keeps nothing but the cleared start of RDHDR, and it reports no symbol
(`info_of_parseImage_error`). -/
theorem rdhdrFailureLeavesEmptyTable : Obligations.RdhdrFailureLeavesEmptyTable := by
  intro p s t hrun herr
  obtain ⟨f, hf, rfl⟩ | ⟨r, -, rfl⟩ := rdhdr_answer hrun
  · exact congrArg (fun x => failed f.code x { rdhdrStart s with pay := s.pay.spoil }) (info_of_parseImage_error hf)
  · cases herr

/-- Settles O52: the image WRHDR leaves (`wrhdr_image`) is parsed back (`parseImage_imageText`). -/
theorem headerRoundTrip : Obligations.HeaderRoundTrip := by
  intro p q s t u hok hrun hsucc himg hsyms hpay
  obtain ⟨hlen, hhdr, -, htext, -⟩ := wrhdr_image hrun hsucc
  have hfit : (payElems s).length ≤ q.maxPay.toNat := length_payElems s ▸ BitVec.le_def.1 hpay
  have hparse := parseImage_imageText _ _ s.ft s.pad _ hok hsyms hlen hfit
  rw [← htext, ← himg] at hparse
  have hread := rdhdr_ok u _ hparse
  refine ⟨_, hread, exec_of_execOn hread, rfl, rfl, rfl, ?_, ?_, hhdr.symm⟩
  · simp [length_payElems]
  · exact payElems_write u _ _ (hfit.trans_lt q.maxPay.isLt) rfl rfl

end Sys2Proof.Machine
end

section
/-! PROOFS. The statements of 44_bitunpacker_decoder.md. DECODE is BUILD and a walk of the tree BUILD leaves
(`decode_completed`, `decode_failed`), so the statements follow from what the walk gives on that tree
(`decodeSymbols_spelled` and the rules beside it). A round trip adds that ENCODE leaves a payload that spells its input
(`spells_of_encode`) and that equal tables give one tree on all instances (`TreeCodes.rebuilt`). -/

namespace Sys2Proof.Machine

section DecodeRules

variable {p q : Params}

/-! ## The tree DECODE walks -/

/-- An Internal stands at ROOT, and the codes of `es` are paths of its tree. -/
def TreeCodes (s : State) (es : List CodeEntry) : Prop :=
  ∃ w l r, TreeAt (nodeAt s) s.root.toNat (.node w l r) ∧ CodesOf (.node w l r) es

/-- R105: BUILD of a non-empty table answers the tree BuildTree makes. -/
theorem build_of_ne_nil {s b : State} (hne : s.ft ≠ []) (hb : exec .build s = .next b) :
    ∃ nodes, buildTree s.ft = .ok nodes ∧ b = complete (loadTree nodes (invalidateTree s)) := by
  obtain ⟨f, hf, -⟩ | hok := build_answer (p := Config.params) hb
  · exact absurd ((buildTree_error_iff _).1 ⟨f, hf⟩) hne
  · exact hok

/-- A code table ASSIGN leaves holds paths of the tree it was given, whose root is an Internal (`valid_codes`). -/
theorem treeCodes_of_assign {b a : State} (h : Inv p b) (ha : exec .assign b = .next a) (hok : a.error = false) :
    TreeCodes b (ctElems a) := by
  have hinv := inv_assign h ha
  obtain ⟨f, -, rfl⟩ | ⟨es, -, rfl⟩ := assign_answer (p := p) ha
  · cases hok
  · obtain ⟨tr, ht, hpaths, -, ⟨w, l, r, rfl⟩, -⟩ := valid_codes hinv rfl
    exact ⟨w, l, r, ht, fun e he => hpaths.subset (List.mem_map_of_mem he)⟩

/-- R124: a table of two or more entries has codes, and they are paths of its tree. -/
theorem treeCodes_of_build_assign {s b a : State} (h : Inv p s) (hn : 2 ≤ s.ft.length)
    (hb : exec .build s = .next b) (ha : exec .assign b = .next a) : TreeCodes b (ctElems a) := by
  have hinv := inv_build h hb
  obtain ⟨nodes, -, rfl⟩ := build_of_ne_nil (List.ne_nil_of_length_pos (by omega)) hb
  obtain ⟨a', -, ha', hsucc, -⟩ := assignCompletes p _ hinv rfl hn
  cases ha'.symm.trans ha
  exact treeCodes_of_assign hinv ha (congrArg State.error hsucc)

/-- A tree is read within the first `n` nodes, where their children are among them. -/
theorem TreeAt.congr_below {node node' : Nat → TreeNode} {n i : Nat} {tr : HTree} (ht : TreeAt node i tr)
    (heq : ∀ j < n, node' j = node j) (hchild : ∀ j < n, ∀ c ∈ childrenOf (node j), c < n) (hi : i < n) :
    TreeAt node' i tr := by
  induction ht with
  | leaf hs => exact .leaf ((heq _ hi).trans hs)
  | node hs _ _ ihl ihr =>
    have hchildren := hchild _ hi
    simp only [hs, childrenOf, List.mem_cons, List.not_mem_nil, or_false, forall_eq_or_imp, forall_eq] at hchildren
    obtain ⟨hleft, hright⟩ := hchildren
    exact .node ((heq _ hi).trans hs) (ihl hleft) (ihr hright)

/-- R109(c), R171: BUILD of the same table, on whatever instance, gives the tree the codes were taken from. -/
theorem TreeCodes.rebuilt {s s' b b' : State} {es : List CodeEntry} (hs : Inv p s) (hs' : Inv q s')
    (hft : s'.ft = s.ft) (hb : exec .build s = .next b) (hb' : exec .build s' = .next b') (hv : b.treeValid = true)
    (hc : TreeCodes b es) : TreeCodes b' es := by
  obtain ⟨hnodes, hcnt, hroot, -⟩ :=
    treeIsDeterminedByTheTable p q s s' b b' hs hs' (fun x => by rw [hft]) hb hb'
  obtain ⟨hrootCnt, -, hbelow⟩ := treeOwnershipIsStrict p b (inv_build hs hb) hv
  have heq : ∀ j < b.nodeCnt.toNat, nodeAt b' j = nodeAt b j := fun j hj => by
    have hget' := nodeElems_get b' j (hcnt ▸ hj)
    rw [← hnodes, nodeElems_get b j hj] at hget'
    exact (Option.some.inj hget').symm
  obtain ⟨w, l, r, ht, hcodes⟩ := hc
  refine ⟨w, l, r, ?_, hcodes⟩
  rw [← hroot]
  exact ht.congr_below heq (fun j hj c hcj => (hbelow j hj c hcj).trans hj) (by omega)

/-! ## The designated bits -/

/-- The payload of `s` spells `ss` in the codes of `es` (R173). -/
structure Spells (s : State) (es : List CodeEntry) (ss : List Sym) : Prop where
  pad : s.payLen = 0#32 → s.pad = 0#3
  known : allKnown es ss = true
  bits : designatedBits s = codeBits es ss

/-- R173: bit `k` of the range is `PAY[k div 8][7 − (k mod 8)]`. -/
theorem designatedBits_getElem? (s : State) (k : Nat) : (designatedBits s)[k]? =
    if k < 8 * s.payLen.toNat - s.pad.toNat then some ((payAt s (k / 8)).getLsbD (7 - k % 8)) else none := by
  rw [designatedBits, List.getElem?_take]
  split
  next hk =>
    have hbyte : k / 8 < (payElems s).length := by rw [length_payElems]; omega
    rw [bytesBits_get, List.getElem?_eq_getElem hbyte]
    exact congrArg (fun b : Byte => some (b.getLsbD (7 - k % 8))) (getElem_readAll _ _ _ _ hbyte)
  next => rfl

/-- R176: the range holds neither the filler bits of the last byte nor a byte above it. -/
theorem designatedBits_congr {s : State} {m : Memory Byte}
    (hbytes : ∀ i, i + 1 < s.payLen.toNat → m.get Config.freePay i = payAt s i)
    (hlast : ∀ k, s.pad.toNat ≤ k → (m.get Config.freePay (s.payLen.toNat - 1)).getLsbD k =
      (payAt s (s.payLen.toNat - 1)).getLsbD k) :
    designatedBits { s with pay := m } = designatedBits s := by
  refine List.ext_getElem? fun k => ?_
  rw [designatedBits_getElem?, designatedBits_getElem?]
  refine ite_congr rfl (fun hk => congrArg some ?_) fun _ => rfl
  change (m.get Config.freePay (k / 8)).getLsbD (7 - k % 8) = _
  change k < 8 * s.payLen.toNat - s.pad.toNat at hk
  by_cases hbefore : k / 8 + 1 < s.payLen.toNat
  · rw [hbytes _ hbefore]
  · rw [show k / 8 = s.payLen.toNat - 1 by omega]
    exact hlast _ (by omega)

/-- R137: the designated bits of what ENCODE leaves are the codes of its input. -/
theorem spells_of_encode {s t : State} (hrun : execOn p .encode s = .next t) (hok : t.error = false) :
    Spells t (ctElems s) (sinElems s) := by
  obtain ⟨-, hlen, -, -, hpad, -⟩ := paddingBound p s t hrun hok
  obtain ⟨-, -, hbits, -⟩ := encode_payload hrun hok
  refine ⟨hpad, ?_, ?_⟩
  · obtain ⟨f, -, rfl⟩ | ⟨r, hr, -⟩ := encode_answer hrun
    · cases hok
    · obtain ⟨hknown, -⟩ := pack_ok _ _ _ _ (pack_of_encodeResult hr)
      exact hknown
  · rw [designatedBits, hbits, hlen, List.take_left]

/-! ## The walk of a tree whose codes the payload spells -/

/-- R172: an Internal at ROOT is no degenerate tree. -/
theorem TreeCodes.root_not_leaf {s : State} {es : List CodeEntry} (hc : TreeCodes s es) :
    (nodeAt s s.root.toNat).isLeaf = false := by
  obtain ⟨w, l, r, ht, -⟩ := hc
  cases ht with
  | node hs _ _ => rw [hs]; rfl

theorem decodeSymbols_of_root_isLeaf {s : State} (h : (nodeAt s s.root.toNat).isLeaf = true) :
    decodeSymbols p s = .error .degenerateAlphabet := if_pos h

theorem decodeSymbols_of_payloadBits_error {s : State} {f : Failure} (hroot : (nodeAt s s.root.toNat).isLeaf = false)
    (hf : payloadBits s = .error f) : decodeSymbols p s = .error f := by
  simp [decodeSymbols, hroot, hf]

/-- R175: the walk is a success exactly where it ends at ROOT. -/
theorem decodeSymbols_of_walk {s : State} {cur : Nat} {out : List Sym}
    (hroot : (nodeAt s s.root.toNat).isLeaf = false) (hpad : s.payLen = 0#32 → s.pad = 0#3)
    (hw : walk (nodeAt s) s.root.toNat p.maxOut.toNat s.root.toNat [] (designatedBits s) = .ok (cur, out)) :
    decodeSymbols p s = if cur = s.root.toNat then .ok out else .error .corruptPayload := by
  simp [decodeSymbols, hroot, payloadBits_designated s hpad, hw]

/-- R174: the walk stops with a failure. -/
theorem decodeSymbols_of_walk_error {s : State} {f : Failure} (hroot : (nodeAt s s.root.toNat).isLeaf = false)
    (hpad : s.payLen = 0#32 → s.pad = 0#3)
    (hw : walk (nodeAt s) s.root.toNat p.maxOut.toNat s.root.toNat [] (designatedBits s) = .error f) :
    decodeSymbols p s = .error f := by
  simp [decodeSymbols, hroot, payloadBits_designated s hpad, hw]

/-- R174, R175: a payload that spells codes is decoded to their symbols, where SOUT has room. -/
theorem decodeSymbols_spelled {s : State} {es : List CodeEntry} {ss : List Sym} (hc : TreeCodes s es)
    (hsp : Spells s es ss) (hroom : ss.length ≤ p.maxOut.toNat) : decodeSymbols p s = .ok ss := by
  have hroot := hc.root_not_leaf
  obtain ⟨w, l, r, ht, hcodes⟩ := hc
  have hw := walk_codeBits (maxOut := p.maxOut.toNat) ht es hcodes ss hsp.known [] [] (by simpa using hroom)
  rw [List.append_nil, ← hsp.bits] at hw
  exact (decodeSymbols_of_walk hroot hsp.pad hw).trans (if_pos rfl)

/-- R174: more symbols than SOUT holds. -/
theorem decodeSymbols_full {s : State} {es : List CodeEntry} {ss : List Sym} {rest : Bits} (hc : TreeCodes s es)
    (hpad : s.payLen = 0#32 → s.pad = 0#3) (hk : allKnown es ss = true)
    (hbits : designatedBits s = codeBits es ss ++ rest) (hfull : p.maxOut.toNat < ss.length) :
    decodeSymbols p s = .error .capacity := by
  have hroot := hc.root_not_leaf
  obtain ⟨w, l, r, ht, hcodes⟩ := hc
  have hw := walk_full (maxOut := p.maxOut.toNat) ht es hcodes ss hk [] rest (Nat.zero_le _) (by simpa using hfull)
  exact decodeSymbols_of_walk_error hroot hpad (hbits ▸ hw)

/-- R175: codes, then a proper part of one more, end on an Internal below ROOT. -/
theorem decodeSymbols_inside {s : State} {es : List CodeEntry} {ss : List Sym} {e : CodeEntry} {c d : Bits}
    (hc : TreeCodes s es) (hpad : s.payLen = 0#32 → s.pad = 0#3) (hk : allKnown es ss = true) (he : e ∈ es)
    (hcode : e.code = c ++ d) (hcne : c ≠ []) (hdne : d ≠ []) (hbits : designatedBits s = codeBits es ss ++ c)
    (hroom : ss.length ≤ p.maxOut.toNat) : decodeSymbols p s = .error .corruptPayload := by
  have hroot := hc.root_not_leaf
  obtain ⟨w, l, r, ht, hcodes⟩ := hc
  have hpath := hcode ▸ hcodes e he
  obtain ⟨j, u, hw, hu, hsize⟩ :=
    walk_partial (root := s.root.toNat) (maxOut := p.maxOut.toNat) ht e.sym c d hpath hdne ss
  have hall := walk_codeBits (maxOut := p.maxOut.toNat) ht es hcodes ss hk [] c (by simpa using hroom)
  rw [← hbits, List.nil_append, hw] at hall
  rw [decodeSymbols_of_walk hroot hpad hall, if_neg]
  rintro rfl
  exact (hsize hcne).ne (congrArg HTree.size (hu.unique ht))

/-! ## The state DECODE leaves, beside the one BUILD leaves -/

/-- R171: without a table there is no tree. -/
theorem decode_noTree {s : State} {f : Failure} (hf : buildTree s.ft = .error f) :
    execOn p .decode s = .next (raise f (spoilSout (spoilNode (decodeStart s)))) := by
  simp only [execOn, decodeOn, hf]

/-- The walk of DECODE is the walk of the tree BUILD leaves. -/
theorem decodeSymbols_loadTree (nodes : List TreeNode) (s : State) :
    decodeSymbols p (loadTree nodes (decodeStart s)) =
      decodeSymbols p (complete (loadTree nodes (invalidateTree s))) := rfl

/-- BUILD leaves the payload. -/
theorem build_payload {s b : State} (hb : exec .build s = .next b) :
    b.payLen = s.payLen ∧ b.pad = s.pad ∧ designatedBits b = designatedBits s := by
  obtain ⟨f, -, rfl⟩ | ⟨nodes, -, rfl⟩ := build_answer (p := Config.params) hb <;> exact ⟨rfl, rfl, rfl⟩

theorem Spells.build {s b : State} {es : List CodeEntry} {ss : List Sym} (hsp : Spells s es ss)
    (hb : exec .build s = .next b) : Spells b es ss := by
  obtain ⟨hlen, hpad, hbits⟩ := build_payload hb
  exact ⟨by rw [hlen, hpad]; exact hsp.pad, hsp.known, hbits.trans hsp.bits⟩

/-- R172: the tree BUILD leaves is degenerate exactly if the table has one entry. -/
theorem build_root_isLeaf {s b : State} (h : Inv p s) (hne : s.ft ≠ []) (hb : exec .build s = .next b) :
    (nodeAt b b.root.toNat).isLeaf = true ↔ s.ft.length = 1 := by
  have hinv := inv_build h hb
  obtain ⟨nodes, -, rfl⟩ := build_of_ne_nil hne hb
  exact root_leaf hinv rfl

/-- R177: what a DECODE leaves that fails behind the building of the tree. -/
theorem decode_failed {s b : State} {f : Failure} (hne : s.ft ≠ []) (hb : exec .build s = .next b)
    (hf : decodeSymbols p b = .error f) :
    ∃ t, execOn p .decode s = .next t ∧ (p = Config.params → exec .decode s = .next t) ∧
      t = failed f.code f.info { s with
          node := b.node, treeValid := true, nodeCnt := b.nodeCnt, root := b.root, ctValid := false,
          ctLen := 0#32, sout := t.sout, soutLen := 0#32 } := by
  obtain ⟨nodes, hbuild, rfl⟩ := build_of_ne_nil hne hb
  have hrun := decode_err s nodes hbuild f ((decodeSymbols_loadTree nodes s).trans hf)
  exact ⟨_, hrun, exec_of_execOn hrun, rfl⟩

/-- R177: what a successful DECODE leaves. -/
theorem decode_completed {s b : State} {out : List Sym} (hne : s.ft ≠ []) (hb : exec .build s = .next b)
    (ho : decodeSymbols p b = .ok out) :
    ∃ t, execOn p .decode s = .next t ∧ (p = Config.params → exec .decode s = .next t) ∧
      t = succeeded { s with
          node := b.node, nodeCnt := b.nodeCnt, root := b.root, treeValid := true, ctValid := false,
          ctLen := 0#32, sout := t.sout, soutLen := t.soutLen } ∧
      t.soutLen.toNat = out.length ∧ soutElems t = out ∧ ∀ i, out.length ≤ i → soutAt t i = soutAt s i := by
  have hlt := (decodeSymbols_length b out ho).trans_lt p.maxOut.isLt
  obtain ⟨nodes, hbuild, rfl⟩ := build_of_ne_nil hne hb
  have hrun := decode_ok s nodes hbuild out ((decodeSymbols_loadTree nodes s).trans ho)
  exact ⟨_, hrun, exec_of_execOn hrun, rfl, toNat_ofNat_of_lt hlt, soutElems_write s _ out hlt rfl rfl,
    fun i hi => (get_writeAll _ _ _ _).trans (dif_neg (Nat.not_lt.2 hi))⟩

/-- DECODE reads PAY through its designated bits only (R176). -/
theorem decodeSymbols_congr_pay {s : State} {m : Memory Byte}
    (h : designatedBits { s with pay := m } = designatedBits s) :
    decodeSymbols p { s with pay := m } = decodeSymbols p s := by
  have hbits : payloadBits { s with pay := m } = payloadBits s :=
    ite_congr rfl (fun _ => rfl) fun _ => congrArg Except.ok h
  rw [decodeSymbols, hbits]
  rfl

/-! ## Round trips -/

/-- R131, R137: a run that begins with BUILD, ASSIGN and ENCODE, none of them failing, gets to a payload that spells
its input in the codes of the tree of its table. -/
theorem encoded_of_run {is : List Instr} {s t : State} (hs : Inv p s)
    (hrun : runUntilError p (.build :: .assign :: .encode :: is) s = .next t) (hok : t.error = false) :
    ∃ b es e, exec .build s = .next b ∧ s.ft ≠ [] ∧ TreeCodes b es ∧ Inv p e ∧ e.ft = s.ft ∧
      Spells e es (sinElems s) ∧ runUntilError p is e = .next t := by
  obtain ⟨b, hb, hbok, hrun⟩ := runUntilError_cons hrun hok
  obtain ⟨a, ha, haok, hrun⟩ := runUntilError_cons hrun hok
  obtain ⟨e, he, heok, hrun⟩ := runUntilError_cons hrun hok
  have hbinv := inv_build hs hb
  have hcodes := treeCodes_of_assign hbinv ha haok
  have hspells := spells_of_encode he heok
  have heinv := inv_encode (inv_assign hbinv ha) he
  have hne : s.ft ≠ [] := fun hnil => by
    obtain ⟨hfail, -⟩ := buildFailsOnlyOnEmptyTable s b hb
    cases hbok.symm.trans (hfail.2 hnil)
  obtain ⟨nodes, -, rfl⟩ := build_of_ne_nil hne hb
  obtain ⟨f, -, rfl⟩ | ⟨es, -, rfl⟩ := assign_answer (p := p) ha
  · cases haok
  · obtain ⟨f, -, rfl⟩ | ⟨r, -, rfl⟩ := encode_answer he
    · cases heok
    · exact ⟨_, _, _, hb, hne, hcodes, heinv, rfl, hspells, hrun⟩

/-- R178: any state with that table whose payload spells the input in those codes is decoded to the input. -/
theorem decode_encoded {s b v : State} {es : List CodeEntry} (hs : Inv p s) (hv : Inv q v) (hne : s.ft ≠ [])
    (hb : exec .build s = .next b) (hc : TreeCodes b es) (hft : v.ft = s.ft) (hsp : Spells v es (sinElems s))
    (hroom : s.sinLen ≤ q.maxOut) :
    ∃ u, execOn q .decode v = .next u ∧ u.error = false ∧ u.soutLen = s.sinLen ∧ soutElems u = sinElems s := by
  have hvalid : b.treeValid = true := by
    obtain ⟨nodes, -, rfl⟩ := build_of_ne_nil hne hb
    rfl
  have hlen : (sinElems s).length = s.sinLen.toNat := length_readAll _ _ _
  obtain ⟨nodes, -, hb', -⟩ := build_ok hv (hft ▸ hne)
  obtain ⟨u, hrun, -, hsucc, hsout, helems, -⟩ :=
    decode_completed (p := q) (hft ▸ hne) hb'
      (decodeSymbols_spelled (hc.rebuilt hs hv hft hb hb' hvalid) (hsp.build hb') (hlen ▸ BitVec.le_def.1 hroom))
  exact ⟨u, hrun, congrArg State.error hsucc, BitVec.eq_of_toNat_eq (hsout.trans hlen), helems⟩

end DecodeRules

/-! ## The statements -/

/-- Settles O57: after ENCODE the payload spells the input (`encoded_of_run`), and DECODE rebuilds the tree of its
codes (`decode_encoded`). -/
theorem roundTripInMemory : Obligations.RoundTripInMemory := by
  intro p s t hs _ _ hrun hok hroom
  obtain ⟨b, es, e, hb, hne, hc, he, hft, hsp, hend⟩ := encoded_of_run hs hrun hok
  cases hend
  exact decode_encoded hs he hne hb hc hft hsp hroom

/-- Settles O58: RDHDR restores the table and the payload ENCODE left (`headerRoundTrip`), so DECODE finds there what it
finds in memory (`decode_encoded`). -/
theorem roundTripThroughImage : Obligations.RoundTripThroughImage := by
  intro p q s t u hs hu _ _ hrun hok himg hsyms hpay hroom
  obtain ⟨b, es, e, hb, hne, hc, he, hft, hsp, hend⟩ := encoded_of_run hs hrun hok
  have hwr := runUntilError_single hend
  have hpayLen : t.payLen = e.payLen := by obtain rfl | rfl := wrhdr_answer hwr <;> rfl
  obtain ⟨r, hrd, -, hrok, hrft, hrpad, hrlen, hrpay, -⟩ :=
    headerRoundTrip p q e t u he.tableOk hwr hok himg (hft ▸ hsyms) (hpayLen ▸ hpay)
  have hbits : designatedBits r = designatedBits e := by
    rw [designatedBits, designatedBits, hrpay, hrlen, hrpad]
  have hrsp : Spells r es (sinElems s) :=
    ⟨by rw [hrlen, hrpad]; exact hsp.pad, hsp.known, hbits.trans hsp.bits⟩
  obtain ⟨v, hdec, hvok, hv⟩ := decode_encoded hs (inv_rdhdr hu hrd) hne hb hc (hrft.trans hft) hrsp hroom
  refine ⟨v, ?_, hvok, hv⟩
  rw [decompressCommands, runUntilError_next hrd hrok, runUntilError_next hdec hvok]
  rfl

/-- Settles O53: the codes ASSIGN gives are paths of the tree DECODE rebuilds, and the payload spells them
(`decodeSymbols_spelled`). -/
theorem decodeCompletes : Obligations.DecodeCompletes := by
  intro p s h hn hpad
  have hne : s.ft ≠ [] := List.ne_nil_of_length_pos (by omega)
  obtain ⟨nodes, -, hb, -⟩ := build_ok h hne
  obtain ⟨a, -, ha, -⟩ := assignCompletes p _ (inv_build h hb) rfl hn
  exact ⟨_, a, hb, ha, fun ss hk hbits hroom =>
    decode_completed hne hb
      (decodeSymbols_spelled (treeCodes_of_build_assign h hn hb ha) (Spells.build ⟨hpad, hk, hbits⟩ hb) hroom)⟩

/-- Settles O54: no tree, a Leaf at ROOT, or no bit range; for the last two `decode_failed` says what is left. -/
theorem decodeFailsBeforeTheWalk : Obligations.DecodeFailsBeforeTheWalk := by
  intro p s h
  refine ⟨fun hnil => ?_, fun b hb hone => ?_, fun b hb htwo hlen hpad => ?_⟩
  · have hrun := decode_noTree (p := p) (show buildTree s.ft = .error .emptyAlphabet by rw [hnil]; rfl)
    exact ⟨_, hrun, exec_of_execOn hrun, rfl⟩
  · have hne : s.ft ≠ [] := List.ne_nil_of_length_pos (by omega)
    exact decode_failed hne hb (decodeSymbols_of_root_isLeaf ((build_root_isLeaf h hne hb).2 hone))
  · have hne : s.ft ≠ [] := List.ne_nil_of_length_pos (by omega)
    obtain ⟨hblen, hbpad, -⟩ := build_payload hb
    refine decode_failed (f := .corruptPayload) hne hb (decodeSymbols_of_payloadBits_error ?_ ?_)
    · rw [Bool.eq_false_iff, Ne, build_root_isLeaf h hne hb]
      omega
    · rw [payloadBits, if_pos (hblen.trans hlen), if_neg (hbpad ▸ hpad)]

/-- Settles O55: what the walk gives on the tree BUILD leaves (`decodeSymbols_full`, `decodeSymbols_inside`). -/
theorem decodeFailsInTheWalk : Obligations.DecodeFailsInTheWalk := by
  intro p s b a ss h hn hlen hb ha hk
  have hne : s.ft ≠ [] := List.ne_nil_of_length_pos (by omega)
  have hc := treeCodes_of_build_assign h hn hb ha
  obtain ⟨hblen, -, hbbits⟩ := build_payload hb
  have hpad : b.payLen = 0#32 → b.pad = 0#3 := fun hz => absurd (hblen.symm.trans hz) hlen
  refine ⟨fun rest hbits hfull => ?_, fun e c d he hcode hcne hdne hbits hroom => ?_⟩
  · exact decode_failed hne hb (decodeSymbols_full hc hpad hk (hbbits.trans hbits) hfull)
  · exact decode_failed hne hb
      (decodeSymbols_inside hc hpad hk he hcode hcne hdne (hbbits.trans hbits) hroom)

/-- Settles O56: the designated bits agree (`designatedBits_congr`), and DECODE reads no other part of PAY. -/
theorem fillerBitsAreIgnored : Obligations.FillerBitsAreIgnored := by
  intro p s t m hrun hbytes hlast
  have hsame : ∀ nodes, decodeSymbols p (loadTree nodes (decodeStart { s with pay := m })) =
      decodeSymbols p (loadTree nodes (decodeStart s)) := fun nodes =>
    decodeSymbols_congr_pay (s := loadTree nodes (decodeStart s)) (designatedBits_congr (s := s) hbytes hlast)
  obtain ⟨f, hf, rfl⟩ | ⟨nodes, hb, ⟨f, hf, rfl⟩ | ⟨out, ho, rfl⟩⟩ := decode_answer hrun
  · exact decode_noTree (s := { s with pay := m }) hf
  · exact decode_err { s with pay := m } nodes hb f ((hsame nodes).trans hf)
  · exact decode_ok { s with pay := m } nodes hb out ((hsame nodes).trans ho)

end Sys2Proof.Machine
end

section
/-! PROOFS. The statements of 45_control_ops.md: NOP is `complete` alone, and CLR leaves the reset state but for the
elements, of which those of an invalidated space no longer read. -/

namespace Sys2Proof.Machine

section ControlRules

variable {p : Params} {s : State}

/-! ## Unreadable elements -/

theorem readable_node_of_invalid (i : Nat) (h : s.treeValid = false) : readable p .node i s = false := by
  rw [readable, h, Bool.false_and]

theorem readable_ct_of_invalid (i : Nat) (h : s.ctValid = false) : readable p .ct i s = false := by
  rw [readable, h, Bool.false_and]

theorem readable_sout_of_empty (i : Nat) (h : s.soutLen = 0#32) : readable p .sout i s = false := by
  rw [readable, h]
  exact decide_eq_false (Nat.not_lt_zero i)

end ControlRules

/-! ## The statements -/

/-- Settles O24: NOP is `complete`, which is the success indication of R202 and nothing else. -/
theorem nopOnlyReportsSuccess : Obligations.NopOnlyReportsSuccess :=
  fun _ => rfl

/-- Settles O25: the registers are those of reset, so STATUS is reset's (`resetState`), no tree and no code table is
valid, and SOUT is empty. -/
theorem clrKeepsOnlyElements : Obligations.ClrKeepsOnlyElements := by
  intro s
  obtain ⟨hstatus, -⟩ := resetState
  exact ⟨_, rfl, rfl, hstatus, fun _ i =>
    ⟨readable_node_of_invalid i rfl, readable_ct_of_invalid i rfl, readable_sout_of_empty i rfl⟩⟩

end Sys2Proof.Machine
end

section
/-! PROOFS. The statements of 60_exceptions.md: one rule for how a command other than CLR ends (`execOn_ends`), one for
CLR and one for a word that is no command; what a failure leaves is the frame of the command (`commandFrames`). -/

namespace Sys2Proof.Machine

section EndingRules

variable {p : Params}

/-! ## How a command ends -/

/-- R191: 0 is no error code. -/
theorem Failure.code_ne_success (f : Failure) : f.code ≠ .success := by cases f <;> exact nofun

/-- R202, R203: a command other than CLR ends with `complete`, or with `raise` and a failure R191 lists for it. -/
theorem execOn_ends {i : Instr} {s t : State} (hi : i ≠ .clr) (h : execOn p i s = .next t) :
    (∃ u, t = complete u) ∨ ∃ f u, f.code ∈ resultCodes i ∧ t = raise f u := by
  cases i with
  | nop => cases h; exact .inl ⟨s, rfl⟩
  | build =>
    obtain ⟨f, hf, ht⟩ | ⟨_, -, ht⟩ := build_answer h
    · obtain rfl := codes_build _ _ hf
      exact .inr ⟨.emptyAlphabet, _, by decide, ht⟩
    · exact .inl ⟨_, ht⟩
  | assign =>
    obtain ⟨f, hf, ht⟩ | ⟨_, -, ht⟩ := assign_answer h
    · refine .inr ⟨f, _, ?_, ht⟩
      obtain rfl | rfl := codes_assign _ _ hf <;> decide
    · exact .inl ⟨_, ht⟩
  | encode =>
    obtain ⟨f, hf, ht⟩ | ⟨_, -, ht⟩ := encode_answer h
    · refine .inr ⟨f, _, ?_, ht⟩
      obtain rfl | rfl | ⟨u, rfl⟩ := codes_encode _ _ hf <;> simp [resultCodes, Failure.code]
    · exact .inl ⟨_, ht⟩
  | wrhdr =>
    obtain ht | ht := wrhdr_answer h
    · exact .inr ⟨.capacity, _, by decide, ht⟩
    · exact .inl ⟨_, ht⟩
  | rdhdr =>
    obtain ⟨f, hf, ht⟩ | ⟨_, -, ht⟩ := rdhdr_answer h
    · refine .inr ⟨f, _, ?_, ht⟩
      obtain rfl | rfl | rfl | rfl := codes_parseImage _ _ _ _ hf <;> decide
    · exact .inl ⟨_, ht⟩
  | decode =>
    obtain ⟨f, hf, ht⟩ | ⟨_, -, ⟨f, hf, ht⟩ | ⟨_, -, ht⟩⟩ := decode_answer h
    · obtain rfl := codes_build _ _ hf
      exact .inr ⟨.emptyAlphabet, _, by decide, ht⟩
    · refine .inr ⟨f, _, ?_, ht⟩
      obtain rfl | rfl | rfl := codes_decode _ _ hf <;> decide
    · exact .inl ⟨_, ht⟩
  | clr => exact absurd rfl hi

/-- R181, R202: CLR ends with the indications of reset; its STATUS is 0, so that not even DONE is set. -/
theorem clr_ends {s t : State} (h : execOn p .clr s = .next t) :
    statusWord t = 0#32 ∧ t.error = false ∧ t.err = .success ∧ t.errinfo = 0#21 := by
  obtain ⟨hstatus, -⟩ := resetState
  cases h
  exact ⟨hstatus, rfl, rfl, rfl⟩

/-- R83, R199: a word that is no command runs nothing. -/
theorem runCommand_of_illegal {w : Word} {e : Illegal} (s : State) (h : decodeWord w = .error e) :
    runCommand p w s = .next (raise .illegalCommand (startCommand s)) := by
  rw [runCommand, h]

end EndingRules

/-! ## The statements -/

/-- Settles O6: `clr_ends` for CLR, and `execOn_ends` for the other commands. -/
theorem oneResultPerCommand : Obligations.OneResultPerCommand := by
  intro p i s
  obtain ⟨t, h, -⟩ := exec_answers p i s
  refine ⟨t, h, exec_of_execOn h, ?_⟩
  by_cases hi : i = .clr
  · subst hi
    obtain ⟨hstatus, -, herr, hinfo⟩ := clr_ends h
    exact .inl ⟨rfl, hstatus, herr, hinfo⟩
  · obtain ⟨u, rfl⟩ | ⟨f, u, -, rfl⟩ := execOn_ends hi h
    · exact .inr (.inl ⟨hi, rfl⟩)
    · exact .inr (.inr ⟨hi, f, f.code_ne_success, rfl⟩)

/-- Settles O7: the numbers are computed; ERR is success, or the code `execOn_ends` finds in the table. -/
theorem resultCodesOfEachCommand : Obligations.ResultCodesOfEachCommand := by
  refine ⟨⟨fun c => by cases c <;> decide, rfl, rfl, rfl, rfl, rfl, rfl, rfl, rfl, rfl, rfl, rfl⟩, ?_⟩
  intro p i s t h
  by_cases hi : i = .clr
  · subst hi
    obtain ⟨-, -, herr, -⟩ := clr_ends h
    exact List.mem_singleton.2 herr
  · obtain ⟨u, rfl⟩ | ⟨f, u, hcode, rfl⟩ := execOn_ends hi h
    · cases i <;> exact List.mem_cons_self
    · exact hcode

/-- Settles O8: a failed command is neither NOP nor CLR, and the inputs of the others are among what they never write
(`commandFrames`). -/
theorem failedCommandKeepsInputs : Obligations.FailedCommandKeepsInputs := by
  intro p i s t h herror
  obtain ⟨-, -, hsin, hsinLen, hft, hnode, htree, hct, hcodes, hpay, hpayLen, himg, himgLen, -⟩ :=
    commandFrames p i s t h
  cases i with
  | nop => cases h; cases herror
  | build =>
    obtain ⟨hft, -⟩ := hft nofun nofun
    exact hft
  | assign =>
    obtain ⟨hvalid, hcnt, hroot⟩ := htree (.inr (.inl rfl))
    exact ⟨hnode nofun nofun, hcnt, hroot, hvalid⟩
  | encode =>
    obtain ⟨-, hsinLen⟩ := hsinLen nofun
    obtain ⟨hvalid, hctLen⟩ := hcodes (.inr (.inl rfl))
    exact ⟨hsin, hsinLen, hct nofun, hctLen, hvalid⟩
  | wrhdr =>
    obtain ⟨hft, -⟩ := hft nofun nofun
    obtain ⟨hpayLen, hpad⟩ := hpayLen nofun nofun nofun
    exact ⟨hft, hpad, hpay nofun nofun, hpayLen⟩
  | rdhdr => exact ⟨himg nofun, himgLen nofun nofun⟩
  | decode =>
    obtain ⟨hft, -⟩ := hft nofun nofun
    obtain ⟨hpayLen, hpad⟩ := hpayLen nofun nofun nofun
    exact ⟨hft, hpay nofun nofun, hpayLen, hpad⟩
  | clr =>
    obtain ⟨-, hok, -⟩ := clr_ends h
    cases hok.symm.trans herror

/-- Settles O4: the rule for a word that is no command; BUSY, set at the start, is clear again. -/
theorem illegalCommandFails : Obligations.IllegalCommandFails :=
  fun _ s _ _ h => runCommand_of_illegal s h

end Sys2Proof.Machine
end

section
/-! PROOFS. The statements of 70_reset_and_hazards.md: which accesses invalidate the derived state, and that ASSIGN and
ENCODE refuse to work on it; where a run of commands stops; and what a run of FTSets leaves in the table. -/

namespace Sys2Proof.Machine

section HazardRules

variable {p : Params}

/-! ## What invalidates the derived state -/

/-- R57: what InvalidateTree leaves in the registers of the tree and of the code table. -/
def DerivedInvalid (s : State) : Prop :=
  s.treeValid = false ∧ s.nodeCnt = 0#22 ∧ s.root = 0#22 ∧ s.ctValid = false ∧ s.ctLen = 0#32

theorem DerivedInvalid.codes {s : State} (h : DerivedInvalid s) : s.ctValid = false ∧ s.ctLen = 0#32 := by
  obtain ⟨-, -, -, hcodes⟩ := h
  exact hcodes

theorem withTable_derived (t : Table) (s : State) : DerivedInvalid (withTable t s) := ⟨rfl, rfl, rfl, rfl, rfl⟩

theorem hostFtSet_of_accepts {n c : Nat} {s : State} (h : ftAccepts p n c s = true) :
    hostFtSet p n c s = withTable (tableSet s.ft (BitVec.ofNat 21 n) (BitVec.ofNat 64 c)) s :=
  if_pos ((ftAccepts_iff n c s).1 h)

theorem hostFtSet_derived {n c : Nat} {s : State} (h : ftAccepts p n c s = true) :
    DerivedInvalid (hostFtSet p n c s) := by
  rw [hostFtSet_of_accepts h]
  exact withTable_derived _ _

theorem hostWriteReg_ft (n : Nat) (v : Word) (s : State) : (hostWriteReg p n v s).ft = s.ft := by
  unfold hostWriteReg
  split
  case h_5 => rfl
  all_goals split <;> rfl

theorem hostWrite_ft (sp : Space) (i v : Nat) (s : State) : (hostWrite p sp i v s).ft = s.ft := by
  cases sp
  case node | ct | sout => rfl
  all_goals rw [hostWrite]; split <;> rfl

/-- A CMD write that changes FT is that of RDHDR or CLR (`exec_ft`). -/
theorem cmd_derived_of_ft_ne {w : Word} {s t : State} (h : perform p (.writeCsr 0 w) s = .next t) (hft : t.ft ≠ s.ft) :
    DerivedInvalid t := by
  cases hd : decodeWord w with
  | error e =>
    cases (runCommand_of_illegal s hd).symm.trans h
    exact absurd rfl hft
  | ok i =>
    obtain rfl := encodeWord_of_decodeWord hd
    have hrun := (command_run i s).symm.trans h
    obtain rfl | rfl := exec_ft i s t hrun hft
    · exact rdhdr_derived s t hrun
    · exact clr_derived s t hrun

/-- R72, R225: the derived state never outlives the table it was derived from. -/
theorem perform_derived_of_ft_ne {e : PortEvent} {s t : State} (h : perform p e s = .next t) (hft : t.ft ≠ s.ft) :
    DerivedInvalid t := by
  have ha : accepted p e s = true := Bool.of_not_eq_false fun ha => by
    cases (perform_refused ha).symm.trans h
    exact hft rfl
  cases e with
  | writeCsr n v =>
    by_cases hn : n = 0
    · subst hn
      exact cmd_derived_of_ft_ne h hft
    · cases (perform_writeCsr_of_ne_cmd v s hn).symm.trans h
      exact absurd (hostWriteReg_ft n v s) hft
  | ftSet n c =>
    cases h
    exact hostFtSet_derived ha
  | ftDel n =>
    cases h
    rw [hostFtDel] at hft ⊢
    split at hft
    next hin => rw [if_pos hin]; exact withTable_derived _ _
    next => exact absurd rfl hft
  | write sp i v =>
    cases h
    exact absurd (hostWrite_ft sp i v s) hft
  | reset =>
    cases h
    exact ⟨rfl, rfl, rfl, rfl, rfl⟩
  | readCsr n | ftGet n | read sp i =>
    obtain ⟨r, hr⟩ := perform_accepted_read rfl ha
    cases (hr s.resp).symm.trans h
    exact absurd rfl hft

/-- R225: what makes the tree, and with it the code table, invalid. -/
theorem perform_derived {e : PortEvent} {s t : State} (h : perform p e s = .next t)
    (hcause : t.ft ≠ s.ft ∨ (∃ n c, e = .ftSet n c) ∧ accepted p e s = true ∨
      e = .writeCsr 0x00 (encodeWord .rdhdr) ∨ e = .writeCsr 0x00 (encodeWord .clr)) : DerivedInvalid t := by
  obtain hft | ⟨⟨n, c, rfl⟩, ha⟩ | rfl | rfl := hcause
  · exact perform_derived_of_ft_ne h hft
  · cases h
    exact hostFtSet_derived ha
  · exact rdhdr_derived s t ((command_run .rdhdr s).symm.trans h)
  · exact clr_derived s t ((command_run .clr s).symm.trans h)

/-! ## Commands on invalid derived state -/

theorem assign_refuses {s : State} (hv : s.treeValid = false) :
    ∃ u, exec .assign s = .next u ∧ u.error = true ∧ u.err = .sequence ∧ u.ctValid = false :=
  ⟨_, assign_of_error (assignResult_of_not_treeValid hv), rfl, rfl, rfl⟩

theorem encode_refuses {s : State} (hc : s.ctValid = false) :
    ∃ u, execOn p .encode s = .next u ∧ u.error = true ∧ u.err = .sequence ∧ u.payLen = 0#32 ∧ u.pad = 0#3 :=
  ⟨_, encode_err s .sequence (encodeResult_of_not_ctValid hc), rfl, rfl, rfl, rfl⟩

/-! ## Runs of commands and of FTSets -/

/-- R86: the host stops at a command that fails. -/
theorem runUntilError_stops {i : Instr} (is : List Instr) {s t : State} (h : execOn p i s = .next t)
    (he : t.error = true) : runUntilError p (i :: is) s = .next t := by
  simp only [runUntilError, command_run, h, he, if_true]

/-- R31: FTSet of a SCALAR symbol and a 64-bit count, on a table that is not full. -/
theorem perform_ftSet_sym {x : Sym} {c : Nat} {s : State} (hx : isScalar x.toNat = true) (hc : c < 2 ^ 64)
    (hroom : s.ft.length < p.maxSyms.toNat) :
    perform p (.ftSet x.toNat c) s = .next (withTable (tableSet s.ft x (BitVec.ofNat 64 c)) s) := by
  have ha := (ftAccepts_iff x.toNat c s).2 ⟨hx, hc, .inr hroom.ne⟩
  rw [perform, hostFtSet_of_accepts ha, BitVec.ofNat_toNat, BitVec.setWidth_eq]

/-- FTSets of the symbols `syms`, each with its count by `f`, on a table with room for all of them. -/
theorem runEvents_ftSets (f : Sym → Nat) (syms : List Sym) (s : State) (hx : ∀ x ∈ syms, isScalar x.toNat = true)
    (hc : ∀ x ∈ syms, f x < 2 ^ 64) (hroom : s.ft.length + syms.length ≤ p.maxSyms.toNat) :
    ∃ t, runEvents p (syms.map (fun x => .ftSet x.toNat (f x))) s = .next t ∧ t.hosterr = s.hosterr ∧
      sinElems t = sinElems s ∧
      ∀ x, tableGet t.ft x = if x ∈ syms then some (BitVec.ofNat 64 (f x)) else tableGet s.ft x := by
  induction syms generalizing s with
  | nil => exact ⟨s, rfl, rfl, rfl, fun x => (if_neg List.not_mem_nil).symm⟩
  | cons y ys ih =>
    rw [List.forall_mem_cons] at hx hc
    rw [List.length_cons] at hroom
    obtain ⟨hy, hys⟩ := hx
    obtain ⟨hcy, hcys⟩ := hc
    have hstep := perform_ftSet_sym (p := p) hy hcy (show s.ft.length < p.maxSyms.toNat by omega)
    obtain ⟨hgrow, -⟩ := length_tableSet s.ft y (BitVec.ofNat 64 (f y))
    obtain ⟨t, hrun, hherr, hsin, hget⟩ := ih (withTable (tableSet s.ft y (BitVec.ofNat 64 (f y))) s) hys hcys
      (by rw [withTable_ft]; omega)
    refine ⟨t, ?_, hherr, hsin, fun x => ?_⟩
    · rw [List.map_cons, runEvents, hstep]
      exact hrun
    · rw [hget, withTable_ft, tableGet_tableSet]
      by_cases hxy : x = y
      · subst hxy; simp
      · simp [hxy]

/-- SIN_LEN has 32 bits, so a number of occurrences fits the 64 bits of a count (R226). -/
theorem count_sinElems_lt (s : State) (x : Sym) : (sinElems s).count x < 2 ^ 64 := by
  have hlen : (sinElems s).length = s.sinLen.toNat := length_readAll _ _ _
  have hcount := List.count_le_length (a := x) (l := sinElems s)
  have hword := s.sinLen.isLt
  omega

end HazardRules

/-! ## The statements -/

/-- Settles O23: the causes of the first part invalidate both (`perform_derived`), BUILD and DECODE the codes alone. -/
theorem staleDerivedStateIsRefused : Obligations.StaleDerivedStateIsRefused := by
  intro p e s t h
  refine ⟨fun hcause => ?_, fun hcause => ?_⟩
  · obtain ⟨htree, hcnt, hroot, -, -⟩ := perform_derived h hcause
    exact ⟨htree, hcnt, hroot, assign_refuses htree⟩
  · have hcodes : t.ctValid = false ∧ t.ctLen = 0#32 := by
      obtain hft | hset | hrd | hclr | rfl | rfl := hcause
      · exact (perform_derived h (.inl hft)).codes
      · exact (perform_derived h (.inr (.inl hset))).codes
      · exact (perform_derived h (.inr (.inr (.inl hrd)))).codes
      · exact (perform_derived h (.inr (.inr (.inr hclr)))).codes
      · exact build_derived s t ((command_run .build s).symm.trans h)
      · exact decode_derived s t ((command_run .decode s).symm.trans h)
    obtain ⟨hvalid, hlen⟩ := hcodes
    exact ⟨hvalid, hlen, encode_refuses hvalid⟩

/-- Settles O59: the run stops at BUILD on an empty table, and at ASSIGN where the tree is one Leaf. -/
theorem compressRejectsSmallAlphabets : Obligations.CompressRejectsSmallAlphabets := by
  intro p s t h hrun
  rw [compressCommands] at hrun
  refine ⟨fun hft => ?_, fun hone => ?_⟩
  · have hbuild : exec .build s = .next (raise .emptyAlphabet (spoilNode (invalidateTree s))) := by
      rw [exec, execBuild, hft]
      rfl
    cases (runUntilError_stops (p := p) (i := .build) _ hbuild rfl).symm.trans hrun
    exact ⟨rfl, rfl⟩
  · have hne : s.ft ≠ [] := List.ne_nil_of_length_eq_add_one hone
    obtain ⟨nodes, -, hbuild, -⟩ := build_ok h hne
    have hassign := assign_of_error (assignResult_of_root_isLeaf rfl ((build_root_isLeaf h hne hbuild).2 hone))
    rw [runUntilError_next (p := p) (i := .build) hbuild rfl,
      runUntilError_stops (i := .assign) _ hassign rfl] at hrun
    cases hrun
    exact ⟨rfl, rfl⟩

/-- Settles O60: the run of FTSets, in any order, on an empty table. -/
theorem countLoadsTheFrequencies : Obligations.CountLoadsTheFrequencies := by
  refine ⟨fun s => ⟨_, .refl _, rfl⟩, fun p s syms _ hft hscalar hroom hperm => ?_⟩
  have hmem : ∀ x, x ∈ syms ↔ x ∈ sinElems s := fun x => hperm.mem_iff.trans List.mem_dedup
  obtain ⟨t, hrun, hherr, hsin, hget⟩ := runEvents_ftSets (p := p) ((sinElems s).count ·) syms s
    (fun x hx => hscalar x ((hmem x).1 hx)) (fun x _ => count_sinElems_lt s x)
    (by rwa [hft, List.length_nil, Nat.zero_add, hperm.length_eq])
  refine ⟨t, hrun, hherr, hsin, fun x => ?_⟩
  rw [hget, hft]
  simp only [hmem, tableGet]

/-- Settles O11: every memory is drawn anew, and a memory just drawn lists no element. -/
theorem resetAtAnyTime : Obligations.ResetAtAnyTime :=
  fun _ s => ⟨applyReset s, rfl, rfl, fun _ => ⟨rfl, rfl, rfl, rfl, rfl, rfl⟩⟩

end Sys2Proof.Machine
end
